-- ==== Sys2Proof/Word.lean ====
section
/-! DEFINITION. The word types: the byte every memory of the block but HT is made of, and the 32-bit
register word (10_state.md R16, R22, R23). -/

namespace Sys2Proof

/-- A byte: 8 bits, value 0..255 (R10). -/
abbrev Byte := BitVec 8

/-- A 32-bit register word (R16, D5). -/
abbrev Word := BitVec 32

end Sys2Proof
end

