-- ==== Sys2Proof/Config.lean ====
section
/-! DEFINITION. What an implementation fixes (the OPEN parameters of R8 and R39) and the free values: the
values the spec leaves unspecified (93_implementation_defined.md U6 to U11). A free value is a constant
without a body, so no proof can tell what it is. -/

namespace Sys2Proof

/-- The OPEN platform parameters: the capacities of IN and OUT (R8, `IN_SIZE` and `OUT_SIZE`, each in
1..2^32-1) and the three bus bases (R39). They stand in State so that a statement about every state is a
statement about every platform (log entry 8). -/
structure Platform where
  inSize  : Word
  outSize : Word
  regBase : Nat
  inBase  : Nat
  outBase : Nat
deriving DecidableEq, Repr

namespace Config

/-- The byte an IN address holds that nothing has written since the reset numbered `epoch`: any value (R147,
U9). Arguments: the epoch and the address. -/
opaque powerOnIn : Nat → Nat → Byte

/-- The byte an OUT address holds that nothing has written since the reset numbered `epoch`: any value (R147,
R148, U9, U10). Arguments: the epoch and the address. -/
opaque powerOnOut : Nat → Nat → Byte

/-- The entry an HT index holds that nothing has written since the reset numbered `epoch`: any value (R147, U9).
Arguments: the epoch and the index. -/
opaque powerOnHt : Nat → Nat → BitVec 16

/-- The byte of OUT a failed DECOMPRESS leaves at an address below `L`: any value (R135, R120, U6). Arguments: the
draw and the address. -/
opaque freeOutByte : Nat → Nat → Byte

/-- The value an internal register holds after Done or Failed: any value (R131, R135, U8). Arguments: the draw
and the register's place in the tables of R27 and R28. A register narrower than 64 bits takes the low bits. -/
opaque freeRegister : Nat → Nat → BitVec 64

/-- What a host read of `OUT_LEN` returns while `BUSY = 1`: any value (R124, U7). Argument: the draw. -/
opaque freeOutLen : Nat → Word

end Config

end Sys2Proof
end

