-- ==== Sys2Proof/Machine/State.lean ====
section
/-! DEFINITION. The state of the block (10_state.md), its reset (70_reset_and_hazards.md R147), and the reasons a
step can stop. -/

namespace Sys2Proof.Machine

/-- A sparse table in canonical form: indices strictly rising, an index that is not listed holds no value of the
model, and a read of it yields a free value (log entries 1 and 2). -/
abbrev Table (α : Type) := List (Nat × α)

/-- A byte memory: a list of `Host.Cell`. -/
abbrev Memory := Table Byte

/-- The hash table's contents: 16-bit entries (R24). -/
abbrev HashTable := Table (BitVec 16)

/-- The fields of STATUS (R18); its reserved bits hold nothing and read 0. -/
structure StatusReg where
  busy    : Bool
  done    : Bool
  err     : Bool
  errCode : BitVec 4
deriving DecidableEq, Repr

/-- How far COMPRESS has come in the pseudocode of R95 and R71 (log entry 11). -/
inductive CmpStage where
  /-- Before the start checks (R128). -/
  | startChecks
  /-- Before `VarintEnc(N)` (R95). -/
  | header
  /-- At the head of `while bs < N` (R95). -/
  | nextBlock
  /-- Before a probe (R78). -/
  | probe
  /-- A probe has succeeded: before the pending literal is emitted (R80). -/
  | accept
  /-- A match is verified: before EXTEND and its copy (R81, R82). -/
  | extend
  /-- A match is emitted: before ADJACENT (R83). -/
  | adjacent
  /-- At TAIL (R85). -/
  | tail
deriving DecidableEq, Repr

/-- How far DECOMPRESS has come (R26, R101). -/
inductive DcmpStage where
  /-- Before the start checks (R128). -/
  | startChecks
  /-- In `ReadHeader` (R67). -/
  | readHeader
  /-- In `DecodeLoop` (R103). -/
  | decodeLoop
deriving DecidableEq, Repr

/-- The engine's control state (R26). `Done` and `Failed` are IDLE with STATUS saying which (R131, R135). -/
inductive Phase where
  | idle
  | cmp (stage : CmpStage)
  | dcmp (stage : DcmpStage)
deriving DecidableEq, Repr

/-- The compressor registers of R27, each of its width there. -/
structure CmpRegs where
  N        : Word
  op       : Word
  bs       : Word
  be       : Word
  S        : BitVec 17
  bits     : BitVec 4
  ipLimit  : Word
  ip       : Word
  nextEmit : Word
  skip     : Word
  h        : BitVec 14
  cand     : Word
  base     : Word
  matched  : Word
deriving DecidableEq, Repr

/-- The tag parser registers of R28, each of its width there. -/
structure DecRegs where
  pos    : Word
  L      : Word
  outPos : Word
  tag    : Byte
  len    : BitVec 33
  offset : Word
  k      : BitVec 3
  vshift : BitVec 6
  vres   : Word
deriving DecidableEq, Repr

/-- One host access on the bus (R36, R39): an address, a width in bytes, and for a write the value. -/
inductive HostAccess where
  | read (addr width : Nat)
  | write (addr width : Nat) (value : Word)
deriving DecidableEq, Repr

/-- What the world outside the block does next (log entry 9). -/
inductive HostAction where
  /-- The host makes one bus access. -/
  | access (a : HostAccess)
  /-- The host makes no access while the engine takes one step. -/
  | pass
  /-- The host reads STATUS until `BUSY = 0` (R140, R150 step 6). -/
  | poll
  /-- The block is reset (R147, R148). -/
  | reset
deriving DecidableEq, Repr

/-- The state: the registers of R16 to R21, the memories of R22 to R24, the internal registers of R26 to R28, and
the model's own fields (platform, host, readData, resultSeen, draws, epoch). -/
structure State where
  /-- CTRL.OP (R17); CTRL.START holds nothing and reads 0. -/
  ctrlOp   : Bool
  status   : StatusReg
  inLen    : Word
  outCap   : Word
  outLen   : Word
  inMem    : Memory
  outMem   : Memory
  ht       : HashTable
  phase    : Phase
  cmp      : CmpRegs
  dec      : DecRegs
  /-- The OPEN parameters (log entry 8). -/
  platform : Platform
  /-- The host's pending actions, oldest first (log entry 9). -/
  host     : List HostAction
  /-- What the host's last read returned (log entry 10). -/
  readData : Word
  /-- Whether the host has read STATUS with `BUSY = 0` since it last started an operation, which R133 asks of it
  before it reads OUT or OUT_LEN (log entry 30); true before the first start. -/
  resultSeen : Bool
  /-- The number of free values drawn so far (log entry 7). -/
  draws    : Nat
  /-- The number of resets since power-on, which indexes the memories' free contents (log entry 7). -/
  epoch    : Nat
deriving DecidableEq, Repr

/-- The compressor registers at reset: unspecified (R147), 0 by log entry 3. -/
def CmpRegs.reset : CmpRegs :=
  { N := 0, op := 0, bs := 0, be := 0, S := 0, bits := 0, ipLimit := 0, ip := 0, nextEmit := 0, skip := 0, h := 0,
    cand := 0, base := 0, matched := 0 }

/-- The parser registers at reset: unspecified (R147), 0 by log entry 3. -/
def DecRegs.reset : DecRegs :=
  { pos := 0, L := 0, outPos := 0, tag := 0, len := 0, offset := 0, k := 0, vshift := 0, vres := 0 }

/-- The platform of the reset state: the capacities of 95_test_vectors.md section 3 and three bases whose regions
overlap for no capacity (log entry 8). -/
def resetPlatform : Platform :=
  { inSize := 4096, outSize := 4096, regBase := 0, inBase := 2 ^ 32, outBase := 2 ^ 33 }

/-- The machine right after power-on reset (R147): the registers 0, IDLE, nothing listed in a memory, and no host
action pending. -/
def State.reset : State :=
  { ctrlOp := false
    status := { busy := false, done := false, err := false, errCode := 0 }
    inLen := 0, outCap := 0, outLen := 0
    inMem := [], outMem := [], ht := []
    phase := .idle
    cmp := CmpRegs.reset, dec := DecRegs.reset
    platform := resetPlatform
    host := [], readData := 0, resultSeen := true, draws := 0, epoch := 0 }

/-- Why the machine stops. Raised by a host access only; no instruction faults. -/
inductive Fault where
  /-- Raised by a host access to a bus address outside the three regions of R39: no such address exists in the
  block. Safe: the model stops where hardware answers something the spec does not say. -/
  | busUnmapped (addr : Nat)
deriving DecidableEq, Repr

/-- Why the model has no transition. Raised by the host accesses that 93_implementation_defined.md tells a model to
refuse; no instruction is refused. -/
inductive Refusal where
  /-- Raised by exec's arm of an instruction that has no meaning yet (none). Safe. -/
  | notModelled (mnemonic : String)
  /-- Raised by a host access to the register block of a width other than 4 bytes or at an offset that is no
  multiple of 4 (R36, U12, `REG_ACCESS_OTHER`). Safe. -/
  | regAccessOther (offset width : Nat)
  /-- Raised by a host access to IN or OUT wider than a byte (R36, U13, `MEM_ACCESS_WIDE`). Safe. -/
  | memAccessWide (addr width : Nat)
  /-- Raised by a host access to IN or OUT while `BUSY = 1`, which breaks the host's duty (R133, R156, U14). Safe. -/
  | memAccessWhileBusy (addr : Nat)
  /-- Raised by a host read of OUT or OUT_LEN after an operation has ended and before the host has read STATUS with
  `BUSY = 0`, which breaks the host's duty (R133). Safe. -/
  | resultBeforeStatus (addr : Nat)
deriving DecidableEq, Repr

end Sys2Proof.Machine
end

