-- ==== Sys2Proof/Machine/Flags.lean ====
section
/-! DEFINITION. The flags: every write of STATUS (10_state.md R30 names the four), the error codes
(60_exceptions.md R134) and the words the host reads (R17, R18). -/

namespace Sys2Proof.Machine

/-- The error kinds of R134. -/
inductive ErrKind where
  | truncatedHeader
  | truncatedLiteral
  | truncatedCopyOperand
  | invalidBackReference
  | outputOverrun
  | outputUnderrun
  | lengthExceedsCapacity
  | compressCapacity
  | badConfig
deriving DecidableEq, Repr

/-- `STATUS.ERRCODE` of each kind (R134). -/
def ErrKind.code : ErrKind → BitVec 4
  | .truncatedHeader       => 1
  | .truncatedLiteral      => 2
  | .truncatedCopyOperand  => 3
  | .invalidBackReference  => 4
  | .outputOverrun         => 5
  | .outputUnderrun        => 6
  | .lengthExceedsCapacity => 7
  | .compressCapacity      => 8
  | .badConfig             => 9

/-- Whether a kind arises in DecodeLoop or at the end check, so that `OUT[0 .. L-1]` is unspecified after it; the
others arise before the first OUT write (R120, R135). -/
def ErrKind.inDecodeLoop : ErrKind → Bool
  | .truncatedHeader       => false
  | .truncatedLiteral      => true
  | .truncatedCopyOperand  => true
  | .invalidBackReference  => true
  | .outputOverrun         => true
  | .outputUnderrun        => true
  | .lengthExceedsCapacity => false
  | .compressCapacity      => false
  | .badConfig             => false

/-- STATUS when a start is accepted (R127). -/
def statusAccepted : StatusReg := { busy := true, done := false, err := false, errCode := 0 }

/-- STATUS when an operation ends in Done (R131). -/
def statusDone : StatusReg := { busy := false, done := true, err := false, errCode := 0 }

/-- STATUS when an operation ends in Failed (R135). -/
def statusFailed (e : ErrKind) : StatusReg := { busy := false, done := false, err := true, errCode := e.code }

/-- The 32-bit STATUS word: BUSY in bit 0, DONE in 1, ERR in 2, ERRCODE in 7:4, the rest 0 (R18). -/
def statusWord (r : StatusReg) : Word :=
  0#24 ++ r.errCode ++ 0#1 ++ BitVec.ofBool r.err ++ BitVec.ofBool r.done ++ BitVec.ofBool r.busy

/-- The 32-bit CTRL word a read returns: START reads 0, OP in bit 1, the rest 0 (R17, R124). -/
def ctrlReadWord (op : Bool) : Word := 0#30 ++ BitVec.ofBool op ++ 0#1

end Sys2Proof.Machine
end

