-- ==== Sys2Proof/Machine/Params.lean ====
section
/-! DEFINITION. The fixed parameters of 00_scope.md R7 and the input margin of R8. -/

namespace Sys2Proof.Machine

/-- Bytes per block (R7). -/
def BLOCK_SIZE : Nat := 65536

/-- The largest table has `2 ^ MAX_TABLE_BITS` slots (R7, R72). -/
def MAX_TABLE_BITS : Nat := 14

/-- The start value of the sizing loop (R7, R72). -/
def TABLE_BITS_START : Nat := 2

/-- The fingerprint multiplier (R7, R74). -/
def HASH_MUL : Word := 0x1e35a7bd

/-- The start value of the skip counter (R7, R77). -/
def SKIP_INIT : Nat := 32

/-- The probe's step is `skip >> SKIP_SHIFT` (R7, R78). -/
def SKIP_SHIFT : Nat := 5

/-- The seed length verified before a match is accepted (R7, R81). -/
def MIN_MATCH : Nat := 4

/-- The longest literal without an extension byte (R7, R90). -/
def LIT_SHORT_MAX : Nat := 60

/-- The longest literal emitted with one extension byte (R7, R90). -/
def LIT_EXT1_MAX : Nat := 255

/-- The chunk length of long copies (R7, R91). -/
def COPY_CHUNK : Nat := 64

/-- A copy of at least this length is chunked (R7, R91). -/
def COPY_SPLIT : Nat := 68

/-- The extra chunk when the remainder is 65..67 (R7, R91). -/
def COPY_EXTRA : Nat := 60

/-- The short copy form needs a smaller length (R7, R92). -/
def SHORT_COPY_LEN_LT : Nat := 12

/-- The short copy form needs a smaller offset (R7, R92). -/
def SHORT_COPY_OFF_LT : Nat := 2048

/-- The longest varint (R7, R48). -/
def VARINT_MAX_BYTES : Nat := 5

/-- The scan margin (R8, R75). The spec took the value from general knowledge (G1). -/
def INPUT_MARGIN : Nat := 15

/-- The worst-case compressed size of `n` bytes (R7, R97), computed exactly. -/
def outBound (n : Nat) : Nat := 32 + n + n / 6

end Sys2Proof.Machine
end

