-- ==== Sys2Proof/Machine/Ops.lean ====
section
/-! DEFINITION. The named operations over memory and registers, the Failed entry (60_exceptions.md R135), the end in
Done (45_host_commands.md R131), the acceptance of a start (R127), which is also the return from Failed
(R137), and reset (70_reset_and_hazards.md R147, R148). -/

namespace Sys2Proof.Machine

/-! ## Tables and memories -/

/-- What a table lists at an index. -/
def Table.lookup {α : Type} : Table α → Nat → Option α
  | [], _ => none
  | (b, w) :: m, a => if a = b then some w else Table.lookup m a

/-- A table with one entry written (`MemWrite` of R11), kept in canonical form. -/
def Table.write {α : Type} : Table α → Nat → α → Table α
  | [], a, v => [(a, v)]
  | (b, w) :: m, a, v =>
    if a < b then (a, v) :: (b, w) :: m
    else if a = b then (a, v) :: m
    else (b, w) :: Table.write m a v

/-- A table with the entries `0 .. n-1` written, entry `i` with `f i`, and the others kept. -/
def Table.fill {α : Type} (m : Table α) (n : Nat) (f : Nat → α) : Table α :=
  (List.range n).map (fun i => (i, f i)) ++ m.filter (fun c => decide (n ≤ c.1))

/-- The canonical form: indices strictly rising. An unlisted index holds no value, so no entry can equal what it
reads as. -/
abbrev Table.wf {α : Type} (m : Table α) : Prop := m.Pairwise (fun x y => x.1 < y.1)

/-- The canonical form of a byte memory. -/
abbrev Memory.wf (m : Memory) : Prop := Table.wf m

/-- `MemRead(IN, a, 1)` (R11). A byte nothing has written holds any value (R147, U9; log entry 1). -/
def inByte (s : State) (a : Nat) : Byte := (Table.lookup s.inMem a).getD (Config.powerOnIn s.epoch a)

/-- A byte of an OUT memory in a given epoch (R11). A byte nothing has written holds any value (R147, U9). -/
def outByteOf (epoch : Nat) (m : Memory) (a : Nat) : Byte := (Table.lookup m a).getD (Config.powerOnOut epoch a)

/-- `MemRead(OUT, a, 1)` (R11). -/
def outByte (s : State) (a : Nat) : Byte := outByteOf s.epoch s.outMem a

/-- `MemRead(HT, i, 1)` (R11). An entry nothing has written holds any value (R147, U9; log entry 2). -/
def htEntry (s : State) (i : Nat) : BitVec 16 := (Table.lookup s.ht i).getD (Config.powerOnHt s.epoch i)

/-- `MemWrite(OUT, a, 1, v)` (R11). -/
def writeOut (s : State) (a : Nat) (v : Byte) : State := { s with outMem := Table.write s.outMem a v }

/-- `MemWrite(HT, i, 1, v)` (R11) with `v` an offset below `2^16` (R87). -/
def writeHt (s : State) (i v : Nat) : State := { s with ht := Table.write s.ht i (BitVec.ofNat 16 v) }

/-- `Load32(a)` (R11), little-endian (R32). -/
def load32 (s : State) (a : Nat) : Word := inByte s (a + 3) ++ inByte s (a + 2) ++ inByte s (a + 1) ++ inByte s a

/-- `Eq32(a, b)` (R11): the four bytes at `a` equal the four at `b`. -/
def eq32 (s : State) (a b : Nat) : Bool :=
  inByte s a == inByte s b && inByte s (a + 1) == inByte s (b + 1) &&
  inByte s (a + 2) == inByte s (b + 2) && inByte s (a + 3) == inByte s (b + 3)

/-! ## Moving bytes -/

/-- `n` bytes moved in ascending order, one at a time, from a source the move does not write (R106, R90). -/
def moveBytes (source : Nat → Byte) (src dst : Nat) : Nat → Memory → Memory
  | 0, m => m
  | n + 1, m => moveBytes source (src + 1) (dst + 1) n (Table.write m dst (source src))

/-- The self-copy sequencer (R115): `n` bytes from `offset` below `dst`, ascending, one byte at a time, each read
after every earlier write (R151). -/
def selfCopy (epoch offset dst : Nat) : Nat → Memory → Memory
  | 0, m => m
  | n + 1, m => selfCopy epoch offset (dst + 1) n (Table.write m dst (outByteOf epoch m (dst - offset)))

/-! ## Taking an error, and the ways out of it -/

/-- The compressor registers after Done or Failed: any values (R131, R135, U8; log entry 4). -/
def CmpRegs.free (draw : Nat) : CmpRegs :=
  { N        := (Config.freeRegister draw 0).setWidth 32
    op       := (Config.freeRegister draw 1).setWidth 32
    bs       := (Config.freeRegister draw 2).setWidth 32
    be       := (Config.freeRegister draw 3).setWidth 32
    S        := (Config.freeRegister draw 4).setWidth 17
    bits     := (Config.freeRegister draw 5).setWidth 4
    ipLimit  := (Config.freeRegister draw 6).setWidth 32
    ip       := (Config.freeRegister draw 7).setWidth 32
    nextEmit := (Config.freeRegister draw 8).setWidth 32
    skip     := (Config.freeRegister draw 9).setWidth 32
    h        := (Config.freeRegister draw 10).setWidth 14
    cand     := (Config.freeRegister draw 11).setWidth 32
    base     := (Config.freeRegister draw 12).setWidth 32
    matched  := (Config.freeRegister draw 13).setWidth 32 }

/-- The parser registers after Done or Failed: any values (R131, R135, U8; log entry 4). -/
def DecRegs.free (draw : Nat) : DecRegs :=
  { pos    := (Config.freeRegister draw 14).setWidth 32
    L      := (Config.freeRegister draw 15).setWidth 32
    outPos := (Config.freeRegister draw 16).setWidth 32
    tag    := (Config.freeRegister draw 17).setWidth 8
    len    := (Config.freeRegister draw 18).setWidth 33
    offset := (Config.freeRegister draw 19).setWidth 32
    k      := (Config.freeRegister draw 20).setWidth 3
    vshift := (Config.freeRegister draw 21).setWidth 6
    vres   := (Config.freeRegister draw 22).setWidth 32 }

/-- OUT after a failure (R120, R135, U6; log entry 5): any values in `OUT[0 .. L-1]` when the failure comes in
DecodeLoop or at the end check, `OUT[L ..]` unchanged; all of OUT unchanged when it comes before. -/
def outAfterFailure (e : ErrKind) (s : State) : Memory :=
  if e.inDecodeLoop then Table.fill s.outMem s.dec.L.toNat (Config.freeOutByte s.draws) else s.outMem

/-- FAILED ENTRY (R135): `raise E(code)`, the one way an error is taken. -/
def raise (e : ErrKind) (s : State) : State :=
  { s with
    status := statusFailed e
    outLen := 0
    phase  := .idle
    outMem := outAfterFailure e s
    cmp    := CmpRegs.free s.draws
    dec    := DecRegs.free s.draws
    draws  := s.draws + 1 }

/-- END IN DONE (R131), with OUT_LEN already set. -/
def endDone (s : State) : State :=
  { s with
    status := statusDone
    phase  := .idle
    cmp    := CmpRegs.free s.draws
    dec    := DecRegs.free s.draws
    draws  := s.draws + 1 }

/-- START ACCEPTANCE (R127), common to both commands; with reset, the way out of Failed (R137). The start checks
and the operation are the engine's next steps. OUT_LEN is unspecified until the operation ends: the register reads as
a free value and its field keeps the old one (log entry 6). The host has not seen the operation's end (log entry
30). -/
def acceptStart (op : Bool) (s : State) : State :=
  { s with
    ctrlOp := op
    status := statusAccepted
    phase  := if op then .dcmp .startChecks else .cmp .startChecks
    resultSeen := false }

/-- Reset (R147, R148): the state of R147, an operation under way abandoned. The platform stays, the host's later
actions stay pending, and the memories' unspecified contents are those of a new epoch (log entry 22). -/
def resetNow (s : State) : State :=
  { State.reset with platform := s.platform, host := s.host, draws := s.draws, epoch := s.epoch + 1 }

/-! ## Register widths -/

/-- A value stored in a 32-bit cursor that never wraps (R29): the largest word where the exact value does not fit (log
entry 13). -/
def satWord (n : Nat) : Word := BitVec.ofNat 32 (min n (2 ^ 32 - 1))

end Sys2Proof.Machine
end

