-- ==== Sys2Proof/Machine/Command.lean ====
section
/-! DEFINITION. The three CTRL writes (45_host_commands.md R125 to R130) and the start checks (R128). -/

namespace Sys2Proof.Machine

/-- CMD_COMPRESS (R129): accepted when `BUSY = 0` (R127), ignored when `BUSY = 1` (R125). Bits 31:2 are ignored
(R61). -/
def execCmdCompress (_ignored : BitVec 30) (s : State) : Host.Outcome State Fault Refusal :=
  .next (if s.status.busy then s else acceptStart false s)

/-- CMD_DECOMPRESS (R130): accepted when `BUSY = 0` (R127), ignored when `BUSY = 1` (R125). -/
def execCmdDecompress (_ignored : BitVec 30) (s : State) : Host.Outcome State Fault Refusal :=
  .next (if s.status.busy then s else acceptStart true s)

/-- CTRL_SETOP (R126): `CTRL.OP <- w[1]` when `BUSY = 0`, ignored when `BUSY = 1` (R125). -/
def execCtrlSetop (opBit : Bool) (_ignored : BitVec 30) (s : State) : Host.Outcome State Fault Refusal :=
  .next (if s.status.busy then s else { s with ctrlOp := opBit })

/-- START CHECK 1 (R128): a length register is larger than its memory. -/
def badConfig (s : State) : Bool :=
  decide (s.inLen.toNat > s.platform.inSize.toNat) || decide (s.outCap.toNat > s.platform.outSize.toNat)

/-- START CHECK 2 (R128): the granted output space is below the worst case, computed exactly. -/
def capacityShort (s : State) : Bool := decide (s.outCap.toNat < outBound s.inLen.toNat)

/-- The start checks of COMPRESS in their order (R128, R136), then the first two assignments of R95. -/
def startCompress (s : State) : State :=
  if badConfig s then raise .badConfig s
  else if capacityShort s then raise .compressCapacity s
  else { s with cmp := { s.cmp with N := s.inLen, op := 0 }, phase := .cmp .header }

/-- The start check of DECOMPRESS (R128, R136), then the assignments before the header's first byte (R101, R67). -/
def startDecompress (s : State) : State :=
  if badConfig s then raise .badConfig s
  else { s with dec := { s.dec with pos := 0, vres := 0, vshift := 0 }, phase := .dcmp .readHeader }

end Sys2Proof.Machine
end

