-- ==== Sys2Proof/Machine/TagEncoder.lean ====
section
/-! DEFINITION. The varint encoder (40_varint.md R64) and the tag encoder (42_tag_encoder.md R90 to R92): the bytes
each writes, and their emission at the output cursor `op` (R11, `Emit`). -/

namespace Sys2Proof.Machine

/-- `Emit(b)` (R11): `OUT[op] <- b; op <- op + 1`. -/
def emit (b : Byte) (s : State) : State :=
  { s with
    outMem := Table.write s.outMem s.cmp.op.toNat b
    cmp := { s.cmp with op := s.cmp.op + 1 } }

/-- `Emit` of each byte of a list, in order. -/
def emitBytes : List Byte → State → State
  | [], s => s
  | b :: bytes, s => emitBytes bytes (emit b s)

/-- VARINT_ENC's loop (R64): the low 7 bits of `v`, with `0x80` while higher bits remain. `fuel + 1` bytes at most;
5 suffice for `v < 2^32` (R65). -/
def varintLoop : Nat → Nat → List Byte
  | 0, v => [BitVec.ofNat 8 (v % 128)]
  | fuel + 1, v =>
    if v / 128 ≠ 0 then BitVec.ofNat 8 (v % 128 + 128) :: varintLoop fuel (v / 128)
    else [BitVec.ofNat 8 (v % 128)]

/-- The varint of a 32-bit value (R64). -/
def varintBytes (v : Nat) : List Byte := varintLoop (VARINT_MAX_BYTES - 1) v

/-- The tag and extension bytes EMIT_LITERAL writes (R90). -/
def literalHeader (len : Nat) : List Byte :=
  if len ≤ LIT_SHORT_MAX then [BitVec.ofNat 8 ((len - 1) * 4)]
  else if len ≤ LIT_EXT1_MAX then [BitVec.ofNat 8 (60 * 4), BitVec.ofNat 8 (len - 1)]
  else [BitVec.ofNat 8 (61 * 4), BitVec.ofNat 8 ((len - 1) % 256), BitVec.ofNat 8 ((len - 1) / 256)]

/-- EMIT_LITERAL(`src`, `len`) (R90): the header, then the payload byte by byte from IN. -/
def emitLiteral (src len : Nat) (s : State) : State :=
  let t := emitBytes (literalHeader len) s
  { t with
    outMem := moveBytes (inByte t) src t.cmp.op.toNat len t.outMem
    cmp := { t.cmp with op := t.cmp.op + BitVec.ofNat 32 len } }

/-- The bytes of EMIT_COPY_LT64(`offset`, `len`) (R92): COPY1 or COPY2, never COPY4. -/
def copyElementBytes (offset len : Nat) : List Byte :=
  if len < SHORT_COPY_LEN_LT ∧ offset < SHORT_COPY_OFF_LT then
    [BitVec.ofNat 8 (1 + (len - 4) * 4 + offset / 256 * 32), BitVec.ofNat 8 (offset % 256)]
  else
    [BitVec.ofNat 8 (2 + (len - 1) * 4), BitVec.ofNat 8 (offset % 256), BitVec.ofNat 8 (offset / 256)]

/-- The chunk lengths of EMIT_COPY (R91): 64 while at least 68 remain, then 60 when 65..67 remain, then the rest.
`fuel` bounds the loop; `len` suffices. -/
def copyChunksLoop : Nat → Nat → List Nat
  | 0, len => [len]
  | fuel + 1, len =>
    if COPY_SPLIT ≤ len then COPY_CHUNK :: copyChunksLoop fuel (len - COPY_CHUNK)
    else if COPY_CHUNK < len then [COPY_EXTRA, len - COPY_EXTRA]
    else [len]

/-- The chunk lengths of a copy of `len` bytes (R91). -/
def copyChunks (len : Nat) : List Nat := copyChunksLoop len len

/-- The bytes EMIT_COPY(`offset`, `len`) writes (R91): one element for each chunk, all with the same offset. -/
def copyBytes (offset len : Nat) : List Byte := (copyChunks len).flatMap (copyElementBytes offset)

/-- EMIT_COPY(`offset`, `len`) (R91). -/
def emitCopy (offset len : Nat) (s : State) : State := emitBytes (copyBytes offset len) s

end Sys2Proof.Machine
end

