-- ==== Sys2Proof/Machine/MatchFinder.lean ====
section
/-! DEFINITION. The match finder and the adaptive skipper (41_match_finder.md R71 to R85), one definition for each
step of the block procedure R71. -/

namespace Sys2Proof.Machine

/-- The sizing loop of R72. `fuel` bounds it; 13 passes reach the cap. -/
def tableBitsLoop : Nat → Nat → Nat → Nat
  | 0, _, bits => bits
  | fuel + 1, size, bits =>
    if 2 ^ bits ≤ size ∧ bits ≤ MAX_TABLE_BITS then tableBitsLoop fuel size (bits + 1) else bits

/-- TableBits(`S`) (R72). -/
def tableBits (size : Nat) : Nat := tableBitsLoop MAX_TABLE_BITS size TABLE_BITS_START - 1

/-- The fingerprint of a 32-bit load (R74): the top `bits` bits of the product modulo `2^32`. -/
def fingerprintOf (v : Word) (bits : Nat) : Nat := (v * HASH_MUL).toNat / 2 ^ (32 - bits)

/-- FP(`a`) (R74). -/
def fingerprint (s : State) (a : Nat) : Nat := fingerprintOf (load32 s a) s.cmp.bits.toNat

/-- The start of a block (R71): its end, its table size (R72), the table cleared (R73), `nextEmit` (R76), and either
the first search round (R75, R76, R77) or, for a block shorter than the margin, TAIL. -/
def beginBlock (size : Nat) (s : State) : State :=
  let bits := tableBits size
  let be := s.cmp.bs.toNat + size
  let t := { s with
    ht := Table.fill s.ht (2 ^ bits) (fun _ => 0)
    cmp := { s.cmp with
      S        := BitVec.ofNat 17 size
      be       := BitVec.ofNat 32 be
      bits     := BitVec.ofNat 4 bits
      nextEmit := s.cmp.bs } }
  if INPUT_MARGIN ≤ size then
    { t with
      cmp := { t.cmp with
        ipLimit := BitVec.ofNat 32 (be - INPUT_MARGIN)
        ip      := s.cmp.bs + 1
        skip    := BitVec.ofNat 32 SKIP_INIT }
      phase := .cmp .probe }
  else { t with phase := .cmp .tail }

/-- Read the candidate for `ip` and record `ip` at the same slot, the read first (R78, R83 steps 2 and 3, R152). -/
def lookupAndRecord (s : State) : State :=
  let ip := s.cmp.ip.toNat
  let h := fingerprint s ip
  let cand := s.cmp.bs.toNat + (htEntry s h).toNat
  let t := writeHt s h (ip - s.cmp.bs.toNat)
  { t with cmp := { t.cmp with h := BitVec.ofNat 14 h, cand := BitVec.ofNat 32 cand } }

/-- The candidate is verified: `Eq32(ip, cand)` (R78, R83). -/
def candidateMatches (s : State) : Bool := eq32 s s.cmp.ip.toNat s.cmp.cand.toNat

/-- Where a failed probe takes `ip` (R71, R78, R79): on by `skip >> 5`, exactly. It can lie past the block end, against
R29, whose sentence is derived from R78 and does not follow from it (log entry 13). -/
def scanStep (s : State) : Nat := s.cmp.ip.toNat + s.cmp.skip.toNat / 2 ^ SKIP_SHIFT

/-- PROBE (R78). The step uses `skip` before the increment. -/
def probe (s : State) : State :=
  if s.cmp.ip.toNat > s.cmp.ipLimit.toNat then { s with phase := .cmp .tail }
  else
    let t := lookupAndRecord s
    if candidateMatches t then { t with phase := .cmp .accept }
    else
      { t with cmp := { t.cmp with
        ip   := satWord (scanStep t)
        skip := t.cmp.skip + 1 } }

/-- A probe succeeded: the pending literal run is emitted (R80). -/
def acceptMatch (s : State) : State :=
  let t := emitLiteral s.cmp.nextEmit.toNat (s.cmp.ip.toNat - s.cmp.nextEmit.toNat) s
  { t with phase := .cmp .extend }

/-- How many of the next `n` bytes at `a` and at `b` agree before the first difference (R81). -/
def agreeing (read : Nat → Byte) : Nat → Nat → Nat → Nat
  | 0, _, _ => 0
  | n + 1, a, b => if read a = read b then agreeing read n (a + 1) (b + 1) + 1 else 0

/-- EXTEND (R81): `base`, `matched`, and `ip` past the match. -/
def extendMatch (s : State) : State :=
  let ip := s.cmp.ip.toNat
  let cand := s.cmp.cand.toNat
  let matched := MIN_MATCH +
    agreeing (inByte s) (s.cmp.be.toNat - (ip + MIN_MATCH)) (ip + MIN_MATCH) (cand + MIN_MATCH)
  { s with cmp := { s.cmp with
    base    := s.cmp.ip
    matched := BitVec.ofNat 32 matched
    ip      := BitVec.ofNat 32 (ip + matched) } }

/-- EXTEND, then the match is emitted and `nextEmit <- ip` (R81, R82). -/
def extendAndEmit (s : State) : State :=
  let t := extendMatch s
  let u := emitCopy (t.cmp.base.toNat - t.cmp.cand.toNat) t.cmp.matched.toNat t
  { u with cmp := { u.cmp with nextEmit := u.cmp.ip }, phase := .cmp .adjacent }

/-- ADJACENT (R83): record `ip - 1`, then look `ip` up (R153); another match, or `ip + 1` and a new search round
(R84, R77). -/
def adjacent (s : State) : State :=
  let ip := s.cmp.ip.toNat
  if ip ≥ s.cmp.ipLimit.toNat then { s with phase := .cmp .tail }
  else
    let t := lookupAndRecord (writeHt s (fingerprint s (ip - 1)) (ip - 1 - s.cmp.bs.toNat))
    if candidateMatches t then { t with phase := .cmp .extend }
    else
      { t with
        cmp := { t.cmp with ip := t.cmp.ip + 1, skip := BitVec.ofNat 32 SKIP_INIT }
        phase := .cmp .probe }

/-- TAIL (R85): the bytes never matched, as one literal, if there are any; the block is over (R95,
`bs <- bs + S`). -/
def blockTail (s : State) : State :=
  let t :=
    if s.cmp.nextEmit.toNat < s.cmp.be.toNat then
      emitLiteral s.cmp.nextEmit.toNat (s.cmp.be.toNat - s.cmp.nextEmit.toNat) s
    else s
  { t with cmp := { t.cmp with bs := BitVec.ofNat 32 (t.cmp.bs.toNat + t.cmp.S.toNat) }, phase := .cmp .nextBlock }

end Sys2Proof.Machine
end

