-- ==== Sys2Proof/Machine/Compressor.lean ====
section
/-! DEFINITION. The block compressor (43_block_compressor.md R95, R96): one engine step of COMPRESS for each stage. -/

namespace Sys2Proof.Machine

/-- `VarintEnc(N); bs <- 0` (R95). -/
def writeHeader (s : State) : State :=
  let t := emitBytes (varintBytes s.cmp.N.toNat) s
  { t with cmp := { t.cmp with bs := 0 }, phase := .cmp .nextBlock }

/-- The head of the block loop (R95, R96): the next block of `min(BLOCK_SIZE, N - bs)` bytes, or the end with
`OUT_LEN = op`. -/
def nextBlock (s : State) : State :=
  if s.cmp.bs.toNat < s.cmp.N.toNat then beginBlock (min BLOCK_SIZE (s.cmp.N.toNat - s.cmp.bs.toNat)) s
  else endDone { s with outLen := s.cmp.op }

/-- One engine step of COMPRESS. -/
def compressStep (stage : CmpStage) (s : State) : State :=
  match stage with
  | .startChecks => startCompress s
  | .header      => writeHeader s
  | .nextBlock   => nextBlock s
  | .probe       => probe s
  | .accept      => acceptMatch s
  | .extend      => extendAndEmit s
  | .adjacent    => adjacent s
  | .tail        => blockTail s

end Sys2Proof.Machine
end

