-- ==== Sys2Proof/Syntax.lean ====
section
/-! DEFINITION. The instructions: one constructor for each row of spec/opcode_table.json. Every operand is the
field of the encoding, bit for bit (30_encoding.md R48 to R54, R61). A literal's payload is data in IN that
the literal moves (R106), not an operand. -/

namespace Sys2Proof

/-- The eight tag forms (R50 to R54), the two kinds of header byte (R48) and the three CTRL writes (R61). -/
inductive Instr where
  /-- COPY1 (R52): `len - 4` in `tag[4:2]`, an 11-bit offset. -/
  | copy1 (lenField : BitVec 3) (offset : BitVec 11)
  /-- COPY2 (R53): `len - 1` in `tag[7:2]`, a 16-bit offset. -/
  | copy2 (lenField : BitVec 6) (offset : BitVec 16)
  /-- COPY4 (R54): `len - 1` in `tag[7:2]`, a 32-bit offset. -/
  | copy4 (lenField : BitVec 6) (offset : BitVec 32)
  /-- LIT_X1 (R51): `len - 1` in 1 byte. -/
  | litX1 (lenField : BitVec 8)
  /-- LIT_X2 (R51): `len - 1` in 2 bytes. -/
  | litX2 (lenField : BitVec 16)
  /-- LIT_X3 (R51): `len - 1` in 3 bytes. -/
  | litX3 (lenField : BitVec 24)
  /-- LIT_X4 (R51): `len - 1` in 4 bytes. -/
  | litX4 (lenField : BitVec 32)
  /-- LIT (R50): `len - 1` in `tag[7:2]`, 0..59. -/
  | lit (lenField : BitVec 6)
  /-- VARINT_CONT (R48): a header byte with `C = 1` and its 7-bit group. -/
  | varintCont (group : BitVec 7)
  /-- VARINT_LAST (R48): a header byte with `C = 0` and its 7-bit group. -/
  | varintLast (group : BitVec 7)
  /-- CMD_COMPRESS (R61): a CTRL write with `START = 1`, `OP = 0`; bits 31:2 are carried and ignored. -/
  | cmdCompress (ignored : BitVec 30)
  /-- CMD_DECOMPRESS (R61): a CTRL write with `START = 1`, `OP = 1`; bits 31:2 are carried and ignored. -/
  | cmdDecompress (ignored : BitVec 30)
  /-- CTRL_SETOP (R61): a CTRL write with `START = 0` that stores `OP`; bits 31:2 are carried and ignored. -/
  | ctrlSetop (opBit : Bool) (ignored : BitVec 30)
deriving DecidableEq, Repr

/-- Where an instruction is read from. The three contexts never mix: the engine's state says which one a byte of
IN belongs to (R67, R103), and a CTRL write comes from the host (R61). -/
inductive Context where
  /-- A 32-bit CTRL write (R61). -/
  | command
  /-- A byte of the stream's varint header (R48). -/
  | header
  /-- A tag element (R49). -/
  | element
deriving DecidableEq, Repr

namespace Instr

/-- The context each instruction belongs to. -/
def context : Instr → Context
  | .copy1 _ _ | .copy2 _ _ | .copy4 _ _ => .element
  | .litX1 _ | .litX2 _ | .litX3 _ | .litX4 _ | .lit _ => .element
  | .varintCont _ | .varintLast _ => .header
  | .cmdCompress _ | .cmdDecompress _ | .ctrlSetop _ _ => .command

end Instr

end Sys2Proof
end

