-- ==== Sys2Proof/WellFormed.lean ====
section
/-! DEFINITION. Which terms of Instr are instructions: every field width is in its type, and one bound is left to
check, the short literal's field (30_encoding.md R50, R56). -/

namespace Sys2Proof

namespace Instr

/-- The only check the field widths do not make: LIT holds `len - 1` in 0..59, because 60..63 are the tags of
LIT_X1..LIT_X4 (R50, R56). -/
def wellFormed : Instr → Bool
  | .lit lenField => decide (lenField.toNat ≤ 59)
  | .copy1 _ _ | .copy2 _ _ | .copy4 _ _ => true
  | .litX1 _ | .litX2 _ | .litX3 _ | .litX4 _ => true
  | .varintCont _ | .varintLast _ => true
  | .cmdCompress _ | .cmdDecompress _ | .ctrlSetop _ _ => true

end Instr

end Sys2Proof
end

