-- ==== Sys2Proof/Decode.lean ====
section
/-! DEFINITION. The decoder (total on any bytes, rejecting by name), and after it the encoder, both from the
tables of 30_encoding.md. -/

namespace Sys2Proof

/-- Why a list of bytes is not an instruction of the asked context. -/
inductive DecodeError where
  /-- There is no byte. -/
  | noByte
  /-- The tag selects a form whose extension or operand bytes are not all there: the form needs `needed` bytes
  after the tag (R105 check 1, R112). -/
  | truncatedOperand (needed : Nat)
  /-- A CTRL write has fewer than the four bytes of its word (R36, R61). -/
  | shortCommand
deriving DecidableEq, Repr

/-- A tag element from its tag `b 0` and the bytes after it, in the order of R56, first match wins. Total: no tag
value is reserved (R58). The operands are assembled as R52 to R55 say, little-endian (R32). -/
def decodeElement (b : Nat → Byte) : Instr :=
  let tag := b 0
  let form : BitVec 2 := tag.extractLsb' 0 2
  let field : BitVec 6 := tag.extractLsb' 2 6
  if form = 1#2 then .copy1 (tag.extractLsb' 2 3) (tag.extractLsb' 5 3 ++ b 1)
  else if form = 2#2 then .copy2 field (b 2 ++ b 1)
  else if form = 3#2 then .copy4 field (b 4 ++ b 3 ++ b 2 ++ b 1)
  else if tag = 0xF0#8 then .litX1 (b 1)
  else if tag = 0xF4#8 then .litX2 (b 2 ++ b 1)
  else if tag = 0xF8#8 then .litX3 (b 3 ++ b 2 ++ b 1)
  else if tag = 0xFC#8 then .litX4 (b 4 ++ b 3 ++ b 2 ++ b 1)
  else .lit field

/-- A header byte: bit 7 is `C`, bits 6:0 are the group (R48). -/
def decodeHeader (c : Byte) : Instr :=
  if c.extractLsb' 7 1 = 1#1 then .varintCont (c.extractLsb' 0 7) else .varintLast (c.extractLsb' 0 7)

/-- A CTRL write word: bit 0 is `START`, bit 1 is `OP`, bits 31:2 are ignored (R61). -/
def decodeCommand (w : Word) : Instr :=
  let ignored : BitVec 30 := w.extractLsb' 2 30
  if w.getLsbD 0 then
    if w.getLsbD 1 then .cmdDecompress ignored else .cmdCompress ignored
  else .ctrlSetop (w.getLsbD 1) ignored

/-- How many bytes of IN (or of the bus word) an instruction's own encoding takes: the tag and its extension or
operand bytes, without a literal's payload (R55, R57). -/
def Instr.encodedBytes : Instr → Nat
  | .copy1 _ _ => 2
  | .copy2 _ _ => 3
  | .copy4 _ _ => 5
  | .litX1 _ => 2
  | .litX2 _ => 3
  | .litX3 _ => 4
  | .litX4 _ => 5
  | .lit _ => 1
  | .varintCont _ => 1
  | .varintLast _ => 1
  | .cmdCompress _ => 4
  | .cmdDecompress _ => 4
  | .ctrlSetop _ _ => 4

/-- The 32-bit word whose bytes are `b 0`, `b 1`, `b 2`, `b 3`, little-endian (R32). -/
def wordOfBytes (b : Nat → Byte) : Word := b 3 ++ b 2 ++ b 1 ++ b 0

/-- The `j`-th byte of a list, and 0 beyond its end. -/
def byteAt (bytes : List Byte) (j : Nat) : Byte := bytes.getD j 0#8

/-- The decoder: the instruction at the head of `bytes` in the given context and the bytes after it, or the reason
why there is none. -/
def decode (ctx : Context) (bytes : List Byte) : Except DecodeError (Instr × List Byte) :=
  match ctx with
  | .element =>
    match bytes with
    | [] => .error .noByte
    | _ :: _ =>
      let i := decodeElement (byteAt bytes)
      if i.encodedBytes ≤ bytes.length then .ok (i, bytes.drop i.encodedBytes)
      else .error (.truncatedOperand (i.encodedBytes - 1))
  | .header =>
    match bytes with
    | [] => .error .noByte
    | c :: rest => .ok (decodeHeader c, rest)
  | .command =>
    if 4 ≤ bytes.length then .ok (decodeCommand (wordOfBytes (byteAt bytes)), bytes.drop 4)
    else .error .shortCommand

/-! ## The encoder -/

/-- Byte `j` of a value, little-endian (R32). -/
def leByte {w : Nat} (v : BitVec w) (j : Nat) : Byte := v.extractLsb' (8 * j) 8

/-- The word of a CTRL write (R61). -/
def commandWord (ignored : BitVec 30) (op start : Bool) : Word :=
  ignored ++ BitVec.ofBool op ++ BitVec.ofBool start

/-- The four bytes of a CTRL write, little-endian. -/
def commandBytes (w : Word) : List Byte := [leByte w 0, leByte w 1, leByte w 2, leByte w 3]

/-- The encoder: the bytes of an instruction in the order of their addresses, written from the tables of R48 to
R54 and R61 (a literal without its payload). -/
def encode : Instr → List Byte
  | .copy1 lenField offset => [offset.extractLsb' 8 3 ++ lenField ++ 1#2, leByte offset 0]
  | .copy2 lenField offset => [lenField ++ 2#2, leByte offset 0, leByte offset 1]
  | .copy4 lenField offset =>
    [lenField ++ 3#2, leByte offset 0, leByte offset 1, leByte offset 2, leByte offset 3]
  | .litX1 lenField => [0xF0#8, lenField]
  | .litX2 lenField => [0xF4#8, leByte lenField 0, leByte lenField 1]
  | .litX3 lenField => [0xF8#8, leByte lenField 0, leByte lenField 1, leByte lenField 2]
  | .litX4 lenField =>
    [0xFC#8, leByte lenField 0, leByte lenField 1, leByte lenField 2, leByte lenField 3]
  | .lit lenField => [lenField ++ 0#2]
  | .varintCont group => [1#1 ++ group]
  | .varintLast group => [0#1 ++ group]
  | .cmdCompress ignored => commandBytes (commandWord ignored false true)
  | .cmdDecompress ignored => commandBytes (commandWord ignored true true)
  | .ctrlSetop opBit ignored => commandBytes (commandWord ignored opBit false)

/-! ## The numbering of spec/opcode_table.json -/

/-- The context a word of the opcode table is read in. The table's rows share words, because its three contexts are
told apart by the engine's state and not by the bits: a row of 32 bits is a CTRL write; the byte 0x80, which is
VARINT_CONT's own row, is read as a header byte; every other byte is read as a tag (log entry 20). -/
def tableContext (nbits w : Nat) : Context :=
  if nbits = 32 then .command else if w = 0x80 then .header else .element

/-- The bytes of a table word: byte `j` is bits `8j+7 .. 8j`. Five bytes, the longest encoding (R57). -/
def tableBytes (w : Nat) : List Byte :=
  [BitVec.ofNat 8 w, BitVec.ofNat 8 (w / 2 ^ 8), BitVec.ofNat 8 (w / 2 ^ 16), BitVec.ofNat 8 (w / 2 ^ 24),
   BitVec.ofNat 8 (w / 2 ^ 32)]

/-- The instruction the decoder reads from a table word of `nbits` bits (1 to 5 bytes). -/
def decodeTableWord (nbits w : Nat) : Option Instr :=
  if nbits = 0 ∨ 40 < nbits then none
  else
    match decode (tableContext nbits w) (tableBytes (w % 2 ^ nbits)) with
    | .ok (i, _) => some i
    | .error _ => none

end Sys2Proof
end

