-- ==== Sys2Proof/Machine/Operands.lean ====
section
/-! DEFINITION. The operand forms: the length and offset of each tag form from its fields (30_encoding.md R55), the
bytes an element takes and writes (R57), and the pseudo-instructions of R63. -/

namespace Sys2Proof.Machine

/-- `len` of a field that holds `len - 1`: LIT, LIT_Xk, COPY2, COPY4 (R55). Exact: up to `2^32` for LIT_X4. -/
def lenMinus1 {w : Nat} (field : BitVec w) : Nat := field.toNat + 1

/-- `len` of COPY1, whose field holds `len - 4` (R55). -/
def lenMinus4 (field : BitVec 3) : Nat := field.toNat + 4

/-- The output length of a tag element (R57); 0 for what is no tag element. -/
def elementLen : Instr → Nat
  | .copy1 lenField _ => lenMinus4 lenField
  | .copy2 lenField _ => lenMinus1 lenField
  | .copy4 lenField _ => lenMinus1 lenField
  | .litX1 lenField => lenMinus1 lenField
  | .litX2 lenField => lenMinus1 lenField
  | .litX3 lenField => lenMinus1 lenField
  | .litX4 lenField => lenMinus1 lenField
  | .lit lenField => lenMinus1 lenField
  | .varintCont _ | .varintLast _ => 0
  | .cmdCompress _ | .cmdDecompress _ | .ctrlSetop _ _ => 0

/-- The bytes of IN a tag element takes, its payload included (R57). -/
def elementBytes : Instr → Nat
  | .copy1 lenField offset => (Instr.copy1 lenField offset).encodedBytes
  | .copy2 lenField offset => (Instr.copy2 lenField offset).encodedBytes
  | .copy4 lenField offset => (Instr.copy4 lenField offset).encodedBytes
  | .litX1 lenField => (Instr.litX1 lenField).encodedBytes + lenMinus1 lenField
  | .litX2 lenField => (Instr.litX2 lenField).encodedBytes + lenMinus1 lenField
  | .litX3 lenField => (Instr.litX3 lenField).encodedBytes + lenMinus1 lenField
  | .litX4 lenField => (Instr.litX4 lenField).encodedBytes + lenMinus1 lenField
  | .lit lenField => (Instr.lit lenField).encodedBytes + lenMinus1 lenField
  | .varintCont _ | .varintLast _ => 0
  | .cmdCompress _ | .cmdDecompress _ | .ctrlSetop _ _ => 0

/-- The pseudo-instruction `literal n` (R63): LIT for `n <= 60`, LIT_X1 for 61..255, LIT_X2 for 256..65536. -/
def expandLiteral (n : Nat) : Instr :=
  if n ≤ 60 then .lit (BitVec.ofNat 6 (n - 1))
  else if n ≤ 255 then .litX1 (BitVec.ofNat 8 (n - 1))
  else .litX2 (BitVec.ofNat 16 (n - 1))

/-- One copy element of the pseudo-instruction `copy off, n` (R63): COPY1 when `n < 12` and `off < 2048`, COPY2
otherwise. -/
def expandCopyElement (off n : Nat) : Instr :=
  if n < 12 ∧ off < 2048 then .copy1 (BitVec.ofNat 3 (n - 4)) (BitVec.ofNat 11 off)
  else .copy2 (BitVec.ofNat 6 (n - 1)) (BitVec.ofNat 16 off)

end Sys2Proof.Machine
end

