-- ==== Sys2Proof/Machine/Literal.lean ====
section
/-! DEFINITION. The literal forms (44_tag_parser.md R105 to R111). -/

namespace Sys2Proof.Machine

/-- FETCH of one element (R104): `tag <- IN[pos]; pos <- pos + 1`. -/
def fetchTag (s : State) : State :=
  { s with dec := { s.dec with tag := inByte s s.dec.pos.toNat, pos := s.dec.pos + 1 } }

/-- LITERAL MOVE (R106): the payload from IN to OUT, and both cursors past it. -/
def literalMove (len : Nat) (s : State) : State :=
  { s with
    outMem := moveBytes (inByte s) s.dec.pos.toNat s.dec.outPos.toNat len s.outMem
    dec := { s.dec with
      pos    := BitVec.ofNat 32 (s.dec.pos.toNat + len)
      outPos := BitVec.ofNat 32 (s.dec.outPos.toNat + len) } }

/-- LITERAL BOUNDS CHECK steps 2 and 3 (R105), then the move (R106). The sums are exact. -/
def literalPayload (len : Nat) (s : State) : State :=
  if s.dec.pos.toNat + len > s.inLen.toNat then raise .truncatedLiteral s
  else if s.dec.outPos.toNat + len > s.dec.L.toNat then raise .outputOverrun s
  else literalMove len s

/-- An extended literal with `k` extension bytes after its fetch (R108 to R111): check 1 of R105, then `len`, the
cursor past the extension bytes, and the payload. -/
def literalExtended (k len : Nat) (s : State) : State :=
  if s.dec.pos.toNat + k > s.inLen.toNat then
    raise .truncatedLiteral { s with dec := { s.dec with k := BitVec.ofNat 3 k } }
  else
    literalPayload len { s with dec := { s.dec with
      k   := BitVec.ofNat 3 k
      len := BitVec.ofNat 33 len
      pos := BitVec.ofNat 32 (s.dec.pos.toNat + k) } }

/-- LIT (R107). It leaves `k` as it is: R107 does not write it, though R55 gives LIT `k = 0` (log entry 29). -/
def execLit (lenField : BitVec 6) (s : State) : Host.Outcome State Fault Refusal :=
  let s' := fetchTag s
  .next (literalPayload (lenMinus1 lenField)
    { s' with dec := { s'.dec with len := BitVec.ofNat 33 (lenMinus1 lenField) } })

/-- LIT_X1 (R108). -/
def execLitX1 (lenField : BitVec 8) (s : State) : Host.Outcome State Fault Refusal :=
  .next (literalExtended 1 (lenMinus1 lenField) (fetchTag s))

/-- LIT_X2 (R109). -/
def execLitX2 (lenField : BitVec 16) (s : State) : Host.Outcome State Fault Refusal :=
  .next (literalExtended 2 (lenMinus1 lenField) (fetchTag s))

/-- LIT_X3 (R110). -/
def execLitX3 (lenField : BitVec 24) (s : State) : Host.Outcome State Fault Refusal :=
  .next (literalExtended 3 (lenMinus1 lenField) (fetchTag s))

/-- LIT_X4 (R111); `len` is up to `2^32`, exact. -/
def execLitX4 (lenField : BitVec 32) (s : State) : Host.Outcome State Fault Refusal :=
  .next (literalExtended 4 (lenMinus1 lenField) (fetchTag s))

end Sys2Proof.Machine
end

