-- ==== Sys2Proof/Machine/Copy.lean ====
section
/-! DEFINITION. The copy forms (44_tag_parser.md R112 to R118). -/

namespace Sys2Proof.Machine

/-- SELF-COPY (R115): `len` bytes from `offset` back, and the output cursor past them. -/
def copyMove (offset len : Nat) (s : State) : State :=
  { s with
    outMem := selfCopy s.epoch offset s.dec.outPos.toNat len s.outMem
    dec := { s.dec with outPos := BitVec.ofNat 32 (s.dec.outPos.toNat + len) } }

/-- BACK-REFERENCE CHECK (R113), COPY OUTPUT CHECK (R114), then the self-copy. The sum is exact. -/
def copyChecked (offset len : Nat) (s : State) : State :=
  if offset = 0 ∨ offset > s.dec.outPos.toNat then raise .invalidBackReference s
  else if s.dec.outPos.toNat + len > s.dec.L.toNat then raise .outputOverrun s
  else copyMove offset len s

/-- A copy with `k` offset bytes after its fetch (R116 to R118): COPY OPERAND CHECK (R112) before any offset byte is
used, then `len`, `offset`, the cursor past the offset bytes, and the checks. -/
def copyElement (k len offset : Nat) (s : State) : State :=
  if s.dec.pos.toNat + k > s.inLen.toNat then
    raise .truncatedCopyOperand { s with dec := { s.dec with k := BitVec.ofNat 3 k } }
  else
    copyChecked offset len { s with dec := { s.dec with
      k      := BitVec.ofNat 3 k
      len    := BitVec.ofNat 33 len
      offset := BitVec.ofNat 32 offset
      pos    := BitVec.ofNat 32 (s.dec.pos.toNat + k) } }

/-- COPY1 (R116). -/
def execCopy1 (lenField : BitVec 3) (offset : BitVec 11) (s : State) : Host.Outcome State Fault Refusal :=
  .next (copyElement 1 (lenMinus4 lenField) offset.toNat (fetchTag s))

/-- COPY2 (R117). -/
def execCopy2 (lenField : BitVec 6) (offset : BitVec 16) (s : State) : Host.Outcome State Fault Refusal :=
  .next (copyElement 2 (lenMinus1 lenField) offset.toNat (fetchTag s))

/-- COPY4 (R118). -/
def execCopy4 (lenField : BitVec 6) (offset : BitVec 32) (s : State) : Host.Outcome State Fault Refusal :=
  .next (copyElement 4 (lenMinus1 lenField) offset.toNat (fetchTag s))

end Sys2Proof.Machine
end

