-- ==== Sys2Proof/Machine/Header.lean ====
section
/-! DEFINITION. The varint decoder (40_varint.md R67 to R69) byte by byte, and what follows the header
(44_tag_parser.md R101, R102). -/

namespace Sys2Proof.Machine

/-- The varint header is decoded: `L` is set and DecodeLoop is entered with `outPos = 0`, or the declared length
does not fit (R101, R102). -/
def enterDecodeLoop (s : State) : State :=
  if s.dec.vres.toNat > s.outCap.toNat then
    raise .lengthExceedsCapacity { s with dec := { s.dec with L := s.dec.vres } }
  else
    { s with
      dec   := { s.dec with L := s.dec.vres, outPos := 0 }
      phase := .dcmp .decodeLoop }

/-- The round-trip check (R68): the group shifted left by `vshift` in 32 bits and back. -/
def groupFits (group : BitVec 7) (vshift : Nat) : Bool :=
  ((group.setWidth 32 <<< vshift) >>> vshift) == group.setWidth 32

/-- The part of R67's loop body before the continuation bit is looked at: the two checks before the read, the read
(the group comes with the instruction), the round-trip check, and the accumulation. `none` is a raise of
`TruncatedHeader`. -/
def takeGroup (group : BitVec 7) (s : State) : Option State :=
  if s.dec.vshift.toNat ≥ 32 then none
  else if s.dec.pos.toNat ≥ s.inLen.toNat then none
  else if groupFits group s.dec.vshift.toNat then
    some { s with dec := { s.dec with
      pos  := s.dec.pos + 1
      vres := s.dec.vres ||| (group.setWidth 32 <<< s.dec.vshift.toNat) } }
  else none

/-- VARINT_CONT (R67, `C = 1`): another byte follows. -/
def execVarintCont (group : BitVec 7) (s : State) : Host.Outcome State Fault Refusal :=
  match takeGroup group s with
  | none => .next (raise .truncatedHeader s)
  | some t => .next { t with dec := { t.dec with vshift := t.dec.vshift + 7 } }

/-- VARINT_LAST (R67, `C = 0`): the header ends, `L <- vres`, and R101 goes on. -/
def execVarintLast (group : BitVec 7) (s : State) : Host.Outcome State Fault Refusal :=
  match takeGroup group s with
  | none => .next (raise .truncatedHeader s)
  | some t => .next (enterDecodeLoop t)

/-- ReadHeader with no byte left to read: `TruncatedHeader` (R67, `pos >= IN_LEN`). -/
def headerExhausted (s : State) : State := raise .truncatedHeader s

/-- The end of DecodeLoop (R101, R119): Done with `OUT_LEN = L` when the output is complete, `OutputUnderrun`
otherwise. -/
def endOfStream (s : State) : State :=
  if s.dec.outPos = s.dec.L then endDone { s with outLen := s.dec.L } else raise .outputUnderrun s

end Sys2Proof.Machine
end

