-- ==== Sys2Proof/Machine/Dispatch.lean ====
section
/-! DEFINITION. The dispatch: one arm for each instruction, one direct call of its meaning. -/

namespace Sys2Proof.Machine

def exec (i : Instr) (s : State) : Host.Outcome State Fault Refusal :=
  match i with
  -- the copy forms (R116 to R118)
  | .copy1 lenField offset => Sys2Proof.Machine.execCopy1 lenField offset s
  | .copy2 lenField offset => Sys2Proof.Machine.execCopy2 lenField offset s
  | .copy4 lenField offset => Sys2Proof.Machine.execCopy4 lenField offset s
  -- the literal forms (R107 to R111)
  | .litX1 lenField => Sys2Proof.Machine.execLitX1 lenField s
  | .litX2 lenField => Sys2Proof.Machine.execLitX2 lenField s
  | .litX3 lenField => Sys2Proof.Machine.execLitX3 lenField s
  | .litX4 lenField => Sys2Proof.Machine.execLitX4 lenField s
  | .lit lenField => Sys2Proof.Machine.execLit lenField s
  -- the header bytes (R67)
  | .varintCont group => Sys2Proof.Machine.execVarintCont group s
  | .varintLast group => Sys2Proof.Machine.execVarintLast group s
  -- the CTRL writes (R126, R129, R130)
  | .cmdCompress ignored => Sys2Proof.Machine.execCmdCompress ignored s
  | .cmdDecompress ignored => Sys2Proof.Machine.execCmdDecompress ignored s
  | .ctrlSetop opBit ignored => Sys2Proof.Machine.execCtrlSetop opBit ignored s

end Sys2Proof.Machine
end

