-- ==== Sys2Proof/Machine/Fetch.lean ====
section
/-! DEFINITION. Fetching: the bytes of IN the engine reads an instruction from (44_tag_parser.md R103, R104;
40_varint.md R67), and the placing of a table word where the next step reads it. -/

namespace Sys2Proof.Machine

/-- The bytes of IN an element's encoding can be read from: at `pos`, below `IN_LEN` (R38), five at most (R57). -/
def fetchWindow (s : State) : List Byte :=
  (List.range (min 5 (s.inLen.toNat - s.dec.pos.toNat))).map (fun j => inByte s (s.dec.pos.toNat + j))

/-- The element at `pos`. An operand byte at or above `IN_LEN` is never read: it counts as 0 here, and the form's
meaning raises before it uses the operand (R105, R112; log entry 18). -/
def fetchedElement (s : State) : Instr := decodeElement (byteAt (fetchWindow s))

/-- The header byte at `pos` (R67). -/
def fetchedHeader (s : State) : Instr := decodeHeader (inByte s s.dec.pos.toNat)

/-- The input memory with bytes stored from an address on. -/
def storeBytes : Memory → Nat → List Byte → Memory
  | m, _, [] => m
  | m, a, b :: bytes => storeBytes (Table.write m a b) (a + 1) bytes

/-- The address an element or header byte is placed at: the cursor, or 0 where five bytes from the cursor do not
fit below `2^32`. -/
def placeAddress (s : State) : Nat := if s.dec.pos.toNat + 5 < 2 ^ 32 then s.dec.pos.toNat else 0

/-- `s` with bytes placed where a running DECOMPRESS in the given stage reads them: at the cursor of IN, below
IN_LEN, the engine's turn next (log entry 21). -/
def placeInStream (s : State) (stage : DcmpStage) (bytes : List Byte) : State :=
  { s with
    inMem  := storeBytes s.inMem (placeAddress s) bytes
    inLen  := BitVec.ofNat 32 (max s.inLen.toNat (placeAddress s + 5))
    dec    := { s.dec with pos := BitVec.ofNat 32 (placeAddress s) }
    status := statusAccepted
    phase  := .dcmp stage
    host   := .pass :: s.host }

/-- `s` with a CTRL write of `w` as the host's next action. -/
def placeCommand (s : State) (w : Nat) : State :=
  { s with host := .access (.write s.platform.regBase 4 (BitVec.ofNat 32 w)) :: s.host }

/-- `s` with a table word placed where the next step fetches (log entry 21). -/
def placeWord (s : State) (nbits w : Nat) : State :=
  match tableContext nbits w with
  | .command => placeCommand s w
  | .header => placeInStream s .readHeader (tableBytes (w % 2 ^ nbits))
  | .element => placeInStream s .decodeLoop (tableBytes (w % 2 ^ nbits))

end Sys2Proof.Machine
end

