-- ==== Sys2Proof/Machine/HostBus.lean ====
section
/-! DEFINITION. The host's bus accesses: the address map (20_memory.md R39), the widths (R36), the register reads and
writes (45_host_commands.md R124, R125) and the byte accesses to IN and OUT (R133). -/

namespace Sys2Proof.Machine

/-- A place on the bus: a register offset, an address of IN or of OUT, or none of the three regions (R39). -/
inductive BusTarget where
  | reg (offset : Nat)
  | inByteAt (addr : Nat)
  | outByteAt (addr : Nat)
  | unmapped
deriving DecidableEq, Repr

/-- Whether `addr` lies in the `size` bytes from `base`. -/
def inRegion (base size addr : Nat) : Bool := decide (base ≤ addr) && decide (addr < base + size)

/-- The address map (R39); the register block is 32 bytes (R16). -/
def busTarget (p : Platform) (addr : Nat) : BusTarget :=
  if inRegion p.regBase 32 addr then .reg (addr - p.regBase)
  else if inRegion p.inBase p.inSize.toNat addr then .inByteAt (addr - p.inBase)
  else if inRegion p.outBase p.outSize.toNat addr then .outByteAt (addr - p.outBase)
  else .unmapped

/-- The value of a register read (R124, R16 to R21). `OUT_LEN` reads as any value while `BUSY = 1` (U7; log entry
6). -/
def regValue (s : State) (offset : Nat) : Word :=
  if offset = 0x00 then ctrlReadWord s.ctrlOp
  else if offset = 0x04 then statusWord s.status
  else if offset = 0x08 then s.inLen
  else if offset = 0x0C then s.outCap
  else if offset = 0x10 then if s.status.busy then Config.freeOutLen s.draws else s.outLen
  else 0

/-- A register read of the host (R124): it changes nothing but what the host has read, the draw counter when it drew
a free value, and the record that the host has seen the operation's end (R133). -/
def regRead (offset : Nat) (s : State) : State :=
  { s with
    readData := regValue s offset
    resultSeen := s.resultSeen || (decide (offset = 0x04) && !s.status.busy)
    draws := if offset = 0x10 ∧ s.status.busy then s.draws + 1 else s.draws }

/-- A register write of the host other than to CTRL (R125): IN_LEN and OUT_CAP while `BUSY = 0`; every other one is
ignored. -/
def regWrite (offset : Nat) (w : Word) (s : State) : State :=
  if s.status.busy then s
  else if offset = 0x08 then { s with inLen := w }
  else if offset = 0x0C then { s with outCap := w }
  else s

/-- Whether a register access has the width and alignment R36 gives it. -/
def regAccessOk (offset width : Nat) : Bool := decide (width = 4) && decide (offset % 4 = 0)

/-- The reason to refuse a byte access to IN or OUT, if there is one (R36, R133; U13, U14), the width first (log entry
14). -/
def memAccessRefusal (s : State) (addr width : Nat) : Option Refusal :=
  if width ≠ 1 then some (.memAccessWide addr width)
  else if s.status.busy then some (.memAccessWhileBusy addr)
  else none

/-- Whether an operation has ended and the host has not read STATUS with `BUSY = 0` since, so that it must not read
OUT or OUT_LEN yet (R133; log entry 30). -/
def resultUnseen (s : State) : Bool := !s.status.busy && !s.resultSeen

/-- The reason to refuse a register read, if there is one (R36, R133; U12). -/
def regReadRefusal (s : State) (addr offset width : Nat) : Option Refusal :=
  if !regAccessOk offset width then some (.regAccessOther offset width)
  else if offset = 0x10 ∧ resultUnseen s then some (.resultBeforeStatus addr)
  else none

/-- The reason to refuse a read of OUT, if there is one (R36, R133; U13, U14). -/
def outReadRefusal (s : State) (addr width : Nat) : Option Refusal :=
  match memAccessRefusal s addr width with
  | some r => some r
  | none => if resultUnseen s then some (.resultBeforeStatus addr) else none

/-- A host read. -/
def hostRead (addr width : Nat) (s : State) : Host.Outcome State Fault Refusal :=
  match busTarget s.platform addr with
  | .reg offset =>
    match regReadRefusal s addr offset width with
    | some r => .refused r
    | none => .next (regRead offset s)
  | .inByteAt a =>
    match memAccessRefusal s addr width with
    | some r => .refused r
    | none => .next { s with readData := (inByte s a).setWidth 32 }
  | .outByteAt a =>
    match outReadRefusal s addr width with
    | some r => .refused r
    | none => .next { s with readData := (outByte s a).setWidth 32 }
  | .unmapped => .fault (.busUnmapped addr)

/-- A host write, but for a CTRL write, which is an instruction (R61). The low byte of `value` goes to a memory. -/
def hostWrite (addr width : Nat) (value : Word) (s : State) : Host.Outcome State Fault Refusal :=
  match busTarget s.platform addr with
  | .reg offset =>
    if regAccessOk offset width then .next (regWrite offset value s) else .refused (.regAccessOther offset width)
  | .inByteAt a =>
    match memAccessRefusal s addr width with
    | some r => .refused r
    | none => .next { s with inMem := Table.write s.inMem a (value.setWidth 8) }
  | .outByteAt a =>
    match memAccessRefusal s addr width with
    | some r => .refused r
    | none => .next (writeOut s a (value.setWidth 8))
  | .unmapped => .fault (.busUnmapped addr)

/-- The word of a CTRL write (offset 0x00, 32 bits wide), if the access is one (R61). -/
def ctrlWrite (p : Platform) : HostAccess → Option Word
  | .read _ _ => none
  | .write addr width value => if busTarget p addr = .reg 0 ∧ width = 4 then some value else none

/-- A host access that is no CTRL write. -/
def hostAccess (a : HostAccess) (s : State) : Host.Outcome State Fault Refusal :=
  match a with
  | .read addr width => hostRead addr width s
  | .write addr width value => hostWrite addr width value s

/-- The end of the host's polling (R140, R150 step 6): it has read STATUS with `BUSY = 0`. -/
def pollDone (s : State) : State := { s with readData := statusWord s.status, resultSeen := true }

end Sys2Proof.Machine
end

