-- ==== Sys2Proof/Machine/Step.lean ====
section
/-! DEFINITION. One step of the machine: the host's next pending action, or one step of the engine. -/

namespace Sys2Proof.Machine

/-- One step of the engine. It takes none while IDLE (R146, R149). COMPRESS goes one stage on. DECOMPRESS runs the
start checks, then one header byte or one tag element (R67, R103), or ends when no byte is left (R67, R119). -/
def engineStep (s : State) : Host.Outcome State Fault Refusal :=
  match s.phase with
  | .idle => .next s
  | .cmp stage => .next (compressStep stage s)
  | .dcmp .startChecks => .next (startDecompress s)
  | .dcmp .readHeader =>
    if s.dec.pos.toNat < s.inLen.toNat then exec (fetchedHeader s) s else .next (headerExhausted s)
  | .dcmp .decodeLoop =>
    if s.dec.pos.toNat < s.inLen.toNat then exec (fetchedElement s) s else .next (endOfStream s)

/-- One bus access of the host: a CTRL write runs the instruction of its word (R61, R125), any other access is served
by the bus. -/
def accessStep (a : HostAccess) (s : State) : Host.Outcome State Fault Refusal :=
  match ctrlWrite s.platform a with
  | some w => exec (decodeCommand w) s
  | none => hostAccess a s

/-- One step: the host's oldest pending action if there is one, the engine otherwise (log entry 9). -/
def step (s : State) : Host.Outcome State Fault Refusal :=
  match s.host with
  | [] => engineStep s
  | .pass :: rest => engineStep { s with host := rest }
  | .poll :: rest => if s.status.busy then engineStep s else .next (pollDone { s with host := rest })
  | .access a :: rest => accessStep a { s with host := rest }
  | .reset :: rest => .next (resetNow { s with host := rest })

/-- `s` with an instruction of the opcode table placed where the next step fetches and runs it (log entry 21). -/
def State.withFetchWord (s : State) (nbits w : Nat) : State := placeWord s nbits w

end Sys2Proof.Machine
end

