-- ==== Sys2Proof/Safety.lean ====
section
/-! DEFINITION. What a safe state is and what an operation's end looks like, in the terms the statements use. -/

namespace Sys2Proof.Machine

/-! ## The whole machine -/

/-- STATUS holds one of the four legal combinations of R18, `ERRCODE` is 0 when `ERR = 0` and one of 1..9 when
`ERR = 1` (R134). -/
def statusLegal (r : StatusReg) : Prop :=
  (r.busy = false ∨ (r.done = false ∧ r.err = false)) ∧ (r.done = false ∨ r.err = false) ∧
  (r.err = false → r.errCode = 0) ∧ (r.err = true → 1 ≤ r.errCode.toNat ∧ r.errCode.toNat ≤ 9)

/-- `STATUS.BUSY = 1` exactly when `phase != IDLE` (R26). -/
def busyMatchesPhase (s : State) : Prop := s.status.busy = true ↔ s.phase ≠ .idle

/-- The parameters are in their ranges (R8) and the three regions do not overlap (R39). -/
def platformLegal (p : Platform) : Prop :=
  1 ≤ p.inSize.toNat ∧ 1 ≤ p.outSize.toNat ∧
  (p.regBase + 32 ≤ p.inBase ∨ p.inBase + p.inSize.toNat ≤ p.regBase) ∧
  (p.regBase + 32 ≤ p.outBase ∨ p.outBase + p.outSize.toNat ≤ p.regBase) ∧
  (p.inBase + p.inSize.toNat ≤ p.outBase ∨ p.outBase + p.outSize.toNat ≤ p.inBase)

/-- Every listed index lies below `n`. -/
def Table.below {α : Type} (m : Table α) (n : Nat) : Prop := ∀ c ∈ m, c.1 < n

/-- What holds in every state of every run, whatever the operation. -/
def Wf (s : State) : Prop :=
  statusLegal s.status ∧ busyMatchesPhase s ∧ platformLegal s.platform ∧
  Memory.wf s.inMem ∧ Memory.wf s.outMem ∧ Table.wf s.ht ∧
  Table.below s.inMem s.platform.inSize.toNat

/-- After the start checks, while an operation runs, its lengths fit the memories (R128). -/
def lengthsFit (s : State) : Prop :=
  s.inLen.toNat ≤ s.platform.inSize.toNat ∧ s.outCap.toNat ≤ s.platform.outSize.toNat

/-! ## DECOMPRESS -/

/-- The parser's cursors (R29, R67, R105, R114): in ReadHeader the header read so far is `pos` groups of 7 bits; in
DecodeLoop `pos <= IN_LEN` and `outPos <= L <= OUT_CAP`. -/
def ParserInv (s : State) : Prop :=
  match s.phase with
  | .dcmp .readHeader =>
    lengthsFit s ∧ s.dec.pos.toNat ≤ s.inLen.toNat ∧ s.dec.pos.toNat ≤ 5 ∧
    s.dec.vshift.toNat = 7 * s.dec.pos.toNat ∧ s.dec.vres.toNat < 2 ^ s.dec.vshift.toNat
  | .dcmp .decodeLoop =>
    lengthsFit s ∧ s.dec.pos.toNat ≤ s.inLen.toNat ∧ s.dec.outPos.toNat ≤ s.dec.L.toNat ∧
    s.dec.L.toNat ≤ s.outCap.toNat
  | _ => True

/-- What the checks of a literal find (R105, R121), for a literal of `k` extension bytes (0 for LIT) and `len`
payload bytes whose tag is at `pos`. -/
def literalVerdict (k len : Nat) (s : State) : Option ErrKind :=
  if s.dec.pos.toNat + 1 + k > s.inLen.toNat then some .truncatedLiteral
  else if s.dec.pos.toNat + 1 + k + len > s.inLen.toNat then some .truncatedLiteral
  else if s.dec.outPos.toNat + len > s.dec.L.toNat then some .outputOverrun
  else none

/-- What the checks of a copy find (R112, R113, R114, R121), for a copy of `k` operand bytes whose tag is at `pos`. -/
def copyVerdict (k len offset : Nat) (s : State) : Option ErrKind :=
  if s.dec.pos.toNat + 1 + k > s.inLen.toNat then some .truncatedCopyOperand
  else if offset = 0 ∨ offset > s.dec.outPos.toNat then some .invalidBackReference
  else if s.dec.outPos.toNat + len > s.dec.L.toNat then some .outputOverrun
  else none

/-- A literal has completed (R106, R107 to R111): `len` bytes from IN after the tag and the `k` extension bytes
stand in OUT at the old `outPos`, every other byte of OUT is as before, both cursors are past them, and of the
other state only `tag`, `len` and, for an extended literal, `k` have changed (LIT leaves `k` as it is: log entry 29). -/
def LiteralDone (k len : Nat) (s t : State) : Prop :=
  (∀ i, i < len → outByte t (s.dec.outPos.toNat + i) = inByte s (s.dec.pos.toNat + 1 + k + i)) ∧
  (∀ a, (a < s.dec.outPos.toNat ∨ s.dec.outPos.toNat + len ≤ a) → outByte t a = outByte s a) ∧
  t.dec.pos.toNat = s.dec.pos.toNat + 1 + k + len ∧
  t.dec.outPos.toNat = s.dec.outPos.toNat + len ∧
  t.dec.tag = inByte s s.dec.pos.toNat ∧ t.dec.len.toNat = len ∧
  t.dec.k = (if k = 0 then s.dec.k else BitVec.ofNat 3 k) ∧
  t.dec.L = s.dec.L ∧ t.dec.offset = s.dec.offset ∧ t.dec.vshift = s.dec.vshift ∧ t.dec.vres = s.dec.vres ∧
  t = { s with outMem := t.outMem, dec := t.dec }

/-- A copy has completed (R115, R116 to R118): the last `offset` bytes of the output repeat with period `offset` for
`len` bytes, every other byte of OUT is as before, `pos` is past the element and `outPos` past the bytes, and of
the other state only `tag`, `len`, `offset` and `k` have changed. -/
def CopyDone (k len offset : Nat) (s t : State) : Prop :=
  (∀ i, i < len → outByte t (s.dec.outPos.toNat + i) = outByte s (s.dec.outPos.toNat - offset + i % offset)) ∧
  (∀ a, (a < s.dec.outPos.toNat ∨ s.dec.outPos.toNat + len ≤ a) → outByte t a = outByte s a) ∧
  t.dec.pos.toNat = s.dec.pos.toNat + 1 + k ∧
  t.dec.outPos.toNat = s.dec.outPos.toNat + len ∧
  t.dec.tag = inByte s s.dec.pos.toNat ∧ t.dec.len.toNat = len ∧ t.dec.offset.toNat = offset ∧
  t.dec.k = BitVec.ofNat 3 k ∧
  t.dec.L = s.dec.L ∧ t.dec.vshift = s.dec.vshift ∧ t.dec.vres = s.dec.vres ∧
  t = { s with outMem := t.outMem, dec := t.dec }

/-- The Failed entry as R135 states it: STATUS, `OUT_LEN = 0`, IDLE, OUT at `L` and above unchanged, all of OUT
unchanged for the kinds that come before the first write, and nothing else changed but the internal registers
(unspecified) and the draw counter. -/
def FailedEntry (e : ErrKind) (s t : State) : Prop :=
  t.status = { busy := false, done := false, err := true, errCode := e.code } ∧
  t.outLen = 0 ∧ t.phase = .idle ∧
  (∀ a, s.dec.L.toNat ≤ a → outByte t a = outByte s a) ∧
  (e.inDecodeLoop = false → ∀ a, outByte t a = outByte s a) ∧
  t = { s with status := t.status, outLen := t.outLen, phase := t.phase, outMem := t.outMem, cmp := t.cmp,
               dec := t.dec, draws := t.draws }

/-- The end in Done as R131 states it, with the given `OUT_LEN`; OUT is as before. -/
def DoneEnd (outLen : Word) (s t : State) : Prop :=
  t.status = { busy := false, done := true, err := false, errCode := 0 } ∧
  t.outLen = outLen ∧ t.phase = .idle ∧
  t = { s with status := t.status, outLen := t.outLen, phase := t.phase, cmp := t.cmp, dec := t.dec,
               draws := t.draws }

/-! ## COMPRESS -/

/-- The registers of a block under way (R71, R72, R95, R96). -/
def BlockInv (s : State) : Prop :=
  s.cmp.N = s.inLen ∧ s.cmp.bs.toNat < s.cmp.N.toNat ∧ s.cmp.bs.toNat % 65536 = 0 ∧
  s.cmp.S.toNat = min 65536 (s.cmp.N.toNat - s.cmp.bs.toNat) ∧
  s.cmp.be.toNat = s.cmp.bs.toNat + s.cmp.S.toNat ∧
  s.cmp.bits.toNat = tableBits s.cmp.S.toNat ∧
  s.cmp.bs.toNat ≤ s.cmp.nextEmit.toNat ∧ s.cmp.nextEmit.toNat ≤ s.cmp.be.toNat

/-- A block being searched (R75), with every used entry of HT listed, at most `S - 15` (R87), and naming a position
below `bound` (R86 (a)). -/
def SearchInv (bound : Nat) (s : State) : Prop :=
  BlockInv s ∧ 15 ≤ s.cmp.S.toNat ∧ s.cmp.ipLimit.toNat = s.cmp.be.toNat - 15 ∧
  ∀ i, i < 2 ^ s.cmp.bits.toNat →
    ((Table.lookup s.ht i).isSome = true ∧ (htEntry s i).toNat ≤ s.cmp.S.toNat - 15 ∧
      s.cmp.bs.toNat + (htEntry s i).toNat < bound)

/-- A candidate accepted at `ip` (R78, R83): in the block, below `ip`, its four bytes verified (R86 (a)). -/
def MatchInv (s : State) : Prop :=
  SearchInv (s.cmp.ip.toNat + 1) s ∧ s.cmp.ip.toNat ≤ s.cmp.ipLimit.toNat ∧
  s.cmp.bs.toNat ≤ s.cmp.cand.toNat ∧ s.cmp.cand.toNat < s.cmp.ip.toNat ∧
  eq32 s s.cmp.ip.toNat s.cmp.cand.toNat = true

/-- The compressor's registers at each stage (R29, R86, R87, R95, R96). In a probe `ip` is past `ipLimit` by the skip at
most (R78; log entry 13). -/
def CompressInv (s : State) : Prop :=
  match s.phase with
  | .cmp .header => s.cmp.N = s.inLen ∧ s.cmp.op = 0
  | .cmp .nextBlock =>
    s.cmp.N = s.inLen ∧ s.cmp.bs.toNat ≤ s.cmp.N.toNat ∧
    (s.cmp.bs.toNat % 65536 = 0 ∨ s.cmp.bs = s.cmp.N)
  | .cmp .probe =>
    SearchInv s.cmp.ip.toNat s ∧ s.cmp.nextEmit.toNat < s.cmp.ip.toNat ∧
    s.cmp.ip.toNat ≤ s.cmp.ipLimit.toNat + s.cmp.skip.toNat / 32 ∧
    32 ≤ s.cmp.skip.toNat ∧ s.cmp.skip.toNat + s.cmp.bs.toNat ≤ 32 + s.cmp.ip.toNat
  | .cmp .accept => MatchInv s ∧ s.cmp.nextEmit.toNat < s.cmp.ip.toNat
  | .cmp .extend => MatchInv s ∧ s.cmp.nextEmit.toNat ≤ s.cmp.ip.toNat
  | .cmp .adjacent =>
    SearchInv s.cmp.ip.toNat s ∧ s.cmp.nextEmit = s.cmp.ip ∧ s.cmp.bs.toNat < s.cmp.ip.toNat ∧
    s.cmp.ip.toNat ≤ s.cmp.be.toNat
  | .cmp .tail => BlockInv s
  | _ => True

/-- The bytes of the input that the emitted elements cover, at each stage (R86 (d)). -/
def covered (s : State) : Nat :=
  match s.phase with
  | .cmp .extend => s.cmp.ip.toNat
  | .cmp .nextBlock => s.cmp.bs.toNat
  | _ => s.cmp.nextEmit.toNat

/-- The bytes R97 allows for the header, `covered` bytes of input and `blocks` tail literals. -/
def emittedBound (coveredBytes blocks : Nat) : Nat := 5 + coveredBytes + coveredBytes / 61 + 3 * blocks

/-- The output cursor stays within the bound of R97 at each stage; a literal just emitted before its copy may be one
byte ahead of it. The start check has granted the space (R128). -/
def OutputInv (s : State) : Prop :=
  match s.phase with
  | .cmp .startChecks => True
  | .cmp .header => lengthsFit s ∧ outBound s.inLen.toNat ≤ s.outCap.toNat
  | .cmp .nextBlock =>
    lengthsFit s ∧ outBound s.inLen.toNat ≤ s.outCap.toNat ∧
    s.cmp.op.toNat ≤ emittedBound (covered s) ((s.cmp.bs.toNat + 65535) / 65536)
  | .cmp .extend =>
    lengthsFit s ∧ outBound s.inLen.toNat ≤ s.outCap.toNat ∧
    s.cmp.op.toNat ≤ emittedBound (covered s) (s.cmp.bs.toNat / 65536) + 1
  | .cmp _ =>
    lengthsFit s ∧ outBound s.inLen.toNat ≤ s.outCap.toNat ∧
    s.cmp.op.toNat ≤ emittedBound (covered s) (s.cmp.bs.toNat / 65536)
  | _ => True

/-- The invariant of the machine: everything above, with OUT and HT listing nothing beyond their capacities (R23, R24,
R38). -/
def RunInv (s : State) : Prop :=
  Wf s ∧ ParserInv s ∧ CompressInv s ∧ OutputInv s ∧
  Table.below s.outMem s.platform.outSize.toNat ∧ Table.below s.ht 16384

/-- A run of the machine leads from `s` to `t` (R132): some number of steps, none of which stops. -/
def Runs (s t : State) : Prop := ∃ n, Host.Core.run Sys2Proof.core n s = .next t

/-- The engine is idle and the host has nothing pending. -/
def AtRest (s : State) : Prop := s.phase = .idle ∧ s.status.busy = false ∧ s.host = []

/-- Two compressor states that differ at most in HT outside the part the current block uses, and between blocks in
all of HT (R89, R98). -/
def SameButStaleHt (s t : State) : Prop :=
  t = { s with ht := t.ht } ∧
  match s.phase with
  | .cmp .probe | .cmp .accept | .cmp .extend | .cmp .adjacent =>
    ∀ i, i < 2 ^ s.cmp.bits.toNat → htEntry t i = htEntry s i
  | _ => True

end Sys2Proof.Machine
end

