-- ==== Sys2Proof/Certificates/Slice0/Obligations.lean ====
section
/-! DEFINITION. The statements for the provers, from the numbered rules of spec/. -/

open Sys2Proof Sys2Proof.Machine

/-! ## Encoding -/

/-- Decoding what the encoder writes gives the instruction back, whatever bytes follow: every form, every operand
value the encoding admits (30_encoding.md R48 to R54, R61). -/
def Obligations.DecodeOfEncode : Prop :=
  ∀ (i : Instr) (rest : List Byte), i.wellFormed = true →
    decode i.context (encode i ++ rest) = .ok (i, rest)

/-- Bytes that decode are the encoding of the instruction they decode to, which is well formed and of the asked
context: each byte string has one meaning (30_encoding.md R56, R58, R61). -/
def Obligations.EncodeOfDecode : Prop :=
  ∀ (ctx : Context) (bytes rest : List Byte) (i : Instr), decode ctx bytes = .ok (i, rest) →
    bytes = encode i ++ rest ∧ i.wellFormed = true ∧ i.context = ctx

/-- R56: every one of the 256 tag byte values selects exactly one form. -/
def Obligations.TagByteSelectsForm : Prop :=
  ∀ b : Nat → Byte,
    ((b 0).toNat % 4 = 1 ↔ ∃ f o, decodeElement b = .copy1 f o) ∧
    ((b 0).toNat % 4 = 2 ↔ ∃ f o, decodeElement b = .copy2 f o) ∧
    ((b 0).toNat % 4 = 3 ↔ ∃ f o, decodeElement b = .copy4 f o) ∧
    ((b 0).toNat = 0xF0 ↔ ∃ f, decodeElement b = .litX1 f) ∧
    ((b 0).toNat = 0xF4 ↔ ∃ f, decodeElement b = .litX2 f) ∧
    ((b 0).toNat = 0xF8 ↔ ∃ f, decodeElement b = .litX3 f) ∧
    ((b 0).toNat = 0xFC ↔ ∃ f, decodeElement b = .litX4 f) ∧
    (((b 0).toNat % 4 = 0 ∧ (b 0).toNat / 4 ≤ 59) ↔ ∃ f, decodeElement b = .lit f)

/-- R55: how each operand is formed from the tag and the bytes after it, little-endian, unsigned, exact, and how many
bytes stand between the tag and the payload. -/
def Obligations.OperandAssembly : Prop :=
  ∀ b : Nat → Byte,
    (∀ f o, decodeElement b = .copy1 f o →
      lenMinus4 f = (b 0).toNat / 4 % 8 + 4 ∧ o.toNat = (b 1).toNat + (b 0).toNat / 32 * 256) ∧
    (∀ f o, decodeElement b = .copy2 f o →
      lenMinus1 f = (b 0).toNat / 4 + 1 ∧ o.toNat = (b 1).toNat + (b 2).toNat * 2 ^ 8) ∧
    (∀ f o, decodeElement b = .copy4 f o →
      lenMinus1 f = (b 0).toNat / 4 + 1 ∧
      o.toNat = (b 1).toNat + (b 2).toNat * 2 ^ 8 + (b 3).toNat * 2 ^ 16 + (b 4).toNat * 2 ^ 24) ∧
    (∀ f, decodeElement b = .litX1 f → lenMinus1 f = (b 1).toNat + 1) ∧
    (∀ f, decodeElement b = .litX2 f → lenMinus1 f = (b 1).toNat + (b 2).toNat * 2 ^ 8 + 1) ∧
    (∀ f, decodeElement b = .litX3 f →
      lenMinus1 f = (b 1).toNat + (b 2).toNat * 2 ^ 8 + (b 3).toNat * 2 ^ 16 + 1) ∧
    (∀ f, decodeElement b = .litX4 f →
      lenMinus1 f = (b 1).toNat + (b 2).toNat * 2 ^ 8 + (b 3).toNat * 2 ^ 16 + (b 4).toNat * 2 ^ 24 + 1) ∧
    (∀ f, decodeElement b = .lit f → lenMinus1 f = (b 0).toNat / 4 + 1) ∧
    (decodeElement b).encodedBytes =
      1 + (if (b 0).toNat % 4 = 1 then 1 else if (b 0).toNat % 4 = 2 then 2 else if (b 0).toNat % 4 = 3 then 4
           else (b 0).toNat / 4 - 59)

/-- Words written out from the spec's tables decode to the instructions they stand for (R50 to R54, R48, R61 and the
examples of R116, R117, R118, R92). -/
def Obligations.SpecWordsDecode : Prop :=
  decode .element [0x25#8, 0x2C#8] = .ok (.copy1 1#3 300#11, []) ∧
  decode .element [0xFE#8, 0x01#8, 0x00#8] = .ok (.copy2 63#6 1#16, []) ∧
  decode .element [0x0F#8, 0x04#8, 0x00#8, 0x00#8, 0x00#8] = .ok (.copy4 3#6 4#32, []) ∧
  decode .element [0xF4#8, 0xFF#8, 0x00#8] = .ok (.litX2 255#16, []) ∧
  decode .element [0x0C#8, 0x61#8] = .ok (.lit 3#6, [0x61#8]) ∧
  decode .header [0xAC#8, 0x02#8] = .ok (.varintCont 0x2C#7, [0x02#8]) ∧
  decode .command [0x03#8, 0x00#8, 0x00#8, 0x00#8] = .ok (.cmdDecompress 0#30, [])

/-! ## Tag elements -/

/-- R115, R116 to R118: a copy whose checks pass completes. It repeats the last `offset` bytes of the output with
period `offset` for `len` bytes; its frame is in `CopyDone`. `pos < IN_LEN` is where the parser fetches a tag (R104). -/
def Obligations.CopyFormsComplete : Prop :=
  ∀ s : State, s.dec.pos.toNat < s.inLen.toNat →
    (∀ f o, copyVerdict 1 (f.toNat + 4) o.toNat s = none →
      ∃ t, exec (.copy1 f o) s = .next t ∧ CopyDone 1 (f.toNat + 4) o.toNat s t) ∧
    (∀ f o, copyVerdict 2 (f.toNat + 1) o.toNat s = none →
      ∃ t, exec (.copy2 f o) s = .next t ∧ CopyDone 2 (f.toNat + 1) o.toNat s t) ∧
    (∀ f o, copyVerdict 4 (f.toNat + 1) o.toNat s = none →
      ∃ t, exec (.copy4 f o) s = .next t ∧ CopyDone 4 (f.toNat + 1) o.toNat s t)

/-- R112, R113, R114, in the order of R121: a copy whose checks fail enters Failed with the first failing check's
code. -/
def Obligations.CopyFormsRaise : Prop :=
  ∀ (s : State) (e : ErrKind), s.dec.pos.toNat < s.inLen.toNat →
    (∀ f o, copyVerdict 1 (f.toNat + 4) o.toNat s = some e →
      ∃ t, exec (.copy1 f o) s = .next t ∧ FailedEntry e s t) ∧
    (∀ f o, copyVerdict 2 (f.toNat + 1) o.toNat s = some e →
      ∃ t, exec (.copy2 f o) s = .next t ∧ FailedEntry e s t) ∧
    (∀ f o, copyVerdict 4 (f.toNat + 1) o.toNat s = some e →
      ∃ t, exec (.copy4 f o) s = .next t ∧ FailedEntry e s t)

/-- R106, R107 to R111: a literal whose checks pass completes. Its payload stands in OUT at the old `outPos`; its
frame is in `LiteralDone`. That LIT leaves `k` as it was is the model's choice (log entry 29). -/
def Obligations.LiteralFormsComplete : Prop :=
  ∀ s : State, s.dec.pos.toNat < s.inLen.toNat →
    (∀ f : BitVec 6, literalVerdict 0 (f.toNat + 1) s = none →
      ∃ t, exec (.lit f) s = .next t ∧ LiteralDone 0 (f.toNat + 1) s t) ∧
    (∀ f : BitVec 8, literalVerdict 1 (f.toNat + 1) s = none →
      ∃ t, exec (.litX1 f) s = .next t ∧ LiteralDone 1 (f.toNat + 1) s t) ∧
    (∀ f : BitVec 16, literalVerdict 2 (f.toNat + 1) s = none →
      ∃ t, exec (.litX2 f) s = .next t ∧ LiteralDone 2 (f.toNat + 1) s t) ∧
    (∀ f : BitVec 24, literalVerdict 3 (f.toNat + 1) s = none →
      ∃ t, exec (.litX3 f) s = .next t ∧ LiteralDone 3 (f.toNat + 1) s t) ∧
    (∀ f : BitVec 32, literalVerdict 4 (f.toNat + 1) s = none →
      ∃ t, exec (.litX4 f) s = .next t ∧ LiteralDone 4 (f.toNat + 1) s t)

/-- R105, in the order of R121: a literal whose checks fail enters Failed with the first failing check's code; the
sums are exact, up to `len = 2^32`. -/
def Obligations.LiteralFormsRaise : Prop :=
  ∀ (s : State) (e : ErrKind), s.dec.pos.toNat < s.inLen.toNat →
    (∀ f : BitVec 6, literalVerdict 0 (f.toNat + 1) s = some e →
      ∃ t, exec (.lit f) s = .next t ∧ FailedEntry e s t) ∧
    (∀ f : BitVec 8, literalVerdict 1 (f.toNat + 1) s = some e →
      ∃ t, exec (.litX1 f) s = .next t ∧ FailedEntry e s t) ∧
    (∀ f : BitVec 16, literalVerdict 2 (f.toNat + 1) s = some e →
      ∃ t, exec (.litX2 f) s = .next t ∧ FailedEntry e s t) ∧
    (∀ f : BitVec 24, literalVerdict 3 (f.toNat + 1) s = some e →
      ∃ t, exec (.litX3 f) s = .next t ∧ FailedEntry e s t) ∧
    (∀ f : BitVec 32, literalVerdict 4 (f.toNat + 1) s = some e →
      ∃ t, exec (.litX4 f) s = .next t ∧ FailedEntry e s t)

/-! ## The varint header -/

/-- R67: a header byte with `C = 1` whose checks pass adds its group at `vshift` and moves both on; a byte with
`C = 0` ends the header with `L <- vres`, and when `L` fits OUT_CAP DecodeLoop starts with `outPos = 0` (R101). No
other state changes. -/
def Obligations.HeaderBytesComplete : Prop :=
  ∀ (s : State) (g : BitVec 7),
    s.dec.vshift.toNat < 32 → s.dec.pos.toNat < s.inLen.toNat → g.toNat * 2 ^ s.dec.vshift.toNat < 2 ^ 32 →
    (exec (.varintCont g) s = .next { s with dec := { s.dec with
        pos    := BitVec.ofNat 32 (s.dec.pos.toNat + 1)
        vres   := s.dec.vres ||| BitVec.ofNat 32 (g.toNat * 2 ^ s.dec.vshift.toNat)
        vshift := BitVec.ofNat 6 (s.dec.vshift.toNat + 7) } }) ∧
    ((s.dec.vres ||| BitVec.ofNat 32 (g.toNat * 2 ^ s.dec.vshift.toNat)).toNat ≤ s.outCap.toNat →
      exec (.varintLast g) s = .next { s with
        phase := .dcmp .decodeLoop
        dec := { s.dec with
          pos    := BitVec.ofNat 32 (s.dec.pos.toNat + 1)
          vres   := s.dec.vres ||| BitVec.ofNat 32 (g.toNat * 2 ^ s.dec.vshift.toNat)
          L      := s.dec.vres ||| BitVec.ofNat 32 (g.toNat * 2 ^ s.dec.vshift.toNat)
          outPos := 0 } })

/-- R67, R102: the three raises of `TruncatedHeader`, and `LengthExceedsCapacity` when the header ends with
`L > OUT_CAP`. OUT is unchanged after either (both kinds come before the first write). -/
def Obligations.HeaderBytesRaise : Prop :=
  ∀ (s : State) (g : BitVec 7),
    ((s.dec.vshift.toNat ≥ 32 ∨ s.dec.pos.toNat ≥ s.inLen.toNat ∨ g.toNat * 2 ^ s.dec.vshift.toNat ≥ 2 ^ 32) →
      (∃ t, exec (.varintCont g) s = .next t ∧ FailedEntry .truncatedHeader s t) ∧
      (∃ t, exec (.varintLast g) s = .next t ∧ FailedEntry .truncatedHeader s t)) ∧
    (s.dec.vshift.toNat < 32 → s.dec.pos.toNat < s.inLen.toNat → g.toNat * 2 ^ s.dec.vshift.toNat < 2 ^ 32 →
      (s.dec.vres ||| BitVec.ofNat 32 (g.toNat * 2 ^ s.dec.vshift.toNat)).toNat > s.outCap.toNat →
      ∃ t, exec (.varintLast g) s = .next t ∧ FailedEntry .lengthExceedsCapacity s t)

/-- R68: for the shifts 0, 7, 14 and 21 every group passes the round-trip check; for 28 exactly those up to 0x0F. -/
def Obligations.RoundTripCheck : Prop :=
  ∀ g : BitVec 7,
    groupFits g 0 = true ∧ groupFits g 7 = true ∧ groupFits g 14 = true ∧ groupFits g 21 = true ∧
    (groupFits g 28 = true ↔ g.toNat ≤ 0x0F)

/-- R65: the length of a varint by value, its continuation bits, and that it is canonical. -/
def Obligations.VarintShape : Prop :=
  ∀ v : Nat, v < 2 ^ 32 →
    (varintBytes v).length =
      (if v < 2 ^ 7 then 1 else if v < 2 ^ 14 then 2 else if v < 2 ^ 21 then 3 else if v < 2 ^ 28 then 4 else 5) ∧
    (∀ j, j + 1 < (varintBytes v).length → 0x80 ≤ (byteAt (varintBytes v) j).toNat) ∧
    (byteAt (varintBytes v) ((varintBytes v).length - 1)).toNat < 0x80 ∧
    (v ≠ 0 → (byteAt (varintBytes v) ((varintBytes v).length - 1)).toNat ≠ 0) ∧
    ((varintBytes v).length = 5 → (byteAt (varintBytes v) 4).toNat ≤ 0x0F)

/-- R64: VARINT_ENC writes the low 7 bits with the continuation bit while higher bits remain, at `op` and on, and
nothing else of OUT; `op` moves past them. -/
def Obligations.VarintEncoderWrites : Prop :=
  ∀ v : Nat, v < 2 ^ 32 →
    (v < 128 → (varintBytes v).map BitVec.toNat = [v]) ∧
    (128 ≤ v → (varintBytes v).map BitVec.toNat = (v % 128 + 128) :: (varintBytes (v / 128)).map BitVec.toNat) ∧
    (∀ s : State, s.cmp.op.toNat + 5 < 2 ^ 32 →
      (∀ j, j < (varintBytes v).length →
        outByte (emitBytes (varintBytes v) s) (s.cmp.op.toNat + j) = byteAt (varintBytes v) j) ∧
      (∀ a, (a < s.cmp.op.toNat ∨ s.cmp.op.toNat + (varintBytes v).length ≤ a) →
        outByte (emitBytes (varintBytes v) s) a = outByte s a) ∧
      (emitBytes (varintBytes v) s).cmp.op.toNat = s.cmp.op.toNat + (varintBytes v).length ∧
      emitBytes (varintBytes v) s = { s with
        outMem := (emitBytes (varintBytes v) s).outMem
        cmp := { s.cmp with op := (emitBytes (varintBytes v) s).cmp.op } })

/-- R70: the machine's decoder, run on the bytes the encoder writes for `v`, returns `v` and consumes exactly those
bytes: DecodeLoop starts at the byte after them. Where `v` does not fit OUT_CAP, the last byte's step raises
`LengthExceedsCapacity` instead (R102). That there is one step for each header byte is the model's choice (log entry
11). -/
def Obligations.VarintRoundTrip : Prop :=
  ∀ (s : State) (v : Nat), v < 2 ^ 32 →
    s.phase = .dcmp .readHeader → s.host = [] →
    s.dec.pos = 0 → s.dec.vres = 0 → s.dec.vshift = 0 →
    (varintBytes v).length ≤ s.inLen.toNat →
    (∀ j, j < (varintBytes v).length → inByte s j = byteAt (varintBytes v) j) →
    ∃ t, Host.Core.run Sys2Proof.core (varintBytes v).length s = .next t ∧
      (v ≤ s.outCap.toNat →
        t.phase = .dcmp .decodeLoop ∧ t.dec.L.toNat = v ∧ t.dec.pos.toNat = (varintBytes v).length ∧
        t.dec.outPos = 0 ∧ t = { s with phase := t.phase, dec := t.dec }) ∧
      (s.outCap.toNat < v → FailedEntry .lengthExceedsCapacity s t)

/-! ## CTRL writes and the start checks -/

/-- R127, R129, R130: a start is accepted while `BUSY = 0`, whatever the ignored bits; the start checks and the
operation are the engine's next steps (log entry 11). Two clauses are the model's choice: the field of OUT_LEN, which
R127 leaves unspecified until the operation ends, keeps its old value (log entry 6), and the record of what the host
has seen is cleared (log entry 30). -/
def Obligations.StartsAccepted : Prop :=
  ∀ (s : State) (r : BitVec 30), s.status.busy = false →
    exec (.cmdCompress r) s = .next { s with
      ctrlOp := false
      status := { busy := true, done := false, err := false, errCode := 0 }
      phase  := .cmp .startChecks
      resultSeen := false } ∧
    exec (.cmdDecompress r) s = .next { s with
      ctrlOp := true
      status := { busy := true, done := false, err := false, errCode := 0 }
      phase  := .dcmp .startChecks
      resultSeen := false }

/-- R126: a CTRL write with `w[0] = 0` stores `w[1]` in OP and changes nothing else, whatever the ignored bits. -/
def Obligations.SetopStoresOp : Prop :=
  (∀ (s : State) (op : Bool) (r : BitVec 30), s.status.busy = false →
    exec (.ctrlSetop op r) s = .next { s with ctrlOp := op }) ∧
  (∀ (s : State) (w : Word), s.status.busy = false → w.getLsbD 0 = false →
    exec (decodeCommand w) s = .next { s with ctrlOp := w.getLsbD 1 })

/-- R125: every CTRL write is ignored while `BUSY = 1`. -/
def Obligations.CtrlIgnoredWhileBusy : Prop :=
  ∀ (s : State) (w : Word), s.status.busy = true → exec (decodeCommand w) s = .next s

/-- R128, R136: the start checks in their order, for both operations. -/
def Obligations.StartChecksInOrder : Prop :=
  ∀ s : State,
    ((s.inLen.toNat > s.platform.inSize.toNat ∨ s.outCap.toNat > s.platform.outSize.toNat) →
      (s.phase = .cmp .startChecks ∨ s.phase = .dcmp .startChecks) →
      ∃ t, engineStep s = .next t ∧ FailedEntry .badConfig s t) ∧
    (s.inLen.toNat ≤ s.platform.inSize.toNat → s.outCap.toNat ≤ s.platform.outSize.toNat →
      (s.phase = .dcmp .startChecks →
        engineStep s = .next { s with
          phase := .dcmp .readHeader
          dec := { s.dec with pos := 0, vres := 0, vshift := 0 } }) ∧
      (s.phase = .cmp .startChecks → s.outCap.toNat < 32 + s.inLen.toNat + s.inLen.toNat / 6 →
        ∃ t, engineStep s = .next t ∧ FailedEntry .compressCapacity s t) ∧
      (s.phase = .cmp .startChecks → 32 + s.inLen.toNat + s.inLen.toNat / 6 ≤ s.outCap.toNat →
        engineStep s = .next { s with
          phase := .cmp .header
          cmp := { s.cmp with N := s.inLen, op := 0 } }))

/-! ## The host's accesses -/

/-- R124, R133: the value of every register read. A read changes nothing but what the host has read, the model's draw
counter when OUT_LEN is read while `BUSY = 1`, whose value is then unspecified (log entry 6), and the model's record
that the host has read STATUS with `BUSY = 0`. A read of OUT_LEN after an operation's end and before that is the move
R133 forbids, and is refused (log entry 30). -/
def Obligations.RegisterReads : Prop :=
  ∀ (s : State) (o : Nat), o < 32 → o % 4 = 0 →
    (o = 0x10 → s.status.busy = false → s.resultSeen = false →
      accessStep (.read (s.platform.regBase + o) 4) s =
        .refused (.resultBeforeStatus (s.platform.regBase + o))) ∧
    ((o = 0x10 → s.status.busy = true ∨ s.resultSeen = true) →
      ∃ t, accessStep (.read (s.platform.regBase + o) 4) s = .next t ∧
      t = { s with readData := t.readData, draws := t.draws, resultSeen := t.resultSeen } ∧
      (o = 0x00 → t.readData.toNat = 2 * s.ctrlOp.toNat) ∧
      (o = 0x04 → t.readData.toNat =
        s.status.busy.toNat + 2 * s.status.done.toNat + 4 * s.status.err.toNat + 16 * s.status.errCode.toNat) ∧
      (o = 0x08 → t.readData = s.inLen) ∧
      (o = 0x0C → t.readData = s.outCap) ∧
      (o = 0x10 → s.status.busy = false → t.readData = s.outLen) ∧
      (0x14 ≤ o → t.readData = 0) ∧
      ((o ≠ 0x10 ∨ s.status.busy = false) → t.draws = s.draws) ∧
      (o = 0x04 → s.status.busy = false → t.resultSeen = true) ∧
      ((o ≠ 0x04 ∨ s.status.busy = true) → t.resultSeen = s.resultSeen))

/-- R125: every register write, by the offset and BUSY. -/
def Obligations.RegisterWrites : Prop :=
  ∀ (s : State) (o : Nat) (w : Word), o < 32 → o % 4 = 0 →
    (s.status.busy = true → accessStep (.write (s.platform.regBase + o) 4 w) s = .next s) ∧
    (s.status.busy = false →
      (o = 0x00 → accessStep (.write (s.platform.regBase + o) 4 w) s = exec (decodeCommand w) s) ∧
      (o = 0x08 → accessStep (.write (s.platform.regBase + o) 4 w) s = .next { s with inLen := w }) ∧
      (o = 0x0C → accessStep (.write (s.platform.regBase + o) 4 w) s = .next { s with outCap := w }) ∧
      ((o = 0x04 ∨ 0x10 ≤ o) → accessStep (.write (s.platform.regBase + o) 4 w) s = .next s))

/-- R36, U12, U13, U14: the accesses the spec tells a model to refuse are refused, in the register block for their
width or alignment, in IN and OUT for their width or because `BUSY = 1`, and in OUT for a read before the host has read
STATUS with `BUSY = 0` (R133; log entry 30). That a wide access while `BUSY = 1` is refused for its width, the width
being checked first, is the model's deduction (log entry 14). -/
def Obligations.RefusedAccesses : Prop :=
  ∀ (s : State) (o a width : Nat) (w : Word), platformLegal s.platform →
    (o < 32 → (width ≠ 4 ∨ o % 4 ≠ 0) →
      accessStep (.read (s.platform.regBase + o) width) s = .refused (.regAccessOther o width) ∧
      accessStep (.write (s.platform.regBase + o) width w) s = .refused (.regAccessOther o width)) ∧
    (a < s.platform.inSize.toNat →
      (width ≠ 1 →
        accessStep (.read (s.platform.inBase + a) width) s = .refused (.memAccessWide (s.platform.inBase + a) width) ∧
        accessStep (.write (s.platform.inBase + a) width w) s =
          .refused (.memAccessWide (s.platform.inBase + a) width)) ∧
      (width = 1 → s.status.busy = true →
        accessStep (.read (s.platform.inBase + a) width) s = .refused (.memAccessWhileBusy (s.platform.inBase + a)) ∧
        accessStep (.write (s.platform.inBase + a) width w) s =
          .refused (.memAccessWhileBusy (s.platform.inBase + a)))) ∧
    (a < s.platform.outSize.toNat →
      (width ≠ 1 →
        accessStep (.read (s.platform.outBase + a) width) s =
          .refused (.memAccessWide (s.platform.outBase + a) width) ∧
        accessStep (.write (s.platform.outBase + a) width w) s =
          .refused (.memAccessWide (s.platform.outBase + a) width)) ∧
      (width = 1 → s.status.busy = true →
        accessStep (.read (s.platform.outBase + a) width) s =
          .refused (.memAccessWhileBusy (s.platform.outBase + a)) ∧
        accessStep (.write (s.platform.outBase + a) width w) s =
          .refused (.memAccessWhileBusy (s.platform.outBase + a))) ∧
      (width = 1 → s.status.busy = false → s.resultSeen = false →
        accessStep (.read (s.platform.outBase + a) width) s =
          .refused (.resultBeforeStatus (s.platform.outBase + a))))

/-- R36, R37, R133: while `BUSY = 0` a host byte write to IN changes that byte and no other, and host byte reads of
IN and OUT return the byte and change nothing else; OUT is read once the host has read STATUS with `BUSY = 0` (before
that: RefusedAccesses). That a host byte write to OUT changes that byte and no other is the model's deduction from R15
(log entry 16). -/
def Obligations.MemoryAccessesWhileIdle : Prop :=
  ∀ (s : State) (a : Nat) (w : Word), platformLegal s.platform → s.status.busy = false →
    (a < s.platform.inSize.toNat →
      (∃ t, accessStep (.write (s.platform.inBase + a) 1 w) s = .next t ∧
        (inByte t a).toNat = w.toNat % 256 ∧ (∀ x, x ≠ a → inByte t x = inByte s x) ∧
        t = { s with inMem := t.inMem }) ∧
      ∃ t, accessStep (.read (s.platform.inBase + a) 1) s = .next t ∧
        t.readData.toNat = (inByte s a).toNat ∧ t = { s with readData := t.readData }) ∧
    (a < s.platform.outSize.toNat →
      (∃ t, accessStep (.write (s.platform.outBase + a) 1 w) s = .next t ∧
        (outByte t a).toNat = w.toNat % 256 ∧ (∀ x, x ≠ a → outByte t x = outByte s x) ∧
        t = { s with outMem := t.outMem }) ∧
      (s.resultSeen = true →
        ∃ t, accessStep (.read (s.platform.outBase + a) 1) s = .next t ∧
          t.readData.toNat = (outByte s a).toNat ∧ t = { s with readData := t.readData }))

/-! ## One step -/

/-- A step runs the decoded instruction: the element or header byte at `pos`, or the host's CTRL write (R67, R103,
R61). A step adds nothing around exec but taking the host's action off its queue (log entry 9). -/
def Obligations.StepRunsDecoded : Prop :=
  (∀ (s : State) (i : Instr) (rest : List Byte), s.host = [] → s.phase = .dcmp .decodeLoop →
    decode .element (fetchWindow s) = .ok (i, rest) → step s = exec i s) ∧
  (∀ (s : State) (i : Instr) (rest : List Byte), s.host = [] → s.phase = .dcmp .readHeader →
    decode .header (fetchWindow s) = .ok (i, rest) → step s = exec i s) ∧
  (∀ (s : State) (i : Instr) (w : Word) (rest : List Byte) (later : List HostAction),
    s.host = .access (.write s.platform.regBase 4 w) :: later →
    decode .command (commandBytes w) = .ok (i, rest) → step s = exec i { s with host := later })

/-- R105 check 1, R112, R67 at the level of a step: when IN ends before the header byte or inside an element's
extension or operand bytes, the step enters Failed with the code of the form's input check. -/
def Obligations.TruncatedStreamRaises : Prop :=
  ∀ s : State, s.host = [] →
    (s.phase = .dcmp .readHeader → s.inLen.toNat ≤ s.dec.pos.toNat →
      ∃ t, step s = .next t ∧ FailedEntry .truncatedHeader s t) ∧
    (s.phase = .dcmp .decodeLoop → ∀ needed, decode .element (fetchWindow s) = .error (.truncatedOperand needed) →
      ∃ t, step s = .next t ∧
        FailedEntry (if (inByte s s.dec.pos.toNat).toNat % 4 = 0 then .truncatedLiteral else .truncatedCopyOperand)
          s t)

/-- R119: at the end of the stream DECOMPRESS ends in Done with `OUT_LEN = L` when the output is complete and
raises `OutputUnderrun` otherwise. -/
def Obligations.EndOfStream : Prop :=
  ∀ s : State, s.host = [] → s.phase = .dcmp .decodeLoop → s.dec.pos = s.inLen →
    (s.dec.outPos = s.dec.L → ∃ t, step s = .next t ∧ DoneEnd s.dec.L s t) ∧
    (s.dec.outPos.toNat < s.dec.L.toNat → ∃ t, step s = .next t ∧ FailedEntry .outputUnderrun s t)

/-- R146, R149, R140: with nothing pending and the engine IDLE a step changes nothing; the host's poll ends with
STATUS read once `BUSY = 0`. -/
def Obligations.IdleAndPoll : Prop :=
  (∀ s : State, s.host = [] → s.phase = .idle → step s = .next s) ∧
  (∀ (s : State) (later : List HostAction), s.host = .poll :: later → s.status.busy = false →
    ∃ t, step s = .next t ∧ t.readData.toNat =
        2 * s.status.done.toNat + 4 * s.status.err.toNat + 16 * s.status.errCode.toNat ∧
      t = { s with host := later, readData := t.readData, resultSeen := true })

/-- R147, R148: the values the spec gives for reset, at power-on and after an external reset at any time, which
abandons an operation under way. (The internal registers and the memories are unspecified there. That the platform and
the host's later actions are kept is the model's: log entry 22.) -/
def Obligations.ResetValues : Prop :=
  (State.reset.ctrlOp = false ∧ (statusWord State.reset.status).toNat = 0 ∧ State.reset.inLen = 0 ∧
    State.reset.outCap = 0 ∧ State.reset.outLen = 0 ∧ State.reset.phase = .idle ∧
    (∀ o, o < 32 → o % 4 = 0 → regValue State.reset o = 0)) ∧
  (∀ (s : State) (later : List HostAction), s.host = .reset :: later →
    ∃ t, step s = .next t ∧ t.ctrlOp = false ∧ (statusWord t.status).toNat = 0 ∧ t.inLen = 0 ∧ t.outCap = 0 ∧
      t.outLen = 0 ∧ t.phase = .idle ∧ (∀ o, o < 32 → o % 4 = 0 → regValue t o = 0) ∧
      t.platform = s.platform ∧ t.host = later)

/-! ## Rules of the whole machine -/

/-- R30: STATUS is written only by the acceptance of a start (a CTRL write with `w[0] = 1`, R127), by the end of an
operation in Done or in Failed, and by reset. -/
def Obligations.StatusWrittenOnlyBy : Prop :=
  ∀ s t : State, step s = .next t →
    t.status = s.status ∨
    (s.status.busy = false ∧ t.status = { busy := true, done := false, err := false, errCode := 0 } ∧
      ∃ a later w, s.host = .access a :: later ∧ ctrlWrite s.platform a = some w ∧ w.getLsbD 0 = true ∧
        t.ctrlOp = w.getLsbD 1 ∧ t.phase = (if w.getLsbD 1 then .dcmp .startChecks else .cmp .startChecks)) ∨
    (s.phase ≠ .idle ∧ t.phase = .idle ∧ t.status = { busy := false, done := true, err := false, errCode := 0 }) ∨
    (s.phase ≠ .idle ∧ t.phase = .idle ∧
      ∃ e : ErrKind, t.status = { busy := false, done := false, err := true, errCode := e.code }) ∨
    ((∃ later, s.host = .reset :: later) ∧ t.status = { busy := false, done := false, err := false, errCode := 0 })

/-- R135: whenever an engine step sets `ERR`, it performs the Failed entry for one of the nine kinds. -/
def Obligations.ErrOnlyByFailedEntry : Prop :=
  ∀ s t : State, engineStep s = .next t → s.status.err = false → t.status.err = true →
    ∃ e, FailedEntry e s t

/-- R137: Failed ends only when the host's next start is accepted, which begins the operation from its start
checks, or by reset. -/
def Obligations.LeavingFailed : Prop :=
  ∀ s t : State, Wf s → s.status.err = true → step s = .next t →
    t.status = s.status ∨
    (t.status = { busy := true, done := false, err := false, errCode := 0 } ∧
      ∃ a later w, s.host = .access a :: later ∧ ctrlWrite s.platform a = some w ∧ w.getLsbD 0 = true ∧
        t.phase = (if w.getLsbD 1 then .dcmp .startChecks else .cmp .startChecks)) ∨
    (t.status = State.reset.status ∧ ∃ later, s.host = .reset :: later)

/-- R129, R134: COMPRESS cannot fail after its start checks. -/
def Obligations.CompressNeverFails : Prop :=
  ∀ (s t : State) (stage : CmpStage), s.phase = .cmp stage → stage ≠ .startChecks → engineStep s = .next t →
    t.status = s.status ∨ t.status = { busy := false, done := true, err := false, errCode := 0 }

/-- R22, R45, R125: the engine never writes IN, nor a register of the host. -/
def Obligations.EngineLeavesHostState : Prop :=
  ∀ s t : State, engineStep s = .next t →
    t.inMem = s.inMem ∧ t.inLen = s.inLen ∧ t.outCap = s.outCap ∧ t.ctrlOp = s.ctrlOp ∧
    t.platform = s.platform ∧ t.host = s.host ∧ t.readData = s.readData ∧ t.resultSeen = s.resultSeen ∧
    t.epoch = s.epoch

/-- R125, R133, R156: while `BUSY = 1` nothing but a reset changes IN, IN_LEN, OUT_CAP or CTRL.OP. -/
def Obligations.RunningOperationShielded : Prop :=
  ∀ s t : State, s.status.busy = true → (∀ later, s.host ≠ .reset :: later) → step s = .next t →
    t.inMem = s.inMem ∧ t.inLen = s.inLen ∧ t.outCap = s.outCap ∧ t.ctrlOp = s.ctrlOp

/-- R99, R120, R157: DECOMPRESS never touches HT, and COMPRESS never touches the parser's registers before it ends. -/
def Obligations.UnitsStayApart : Prop :=
  (∀ (s t : State) (stage : DcmpStage), s.phase = .dcmp stage → engineStep s = .next t → t.ht = s.ht) ∧
  (∀ (s t : State) (stage : DcmpStage), s.phase = .dcmp stage → engineStep s = .next t → t.phase ≠ .idle →
    t.cmp = s.cmp) ∧
  (∀ (s t : State) (stage : CmpStage), s.phase = .cmp stage → engineStep s = .next t → t.phase ≠ .idle →
    t.dec = s.dec)

/-- R29, R67, R103: in DECOMPRESS every engine step after the start checks ends the operation or moves `pos` forward, and
`pos` never passes IN_LEN. -/
def Obligations.ParserAdvances : Prop :=
  ∀ s t : State, (s.phase = .dcmp .readHeader ∨ s.phase = .dcmp .decodeLoop) → engineStep s = .next t →
    t.phase = .idle ∨ (s.dec.pos.toNat < t.dec.pos.toNat ∧ t.dec.pos.toNat ≤ s.inLen.toNat)

/-- R29, R78, R79, R86: in a search `ip` only grows, strictly from probe to probe and by 4 at least in an extension. It
stays at or below `ipLimit` where IN is read at it, and at or below the block end, but for the last skip of a round,
which passes `ipLimit` by `skip >> 5` at most. There R78's pseudocode takes it past the block end, against R29's words,
and the model follows R78 (log entry 13). -/
def Obligations.ScanAdvances : Prop :=
  ∀ s t : State, CompressInv s → engineStep s = .next t →
    (s.phase = .cmp .probe ∨ s.phase = .cmp .accept ∨ s.phase = .cmp .extend ∨ s.phase = .cmp .adjacent) →
    s.cmp.ip.toNat ≤ t.cmp.ip.toNat ∧
    (t.phase = .cmp .probe → s.cmp.ip.toNat < t.cmp.ip.toNat) ∧
    (s.phase = .cmp .extend → s.cmp.ip.toNat + 4 ≤ t.cmp.ip.toNat) ∧
    ((t.phase = .cmp .accept ∨ t.phase = .cmp .extend) → t.cmp.ip.toNat ≤ s.cmp.ipLimit.toNat) ∧
    (s.phase ≠ .cmp .probe → t.cmp.ip.toNat ≤ s.cmp.be.toNat) ∧
    (s.phase = .cmp .probe → t.cmp.ip.toNat ≤ s.cmp.ipLimit.toNat + s.cmp.skip.toNat / 32)

/-! ## The tag encoder -/

/-- R90: EMIT_LITERAL writes the header of the form its length selects and then the payload, at `op` and on, and
nothing else of OUT; `op` moves past them and nothing else changes. -/
def Obligations.EmitLiteralWrites : Prop :=
  ∀ (s : State) (src len : Nat), 1 ≤ len → len ≤ 65536 → s.cmp.op.toNat + len + 3 < 2 ^ 32 →
    ∃ header : List Byte,
      (len ≤ 60 → header.map BitVec.toNat = [(len - 1) * 4]) ∧
      (60 < len → len < 256 → header.map BitVec.toNat = [0xF0, len - 1]) ∧
      (256 ≤ len → header.map BitVec.toNat = [0xF4, (len - 1) % 256, (len - 1) / 256]) ∧
      (∀ j, j < header.length → outByte (emitLiteral src len s) (s.cmp.op.toNat + j) = byteAt header j) ∧
      (∀ i, i < len →
        outByte (emitLiteral src len s) (s.cmp.op.toNat + header.length + i) = inByte s (src + i)) ∧
      (∀ a, (a < s.cmp.op.toNat ∨ s.cmp.op.toNat + header.length + len ≤ a) →
        outByte (emitLiteral src len s) a = outByte s a) ∧
      (emitLiteral src len s).cmp.op.toNat = s.cmp.op.toNat + header.length + len ∧
      emitLiteral src len s = { s with
        outMem := (emitLiteral src len s).outMem
        cmp := { s.cmp with op := (emitLiteral src len s).cmp.op } }

/-- R91: EMIT_COPY emits chunks of 64 while at least 68 bytes remain, then one of 60 when 65 to 67 remain, then the
rest; each is 4 to 64 bytes long, they add up to the length, and all carry the same offset. Their elements stand in
OUT at `op` and on, and nothing else changes. -/
def Obligations.EmitCopyWrites : Prop :=
  ∀ len : Nat, 4 ≤ len →
    (68 ≤ len → copyChunks len = 64 :: copyChunks (len - 64)) ∧
    (64 < len → len < 68 → copyChunks len = [60, len - 60]) ∧
    (len ≤ 64 → copyChunks len = [len]) ∧
    (copyChunks len).sum = len ∧ (∀ c ∈ copyChunks len, 4 ≤ c ∧ c ≤ 64) ∧
    ∀ (s : State) (offset : Nat), s.cmp.op.toNat + len < 2 ^ 32 →
      ∃ bytes : List Byte, bytes = ((copyChunks len).map (copyElementBytes offset)).flatten ∧
        (∀ j, j < bytes.length → outByte (emitCopy offset len s) (s.cmp.op.toNat + j) = byteAt bytes j) ∧
        (∀ a, (a < s.cmp.op.toNat ∨ s.cmp.op.toNat + bytes.length ≤ a) →
          outByte (emitCopy offset len s) a = outByte s a) ∧
        (emitCopy offset len s).cmp.op.toNat = s.cmp.op.toNat + bytes.length ∧
        emitCopy offset len s = { s with
          outMem := (emitCopy offset len s).outMem
          cmp := { s.cmp with op := (emitCopy offset len s).cmp.op } }

/-- R93: how many elements a copy takes, and that each is 2 or 3 bytes long. -/
def Obligations.CopyElementCount : Prop :=
  ∀ offset len : Nat, 4 ≤ len →
    (copyChunks len).length = (len - 4) / 64 + 1 + (if 64 < len - 64 * ((len - 4) / 64) then 1 else 0) ∧
    ((copyElementBytes offset len).length = 2 ∨ (copyElementBytes offset len).length = 3) ∧
    2 * (copyChunks len).length ≤ (copyBytes offset len).length ∧
    (copyBytes offset len).length ≤ 3 * (copyChunks len).length ∧
    (copyBytes offset len).length < len

/-- R94, R92, R63: every element the encoder writes decodes to the operation it intended, and is the encoding of the
pseudo-instruction's element. A copy element carries the offset and the length; a literal's header announces the
length; no other form is ever written. -/
def Obligations.EncoderElementsDecode : Prop :=
  (∀ (offset len : Nat) (rest : List Byte), 1 ≤ offset → offset ≤ 65521 → 4 ≤ len → len ≤ 64 →
    copyElementBytes offset len = encode (expandCopyElement offset len) ∧
    ((len < 12 ∧ offset < 2048 ∧ ∃ f o, decode .element (copyElementBytes offset len ++ rest) =
        .ok (.copy1 f o, rest) ∧ f.toNat + 4 = len ∧ o.toNat = offset) ∨
     (¬ (len < 12 ∧ offset < 2048) ∧ ∃ f o, decode .element (copyElementBytes offset len ++ rest) =
        .ok (.copy2 f o, rest) ∧ f.toNat + 1 = len ∧ o.toNat = offset))) ∧
  (∀ (len : Nat) (rest : List Byte), 1 ≤ len → len ≤ 65536 →
    literalHeader len = encode (expandLiteral len) ∧
    ((len ≤ 60 ∧ ∃ f, decode .element (literalHeader len ++ rest) = .ok (.lit f, rest) ∧ f.toNat + 1 = len) ∨
     (60 < len ∧ len < 256 ∧ ∃ f, decode .element (literalHeader len ++ rest) = .ok (.litX1 f, rest) ∧
        f.toNat + 1 = len) ∨
     (256 ≤ len ∧ ∃ f, decode .element (literalHeader len ++ rest) = .ok (.litX2 f, rest) ∧ f.toNat + 1 = len)))

/-! ## The match finder -/

/-- R72: the table size exponent is the largest `b` with `2^b <= S`, capped at 14 and never below 1. -/
def Obligations.TableSizing : Prop :=
  ∀ size : Nat, 1 ≤ size → tableBits size = max 1 (min 14 (Nat.log2 size))

/-- R74, R32: the fingerprint of four bytes in numbers: the little-endian load, times 0x1e35a7bd, modulo 2^32, its top
`bits` bits. -/
def Obligations.FingerprintValue : Prop :=
  ∀ (s : State) (a : Nat),
    fingerprint s a =
      (((inByte s a).toNat + (inByte s (a + 1)).toNat * 2 ^ 8 + (inByte s (a + 2)).toNat * 2 ^ 16 +
        (inByte s (a + 3)).toNat * 2 ^ 24) * 0x1e35a7bd % 2 ^ 32) / 2 ^ (32 - s.cmp.bits.toNat) ∧
    fingerprint s a < 2 ^ s.cmp.bits.toNat

/-- R73, R75, R76, R77, R96: what the start of a block does to HT and the registers. The margin
15 is a value the spec itself took from general knowledge (G1; log entry 23). -/
def Obligations.BlockStart : Prop :=
  ∀ s : State, s.phase = .cmp .nextBlock → s.cmp.bs.toNat < s.cmp.N.toNat →
    ∃ t, engineStep s = .next t ∧
      t.cmp.S.toNat = min 65536 (s.cmp.N.toNat - s.cmp.bs.toNat) ∧
      t.cmp.be.toNat = s.cmp.bs.toNat + t.cmp.S.toNat ∧
      t.cmp.bits.toNat = tableBits t.cmp.S.toNat ∧
      (∀ i, i < 2 ^ t.cmp.bits.toNat → htEntry t i = 0) ∧
      (∀ i, 2 ^ t.cmp.bits.toNat ≤ i → htEntry t i = htEntry s i) ∧
      t.cmp.nextEmit = s.cmp.bs ∧ t.cmp.bs = s.cmp.bs ∧ t.cmp.N = s.cmp.N ∧ t.cmp.op = s.cmp.op ∧
      (t.cmp.S.toNat < 15 → t.phase = .cmp .tail) ∧
      (15 ≤ t.cmp.S.toNat → t.phase = .cmp .probe ∧ t.cmp.ip.toNat = s.cmp.bs.toNat + 1 ∧
        t.cmp.ipLimit.toNat = t.cmp.be.toNat - 15 ∧ t.cmp.skip.toNat = 32) ∧
      t = { s with ht := t.ht, cmp := t.cmp, phase := t.phase }

/-- R78, R79, R152: one probe. Past the limit it goes to TAIL. Otherwise the old entry of the slot names the
candidate, the slot records `ip`, and either the match is accepted or `ip` moves on by `skip >> 5` and `skip` by 1.
Where the sum does not fit the 32 bits of `ip`, that the register holds the largest word is the model's choice (log
entry 13). Either value is past the limit. -/
def Obligations.ProbeStep : Prop :=
  ∀ s : State, CompressInv s → s.phase = .cmp .probe →
    (s.cmp.ip.toNat > s.cmp.ipLimit.toNat → engineStep s = .next { s with phase := .cmp .tail }) ∧
    (s.cmp.ip.toNat ≤ s.cmp.ipLimit.toNat →
      ∃ t, engineStep s = .next t ∧
        t.cmp.h.toNat = fingerprint s s.cmp.ip.toNat ∧
        t.cmp.cand.toNat = s.cmp.bs.toNat + (htEntry s (fingerprint s s.cmp.ip.toNat)).toNat ∧
        t.cmp.cand.toNat < s.cmp.ip.toNat ∧
        (htEntry t (fingerprint s s.cmp.ip.toNat)).toNat = s.cmp.ip.toNat - s.cmp.bs.toNat ∧
        (∀ i, i ≠ fingerprint s s.cmp.ip.toNat → htEntry t i = htEntry s i) ∧
        (eq32 s s.cmp.ip.toNat t.cmp.cand.toNat = true →
          t.phase = .cmp .accept ∧ t.cmp = { s.cmp with h := t.cmp.h, cand := t.cmp.cand }) ∧
        (eq32 s s.cmp.ip.toNat t.cmp.cand.toNat = false →
          t.phase = .cmp .probe ∧
          t.cmp.ip.toNat = min (s.cmp.ip.toNat + s.cmp.skip.toNat / 32) (2 ^ 32 - 1) ∧
          t.cmp.skip.toNat = s.cmp.skip.toNat + 1 ∧
          t.cmp = { s.cmp with h := t.cmp.h, cand := t.cmp.cand, ip := t.cmp.ip, skip := t.cmp.skip }) ∧
        t = { s with ht := t.ht, cmp := t.cmp, phase := t.phase })

/-- R81: EXTEND takes every byte that agrees, up to the first difference or the block's end. -/
def Obligations.ExtendIsMaximal : Prop :=
  ∀ s : State, MatchInv s →
    ∃ m : Nat, (extendMatch s).cmp.matched.toNat = m ∧ 4 ≤ m ∧
      (extendMatch s).cmp.base = s.cmp.ip ∧
      (extendMatch s).cmp.ip.toNat = s.cmp.ip.toNat + m ∧
      s.cmp.ip.toNat + m ≤ s.cmp.be.toNat ∧
      (∀ j, j < m → inByte s (s.cmp.ip.toNat + j) = inByte s (s.cmp.cand.toNat + j)) ∧
      (s.cmp.ip.toNat + m = s.cmp.be.toNat ∨
        inByte s (s.cmp.ip.toNat + m) ≠ inByte s (s.cmp.cand.toNat + m)) ∧
      extendMatch s = { s with cmp := { s.cmp with
        base := s.cmp.ip, matched := (extendMatch s).cmp.matched, ip := (extendMatch s).cmp.ip } }

/-- R83, R84, R153: the adjacent step. At the limit it goes to TAIL. Otherwise slot `FP(ip-1)` records `ip - 1` before
slot `FP(ip)` is read for the candidate and records `ip`, and either the match is extended or a new search round
starts at `ip + 1` with `skip = 32`. -/
def Obligations.AdjacentStep : Prop :=
  ∀ s : State, CompressInv s → s.phase = .cmp .adjacent →
    (s.cmp.ip.toNat ≥ s.cmp.ipLimit.toNat → engineStep s = .next { s with phase := .cmp .tail }) ∧
    (s.cmp.ip.toNat < s.cmp.ipLimit.toNat →
      ∃ t, engineStep s = .next t ∧
        t.cmp.h.toNat = fingerprint s s.cmp.ip.toNat ∧
        (htEntry t (fingerprint s s.cmp.ip.toNat)).toNat = s.cmp.ip.toNat - s.cmp.bs.toNat ∧
        (fingerprint s (s.cmp.ip.toNat - 1) ≠ fingerprint s s.cmp.ip.toNat →
          (htEntry t (fingerprint s (s.cmp.ip.toNat - 1))).toNat = s.cmp.ip.toNat - 1 - s.cmp.bs.toNat ∧
          t.cmp.cand.toNat = s.cmp.bs.toNat + (htEntry s (fingerprint s s.cmp.ip.toNat)).toNat) ∧
        (fingerprint s (s.cmp.ip.toNat - 1) = fingerprint s s.cmp.ip.toNat →
          t.cmp.cand.toNat = s.cmp.ip.toNat - 1) ∧
        (∀ i, i ≠ fingerprint s s.cmp.ip.toNat → i ≠ fingerprint s (s.cmp.ip.toNat - 1) →
          htEntry t i = htEntry s i) ∧
        (eq32 s s.cmp.ip.toNat t.cmp.cand.toNat = true →
          t.phase = .cmp .extend ∧ t.cmp = { s.cmp with h := t.cmp.h, cand := t.cmp.cand }) ∧
        (eq32 s s.cmp.ip.toNat t.cmp.cand.toNat = false →
          t.phase = .cmp .probe ∧ t.cmp.ip.toNat = s.cmp.ip.toNat + 1 ∧ t.cmp.skip.toNat = 32 ∧
          t.cmp = { s.cmp with h := t.cmp.h, cand := t.cmp.cand, ip := t.cmp.ip, skip := t.cmp.skip }) ∧
        t = { s with ht := t.ht, cmp := t.cmp, phase := t.phase })

/-- R80, R82, R85, R95: what the other stages of COMPRESS emit, through the tag encoder and the varint encoder, and
where they go next; at the end `OUT_LEN = op` and the operation is Done. -/
def Obligations.EmittingStages : Prop :=
  ∀ s : State,
    (s.phase = .cmp .header →
      ∃ t, engineStep s = .next t ∧ t.outMem = (emitBytes (varintBytes s.cmp.N.toNat) s).outMem ∧
        t.cmp = { s.cmp with op := (emitBytes (varintBytes s.cmp.N.toNat) s).cmp.op, bs := 0 } ∧
        t = { s with outMem := t.outMem, cmp := t.cmp, phase := .cmp .nextBlock }) ∧
    (s.phase = .cmp .accept →
      ∃ t u, engineStep s = .next t ∧
        u = emitLiteral s.cmp.nextEmit.toNat (s.cmp.ip.toNat - s.cmp.nextEmit.toNat) s ∧
        t.cmp = { s.cmp with op := u.cmp.op } ∧
        t = { s with outMem := u.outMem, cmp := t.cmp, phase := .cmp .extend }) ∧
    (s.phase = .cmp .extend →
      ∃ t u, engineStep s = .next t ∧
        u = emitCopy (s.cmp.ip.toNat - s.cmp.cand.toNat) (extendMatch s).cmp.matched.toNat s ∧
        t.cmp = { (extendMatch s).cmp with op := u.cmp.op, nextEmit := (extendMatch s).cmp.ip } ∧
        t = { s with outMem := u.outMem, cmp := t.cmp, phase := .cmp .adjacent }) ∧
    (s.phase = .cmp .tail →
      ∃ t u, engineStep s = .next t ∧
        (s.cmp.nextEmit.toNat < s.cmp.be.toNat →
          u = emitLiteral s.cmp.nextEmit.toNat (s.cmp.be.toNat - s.cmp.nextEmit.toNat) s) ∧
        (s.cmp.be.toNat ≤ s.cmp.nextEmit.toNat → u = s) ∧
        t.cmp = { s.cmp with op := u.cmp.op, bs := s.cmp.bs + s.cmp.S.setWidth 32 } ∧
        t = { s with outMem := u.outMem, cmp := t.cmp, phase := .cmp .nextBlock }) ∧
    (s.phase = .cmp .nextBlock → s.cmp.N.toNat ≤ s.cmp.bs.toNat →
      ∃ t, engineStep s = .next t ∧ DoneEnd s.cmp.op s t)

/-! ## Invariants of every step -/

/-- Every step keeps the legal STATUS, `BUSY = 1` exactly when not IDLE, the canonical memories, and IN inside its
capacity (R18, R26, R134, R22). -/
def Obligations.WfKept : Prop := ∀ s t : State, Wf s → step s = .next t → Wf t

/-- Every step keeps the parser's cursors in their bounds (R29, R67, R105, R114). -/
def Obligations.ParserInvKept : Prop :=
  ∀ s t : State, Wf s → ParserInv s → step s = .next t → ParserInv t

/-- Every step keeps the compressor's invariant: among others that every candidate lies in the block and below
`ip`, and that every stored offset is at most `S - 15` (R86, R87). -/
def Obligations.CompressInvKept : Prop :=
  ∀ s t : State, Wf s → CompressInv s → step s = .next t → CompressInv t

/-- Every step keeps the machine's whole invariant, the output bound of R97 and the capacities of OUT and HT included
(R23, R24, R38, R97). -/
def Obligations.RunInvKept : Prop := ∀ s t : State, RunInv s → step s = .next t → RunInv t

/-- The invariant holds at reset. The reset state's platform and internal registers are the model's choice (log entries
3 and 8). -/
def Obligations.RunInvAtReset : Prop := RunInv State.reset

/-- R97: COMPRESS writes at most `32 + N + floor(N/6)` bytes. -/
def Obligations.CompressedSizeBound : Prop :=
  ∀ (s t : State) (stage : CmpStage), RunInv s → s.phase = .cmp stage → engineStep s = .next t →
    t.status.done = true → t.outLen.toNat ≤ 32 + s.inLen.toNat + s.inLen.toNat / 6

/-- R38, R23: an engine step changes no byte of OUT at OUT_CAP or above. -/
def Obligations.EngineWritesBelowOutCap : Prop :=
  ∀ s t : State, RunInv s → engineStep s = .next t →
    ∀ a, s.outCap.toNat ≤ a → outByte t a = outByte s a

/-- R38, R22: an engine step depends on no byte of IN at IN_LEN or above: two states that agree below IN_LEN take
the same step. -/
def Obligations.EngineReadsBelowInLen : Prop :=
  ∀ (s t : State) (other : Memory), RunInv s →
    (∀ a, a < s.inLen.toNat → inByte { s with inMem := other } a = inByte s a) →
    engineStep s = .next t → engineStep { s with inMem := other } = .next { t with inMem := other }

/-- R89, R154: stale entries of HT never show: two compressor states that differ only in HT outside what the current
block uses take the same step, OUT included. -/
def Obligations.StaleHtNeverShows : Prop :=
  ∀ (s u t : State) (stage : CmpStage), s.phase = .cmp stage → CompressInv s → SameButStaleHt s u →
    engineStep s = .next t → ∃ v, engineStep u = .next v ∧ SameButStaleHt t v

/-- R132: an operation under way ends after finitely many engine steps, bounded by a function of IN_LEN. The
bound counts the model's own steps (log entry 11). -/
def Obligations.OperationsEnd : Prop :=
  ∀ s : State, RunInv s → s.host = [] → s.phase ≠ .idle →
    ∃ n t, n ≤ 4 * s.inLen.toNat + 4 ∧ Host.Core.run Sys2Proof.core n s = .next t ∧ t.phase = .idle

/-- R129, R131, R97, R99: COMPRESS is total. Started with lengths that pass its checks it ends in Done, with
`OUT_LEN <= OUT_BOUND(N)`, and the bytes of OUT at OUT_LEN and above keep their values. -/
def Obligations.CompressIsTotal : Prop :=
  ∀ (s : State) (r : BitVec 30), RunInv s → AtRest s →
    s.inLen.toNat ≤ s.platform.inSize.toNat → s.outCap.toNat ≤ s.platform.outSize.toNat →
    32 + s.inLen.toNat + s.inLen.toNat / 6 ≤ s.outCap.toNat →
    ∃ c d, exec (.cmdCompress r) s = .next c ∧ Runs c d ∧ d.phase = .idle ∧
      d.status = { busy := false, done := true, err := false, errCode := 0 } ∧
      d.outLen.toNat ≤ 32 + s.inLen.toNat + s.inLen.toNat / 6 ∧
      ∀ a, d.outLen.toNat ≤ a → outByte d a = outByte s a

/-- R100: a COMPRESS of `IN[0 .. N-1]` that has ended, followed by a DECOMPRESS of the OUT_LEN bytes it produced
(copied to IN, with `OUT_CAP >= N`), ends in Done with the input restored. -/
def Obligations.RoundTrip : Prop :=
  ∀ (s c d u : State) (r q : BitVec 30), Wf s → AtRest s →
    s.inLen.toNat ≤ s.platform.inSize.toNat → s.outCap.toNat ≤ s.platform.outSize.toNat →
    32 + s.inLen.toNat + s.inLen.toNat / 6 ≤ s.outCap.toNat →
    exec (.cmdCompress r) s = .next c → Runs c d → d.phase = .idle →
    Wf u → AtRest u → u.inLen = d.outLen → u.inLen.toNat ≤ u.platform.inSize.toNat →
    u.outCap.toNat ≤ u.platform.outSize.toNat → s.inLen.toNat ≤ u.outCap.toNat →
    (∀ a, a < d.outLen.toNat → inByte u a = outByte d a) →
    ∃ v w, exec (.cmdDecompress q) u = .next v ∧ Runs v w ∧
      w.status = { busy := false, done := true, err := false, errCode := 0 } ∧ w.outLen = s.inLen ∧
      ∀ a, a < s.inLen.toNat → outByte w a = inByte s a
end

