-- ==== Sys2Proof/Laws/Decode.lean ====
section
/-! SUPPORT. The laws of the decoder and the encoder that later proofs cite. -/

namespace Sys2Proof

/-- Every tag byte gives an element (R56, R58). -/
theorem decodeElement_context (b : Nat → Byte) : (decodeElement b).context = .element := by
  unfold decodeElement; dsimp only
  repeat' split
  all_goals rfl

/-- A header byte gives a header instruction (R48). -/
theorem decodeHeader_context (c : Byte) : (decodeHeader c).context = .header := by
  unfold decodeHeader; split <;> rfl

/-- A CTRL word gives a command (R61). -/
theorem decodeCommand_context (w : Word) : (decodeCommand w).context = .command := by
  unfold decodeCommand; dsimp only; repeat' split
  all_goals rfl

/-- The three forms of a CTRL word, by its bits `START` and `OP` (R61). -/
theorem decodeCommand_cases (w : Word) :
    (w.getLsbD 0 = true ∧ w.getLsbD 1 = false ∧ ∃ r, decodeCommand w = .cmdCompress r) ∨
    (w.getLsbD 0 = true ∧ w.getLsbD 1 = true ∧ ∃ r, decodeCommand w = .cmdDecompress r) ∨
    (w.getLsbD 0 = false ∧ ∃ r, decodeCommand w = .ctrlSetop (w.getLsbD 1) r) := by
  unfold decodeCommand
  cases w.getLsbD 0 <;> cases w.getLsbD 1 <;> simp

/-- The two forms of a header byte (R48). -/
theorem decodeHeader_cases (c : Byte) :
    (∃ g, decodeHeader c = .varintCont g) ∨ ∃ g, decodeHeader c = .varintLast g := by
  unfold decodeHeader; split
  · exact .inl ⟨_, rfl⟩
  · exact .inr ⟨_, rfl⟩

/-- A short literal's tag has the field 60..63 only when it is a tag of LIT_X1..LIT_X4 (R56). -/
theorem tag_long_literal (tag : Byte) (h : tag.extractLsb' 0 2 = 0#2) (hf : 60 ≤ (tag.extractLsb' 2 6).toNat) :
    tag = 0xF0#8 ∨ tag = 0xF4#8 ∨ tag = 0xF8#8 ∨ tag = 0xFC#8 := by
  revert tag; decide

end Sys2Proof
end

