-- ==== Sys2Proof/Laws/Memory.lean ====
section
/-! SUPPORT. The laws of tables and memories: a read after a write, the canonical form kept by every operation, and
what the two byte movers leave in OUT. -/

namespace Sys2Proof.Machine

/-! ## Reading after writing -/

@[simp] theorem Table.lookup_nil {α : Type} (a : Nat) : Table.lookup ([] : Table α) a = none := rfl

theorem Table.lookup_cons {α : Type} (b : Nat) (w : α) (m : Table α) (a : Nat) :
    Table.lookup ((b, w) :: m) a = if a = b then some w else Table.lookup m a := rfl

theorem Table.lookup_write {α : Type} (m : Table α) (a b : Nat) (v : α) :
    Table.lookup (Table.write m a v) b = if b = a then some v else Table.lookup m b := by
  induction m with
  | nil => simp [Table.write, Table.lookup_cons]
  | cons c m ih =>
    obtain ⟨x, w⟩ := c
    simp only [Table.write]
    split
    · simp [Table.lookup_cons]
    · split
      · next h => subst h; by_cases hb : b = a <;> simp [Table.lookup_cons, hb]
      · next h =>
        simp only [Table.lookup_cons, ih]
        by_cases hb : b = a
        · subst hb; simp [h]
        · simp [hb]

@[simp] theorem Table.lookup_write_same {α : Type} (m : Table α) (a : Nat) (v : α) :
    Table.lookup (Table.write m a v) a = some v := by simp [Table.lookup_write]

theorem Table.lookup_write_other {α : Type} (m : Table α) {a b : Nat} (v : α) (h : b ≠ a) :
    Table.lookup (Table.write m a v) b = Table.lookup m b := by simp [Table.lookup_write, h]

theorem Table.lookup_append {α : Type} (m k : Table α) (i : Nat) :
    Table.lookup (m ++ k) i = (Table.lookup m i).or (Table.lookup k i) := by
  induction m with
  | nil => simp
  | cons c m ih =>
    obtain ⟨x, w⟩ := c
    simp only [List.cons_append, Table.lookup_cons, ih]
    split <;> simp

theorem Table.lookup_filter_ge {α : Type} (m : Table α) (n i : Nat) :
    Table.lookup (m.filter (fun c => decide (n ≤ c.1))) i = if n ≤ i then Table.lookup m i else none := by
  induction m with
  | nil => simp
  | cons c m ih =>
    obtain ⟨x, w⟩ := c
    by_cases hx : n ≤ x
    · rw [List.filter_cons_of_pos (by simpa using hx)]
      simp only [Table.lookup_cons, ih]
      by_cases hi : i = x
      · subst hi; simp [hx]
      · simp [hi]
    · rw [List.filter_cons_of_neg (by simpa using hx), ih]
      by_cases hi : i = x
      · subst hi; simp [hx]
      · simp [Table.lookup_cons, hi]

theorem Table.lookup_map_range {α : Type} (f : Nat → α) (n i : Nat) :
    Table.lookup ((List.range n).map (fun j => (j, f j))) i = if i < n then some (f i) else none := by
  induction n with
  | zero => simp
  | succ n ih =>
    rw [List.range_succ, List.map_append, Table.lookup_append, ih]
    simp only [List.map_cons, List.map_nil, Table.lookup_cons, Table.lookup_nil]
    by_cases h : i < n
    · simp [h, Nat.lt_succ_of_lt h]
    · by_cases h' : i = n
      · subst h'; simp
      · have : ¬ i < n + 1 := by omega
        simp [h, h', this]

theorem Table.lookup_fill {α : Type} (m : Table α) (n : Nat) (f : Nat → α) (i : Nat) :
    Table.lookup (Table.fill m n f) i = if i < n then some (f i) else Table.lookup m i := by
  simp only [Table.fill, Table.lookup_append, Table.lookup_map_range, Table.lookup_filter_ge]
  by_cases h : i < n
  · simp [h]
  · simp [h, Nat.le_of_not_lt h]

/-! ## The canonical form -/

theorem Table.mem_write {α : Type} {m : Table α} {a : Nat} {v : α} {c : Nat × α} (h : c ∈ Table.write m a v) :
    c = (a, v) ∨ c ∈ m := by
  induction m with
  | nil => simpa [Table.write] using h
  | cons d m ih =>
    obtain ⟨x, w⟩ := d
    simp only [Table.write] at h
    split at h
    · simpa using h
    · split at h
      · rcases List.mem_cons.1 h with h | h
        · exact .inl h
        · exact .inr (List.mem_cons_of_mem _ h)
      · rcases List.mem_cons.1 h with h | h
        · exact .inr (by simp [h])
        · rcases ih h with h | h
          · exact .inl h
          · exact .inr (List.mem_cons_of_mem _ h)

theorem Table.wf_nil {α : Type} : Table.wf ([] : Table α) := List.Pairwise.nil

theorem Table.wf_write {α : Type} {m : Table α} (h : Table.wf m) (a : Nat) (v : α) :
    Table.wf (Table.write m a v) := by
  induction m with
  | nil => simp [Table.write, Table.wf]
  | cons d m ih =>
    obtain ⟨x, w⟩ := d
    obtain ⟨hx, hm⟩ := List.pairwise_cons.1 h
    simp only [Table.write]
    split
    · next hlt =>
      refine List.pairwise_cons.2 ⟨fun c hc => ?_, h⟩
      rcases List.mem_cons.1 hc with rfl | hc
      · exact hlt
      · exact Nat.lt_trans hlt (hx c hc)
    · split
      · next heq => subst heq; exact List.pairwise_cons.2 ⟨hx, hm⟩
      · next h1 h2 =>
        refine List.pairwise_cons.2 ⟨fun c hc => ?_, ih hm⟩
        rcases Table.mem_write hc with rfl | hc
        · show x < a; omega
        · exact hx c hc

theorem Table.wf_fill {α : Type} {m : Table α} (h : Table.wf m) (n : Nat) (f : Nat → α) :
    Table.wf (Table.fill m n f) := by
  refine List.pairwise_append.2 ⟨?_, List.Pairwise.filter _ h, ?_⟩
  · rw [List.pairwise_map]
    exact List.pairwise_lt_range
  · intro x hx y hy
    obtain ⟨j, hj, rfl⟩ := List.mem_map.1 hx
    have := List.mem_range.1 hj
    have := of_decide_eq_true (List.mem_filter.1 hy).2
    show j < y.1; omega

theorem Memory.wf_write {m : Memory} (h : Memory.wf m) (a : Nat) (v : Byte) : Memory.wf (Table.write m a v) :=
  Table.wf_write h a v

theorem Memory.wf_moveBytes (source : Nat → Byte) (n : Nat) :
    ∀ (src dst : Nat) {m : Memory}, Memory.wf m → Memory.wf (moveBytes source src dst n m) := by
  induction n with
  | zero => exact fun _ _ _ h => h
  | succ n ih => exact fun src dst _ h => ih _ _ (Table.wf_write h _ _)

theorem Memory.wf_selfCopy (epoch offset : Nat) (n : Nat) :
    ∀ (dst : Nat) {m : Memory}, Memory.wf m → Memory.wf (selfCopy epoch offset dst n m) := by
  induction n with
  | zero => exact fun _ _ h => h
  | succ n ih => exact fun dst _ h => ih _ (Table.wf_write h _ _)

theorem Memory.wf_outAfterFailure (e : ErrKind) {s : State} (h : Memory.wf s.outMem) :
    Memory.wf (outAfterFailure e s) := by
  unfold outAfterFailure
  split
  · exact Table.wf_fill h _ _
  · exact h

theorem Memory.wf_emitBytes (bytes : List Byte) :
    ∀ {s : State}, Memory.wf s.outMem → Memory.wf (emitBytes bytes s).outMem := by
  induction bytes with
  | nil => exact fun h => h
  | cons b bytes ih => exact fun h => ih (Table.wf_write h _ _)

/-! ## What the byte movers leave in OUT -/

theorem outByteOf_write (epoch : Nat) (m : Memory) (a x : Nat) (v : Byte) :
    outByteOf epoch (Table.write m a v) x = if x = a then v else outByteOf epoch m x := by
  simp only [outByteOf, Table.lookup_write]
  split <;> rfl

theorem outByteOf_fill (epoch : Nat) (m : Memory) (n : Nat) (f : Nat → Byte) (x : Nat) :
    outByteOf epoch (Table.fill m n f) x = if x < n then f x else outByteOf epoch m x := by
  simp only [outByteOf, Table.lookup_fill]
  split <;> rfl

/-- A literal move (R106) leaves the source's bytes in its range and every other byte as it was. -/
theorem outByteOf_moveBytes (epoch : Nat) (source : Nat → Byte) (n : Nat) :
    ∀ (src dst : Nat) (m : Memory) (x : Nat),
      outByteOf epoch (moveBytes source src dst n m) x =
        if dst ≤ x ∧ x < dst + n then source (src + (x - dst)) else outByteOf epoch m x := by
  induction n with
  | zero =>
    intro src dst m x
    rw [moveBytes, if_neg (by omega)]
  | succ n ih =>
    intro src dst m x
    simp only [moveBytes, ih, outByteOf_write]
    by_cases hx : x = dst
    · subst hx
      rw [if_neg (by omega), if_pos rfl, if_pos (by omega), Nat.sub_self, Nat.add_zero]
    · by_cases hr : dst + 1 ≤ x ∧ x < dst + 1 + n
      · rw [if_pos hr, if_pos (by omega), show src + 1 + (x - (dst + 1)) = src + (x - dst) by omega]
      · rw [if_neg hr, if_neg hx, if_neg (by omega)]

/-- The self-copy (R115) does not change a byte outside its range. -/
theorem outByteOf_selfCopy_other (epoch offset : Nat) (n : Nat) :
    ∀ (dst : Nat) (m : Memory) (x : Nat), (x < dst ∨ dst + n ≤ x) →
      outByteOf epoch (selfCopy epoch offset dst n m) x = outByteOf epoch m x := by
  induction n with
  | zero => exact fun _ _ _ _ => rfl
  | succ n ih =>
    intro dst m x hx
    simp only [selfCopy]
    rw [ih _ _ _ (by omega), outByteOf_write, if_neg (by omega)]

/-- The byte a self-copy writes at `dst + i` is the byte it leaves `offset` below (R115): each read sees the writes
before it (R151). -/
theorem outByteOf_selfCopy_back (epoch offset : Nat) (h0 : 0 < offset) (n : Nat) :
    ∀ (dst : Nat) (m : Memory) (i : Nat), offset ≤ dst → i < n →
      outByteOf epoch (selfCopy epoch offset dst n m) (dst + i) =
        outByteOf epoch (selfCopy epoch offset dst n m) (dst + i - offset) := by
  induction n with
  | zero => intro dst m i _ hi; omega
  | succ n ih =>
    intro dst m i hd hi
    simp only [selfCopy]
    cases i with
    | zero =>
      have hlow : dst + 0 - offset = dst - offset := by omega
      rw [outByteOf_selfCopy_other _ _ _ _ _ (dst + 0) (by omega), hlow,
        outByteOf_selfCopy_other _ _ _ _ _ (dst - offset) (by omega), outByteOf_write, outByteOf_write,
        if_pos (by omega), if_neg (by omega)]
    | succ i =>
      have := ih (dst + 1) (Table.write m dst (outByteOf epoch m (dst - offset))) i (by omega) (by omega)
      rwa [show dst + 1 + i = dst + (i + 1) by omega] at this

/-- The bytes a self-copy leaves in its range (R115): the last `offset` bytes before it, repeated with period
`offset`. -/
theorem outByteOf_selfCopy_range (epoch offset dst n : Nat) (m : Memory) (h0 : 0 < offset) (hd : offset ≤ dst)
    (i : Nat) (hi : i < n) :
    outByteOf epoch (selfCopy epoch offset dst n m) (dst + i) = outByteOf epoch m (dst - offset + i % offset) := by
  induction i using Nat.strongRecOn with
  | _ i ih =>
    rw [outByteOf_selfCopy_back epoch offset h0 n dst m i hd hi]
    by_cases h : i < offset
    · rw [outByteOf_selfCopy_other _ _ _ _ _ _ (by omega), Nat.mod_eq_of_lt h,
        show dst + i - offset = dst - offset + i by omega]
    · rw [show dst + i - offset = dst + (i - offset) by omega, ih (i - offset) (by omega) (by omega),
        Nat.mod_eq_sub_mod (by omega : offset ≤ i)]

end Sys2Proof.Machine
end

