-- ==== Sys2Proof/Laws/State.lean ====
section
/-! SUPPORT. One lemma for each field and each named update of the state, true by rfl, so that no proof unfolds a
record update. -/

namespace Sys2Proof.Machine

/-! ## raise -/

@[simp] theorem raise_ctrlOp (e : ErrKind) (s : State) : (raise e s).ctrlOp = s.ctrlOp := rfl

@[simp] theorem raise_status (e : ErrKind) (s : State) : (raise e s).status = statusFailed e := rfl

@[simp] theorem raise_inLen (e : ErrKind) (s : State) : (raise e s).inLen = s.inLen := rfl

@[simp] theorem raise_outCap (e : ErrKind) (s : State) : (raise e s).outCap = s.outCap := rfl

@[simp] theorem raise_outLen (e : ErrKind) (s : State) : (raise e s).outLen = 0 := rfl

@[simp] theorem raise_inMem (e : ErrKind) (s : State) : (raise e s).inMem = s.inMem := rfl

@[simp] theorem raise_outMem (e : ErrKind) (s : State) : (raise e s).outMem = outAfterFailure e s := rfl

@[simp] theorem raise_ht (e : ErrKind) (s : State) : (raise e s).ht = s.ht := rfl

@[simp] theorem raise_phase (e : ErrKind) (s : State) : (raise e s).phase = .idle := rfl

@[simp] theorem raise_cmp (e : ErrKind) (s : State) : (raise e s).cmp = CmpRegs.free s.draws := rfl

@[simp] theorem raise_dec (e : ErrKind) (s : State) : (raise e s).dec = DecRegs.free s.draws := rfl

@[simp] theorem raise_platform (e : ErrKind) (s : State) : (raise e s).platform = s.platform := rfl

@[simp] theorem raise_host (e : ErrKind) (s : State) : (raise e s).host = s.host := rfl

@[simp] theorem raise_readData (e : ErrKind) (s : State) : (raise e s).readData = s.readData := rfl

@[simp] theorem raise_draws (e : ErrKind) (s : State) : (raise e s).draws = s.draws + 1 := rfl

@[simp] theorem raise_resultSeen (e : ErrKind) (s : State) : (raise e s).resultSeen = s.resultSeen := rfl

@[simp] theorem raise_epoch (e : ErrKind) (s : State) : (raise e s).epoch = s.epoch := rfl

/-! ## endDone -/

@[simp] theorem endDone_ctrlOp (s : State) : (endDone s).ctrlOp = s.ctrlOp := rfl

@[simp] theorem endDone_status (s : State) : (endDone s).status = statusDone := rfl

@[simp] theorem endDone_inLen (s : State) : (endDone s).inLen = s.inLen := rfl

@[simp] theorem endDone_outCap (s : State) : (endDone s).outCap = s.outCap := rfl

@[simp] theorem endDone_outLen (s : State) : (endDone s).outLen = s.outLen := rfl

@[simp] theorem endDone_inMem (s : State) : (endDone s).inMem = s.inMem := rfl

@[simp] theorem endDone_outMem (s : State) : (endDone s).outMem = s.outMem := rfl

@[simp] theorem endDone_ht (s : State) : (endDone s).ht = s.ht := rfl

@[simp] theorem endDone_phase (s : State) : (endDone s).phase = .idle := rfl

@[simp] theorem endDone_cmp (s : State) : (endDone s).cmp = CmpRegs.free s.draws := rfl

@[simp] theorem endDone_dec (s : State) : (endDone s).dec = DecRegs.free s.draws := rfl

@[simp] theorem endDone_platform (s : State) : (endDone s).platform = s.platform := rfl

@[simp] theorem endDone_host (s : State) : (endDone s).host = s.host := rfl

@[simp] theorem endDone_readData (s : State) : (endDone s).readData = s.readData := rfl

@[simp] theorem endDone_draws (s : State) : (endDone s).draws = s.draws + 1 := rfl

@[simp] theorem endDone_resultSeen (s : State) : (endDone s).resultSeen = s.resultSeen := rfl

@[simp] theorem endDone_epoch (s : State) : (endDone s).epoch = s.epoch := rfl

/-! ## acceptStart -/

@[simp] theorem acceptStart_ctrlOp (op : Bool) (s : State) : (acceptStart op s).ctrlOp = op := rfl

@[simp] theorem acceptStart_status (op : Bool) (s : State) : (acceptStart op s).status = statusAccepted := rfl

@[simp] theorem acceptStart_inLen (op : Bool) (s : State) : (acceptStart op s).inLen = s.inLen := rfl

@[simp] theorem acceptStart_outCap (op : Bool) (s : State) : (acceptStart op s).outCap = s.outCap := rfl

@[simp] theorem acceptStart_outLen (op : Bool) (s : State) : (acceptStart op s).outLen = s.outLen := rfl

@[simp] theorem acceptStart_inMem (op : Bool) (s : State) : (acceptStart op s).inMem = s.inMem := rfl

@[simp] theorem acceptStart_outMem (op : Bool) (s : State) : (acceptStart op s).outMem = s.outMem := rfl

@[simp] theorem acceptStart_ht (op : Bool) (s : State) : (acceptStart op s).ht = s.ht := rfl

@[simp] theorem acceptStart_phase (op : Bool) (s : State) :
    (acceptStart op s).phase = if op then .dcmp .startChecks else .cmp .startChecks := rfl

@[simp] theorem acceptStart_cmp (op : Bool) (s : State) : (acceptStart op s).cmp = s.cmp := rfl

@[simp] theorem acceptStart_dec (op : Bool) (s : State) : (acceptStart op s).dec = s.dec := rfl

@[simp] theorem acceptStart_platform (op : Bool) (s : State) : (acceptStart op s).platform = s.platform := rfl

@[simp] theorem acceptStart_host (op : Bool) (s : State) : (acceptStart op s).host = s.host := rfl

@[simp] theorem acceptStart_readData (op : Bool) (s : State) : (acceptStart op s).readData = s.readData := rfl

@[simp] theorem acceptStart_draws (op : Bool) (s : State) : (acceptStart op s).draws = s.draws := rfl

@[simp] theorem acceptStart_resultSeen (op : Bool) (s : State) : (acceptStart op s).resultSeen = false := rfl

@[simp] theorem acceptStart_epoch (op : Bool) (s : State) : (acceptStart op s).epoch = s.epoch := rfl

/-! ## writeOut -/

@[simp] theorem writeOut_ctrlOp (s : State) (a : Nat) (v : Byte) : (writeOut s a v).ctrlOp = s.ctrlOp := rfl

@[simp] theorem writeOut_status (s : State) (a : Nat) (v : Byte) : (writeOut s a v).status = s.status := rfl

@[simp] theorem writeOut_inLen (s : State) (a : Nat) (v : Byte) : (writeOut s a v).inLen = s.inLen := rfl

@[simp] theorem writeOut_outCap (s : State) (a : Nat) (v : Byte) : (writeOut s a v).outCap = s.outCap := rfl

@[simp] theorem writeOut_outLen (s : State) (a : Nat) (v : Byte) : (writeOut s a v).outLen = s.outLen := rfl

@[simp] theorem writeOut_inMem (s : State) (a : Nat) (v : Byte) : (writeOut s a v).inMem = s.inMem := rfl

@[simp] theorem writeOut_outMem (s : State) (a : Nat) (v : Byte) :
    (writeOut s a v).outMem = Table.write s.outMem a v := rfl

@[simp] theorem writeOut_ht (s : State) (a : Nat) (v : Byte) : (writeOut s a v).ht = s.ht := rfl

@[simp] theorem writeOut_phase (s : State) (a : Nat) (v : Byte) : (writeOut s a v).phase = s.phase := rfl

@[simp] theorem writeOut_cmp (s : State) (a : Nat) (v : Byte) : (writeOut s a v).cmp = s.cmp := rfl

@[simp] theorem writeOut_dec (s : State) (a : Nat) (v : Byte) : (writeOut s a v).dec = s.dec := rfl

@[simp] theorem writeOut_platform (s : State) (a : Nat) (v : Byte) : (writeOut s a v).platform = s.platform := rfl

@[simp] theorem writeOut_host (s : State) (a : Nat) (v : Byte) : (writeOut s a v).host = s.host := rfl

@[simp] theorem writeOut_readData (s : State) (a : Nat) (v : Byte) : (writeOut s a v).readData = s.readData := rfl

@[simp] theorem writeOut_draws (s : State) (a : Nat) (v : Byte) : (writeOut s a v).draws = s.draws := rfl

@[simp] theorem writeOut_resultSeen (s : State) (a : Nat) (v : Byte) : (writeOut s a v).resultSeen = s.resultSeen := rfl

@[simp] theorem writeOut_epoch (s : State) (a : Nat) (v : Byte) : (writeOut s a v).epoch = s.epoch := rfl

/-! ## writeHt -/

@[simp] theorem writeHt_ctrlOp (s : State) (i v : Nat) : (writeHt s i v).ctrlOp = s.ctrlOp := rfl

@[simp] theorem writeHt_status (s : State) (i v : Nat) : (writeHt s i v).status = s.status := rfl

@[simp] theorem writeHt_inLen (s : State) (i v : Nat) : (writeHt s i v).inLen = s.inLen := rfl

@[simp] theorem writeHt_outCap (s : State) (i v : Nat) : (writeHt s i v).outCap = s.outCap := rfl

@[simp] theorem writeHt_outLen (s : State) (i v : Nat) : (writeHt s i v).outLen = s.outLen := rfl

@[simp] theorem writeHt_inMem (s : State) (i v : Nat) : (writeHt s i v).inMem = s.inMem := rfl

@[simp] theorem writeHt_outMem (s : State) (i v : Nat) : (writeHt s i v).outMem = s.outMem := rfl

@[simp] theorem writeHt_ht (s : State) (i v : Nat) :
    (writeHt s i v).ht = Table.write s.ht i (BitVec.ofNat 16 v) := rfl

@[simp] theorem writeHt_phase (s : State) (i v : Nat) : (writeHt s i v).phase = s.phase := rfl

@[simp] theorem writeHt_cmp (s : State) (i v : Nat) : (writeHt s i v).cmp = s.cmp := rfl

@[simp] theorem writeHt_dec (s : State) (i v : Nat) : (writeHt s i v).dec = s.dec := rfl

@[simp] theorem writeHt_platform (s : State) (i v : Nat) : (writeHt s i v).platform = s.platform := rfl

@[simp] theorem writeHt_host (s : State) (i v : Nat) : (writeHt s i v).host = s.host := rfl

@[simp] theorem writeHt_readData (s : State) (i v : Nat) : (writeHt s i v).readData = s.readData := rfl

@[simp] theorem writeHt_draws (s : State) (i v : Nat) : (writeHt s i v).draws = s.draws := rfl

@[simp] theorem writeHt_resultSeen (s : State) (i v : Nat) : (writeHt s i v).resultSeen = s.resultSeen := rfl

@[simp] theorem writeHt_epoch (s : State) (i v : Nat) : (writeHt s i v).epoch = s.epoch := rfl

/-! ## emit -/

@[simp] theorem emit_ctrlOp (b : Byte) (s : State) : (emit b s).ctrlOp = s.ctrlOp := rfl

@[simp] theorem emit_status (b : Byte) (s : State) : (emit b s).status = s.status := rfl

@[simp] theorem emit_inLen (b : Byte) (s : State) : (emit b s).inLen = s.inLen := rfl

@[simp] theorem emit_outCap (b : Byte) (s : State) : (emit b s).outCap = s.outCap := rfl

@[simp] theorem emit_outLen (b : Byte) (s : State) : (emit b s).outLen = s.outLen := rfl

@[simp] theorem emit_inMem (b : Byte) (s : State) : (emit b s).inMem = s.inMem := rfl

@[simp] theorem emit_outMem (b : Byte) (s : State) :
    (emit b s).outMem = Table.write s.outMem s.cmp.op.toNat b := rfl

@[simp] theorem emit_ht (b : Byte) (s : State) : (emit b s).ht = s.ht := rfl

@[simp] theorem emit_phase (b : Byte) (s : State) : (emit b s).phase = s.phase := rfl

@[simp] theorem emit_cmp (b : Byte) (s : State) : (emit b s).cmp = { s.cmp with op := s.cmp.op + 1 } := rfl

@[simp] theorem emit_dec (b : Byte) (s : State) : (emit b s).dec = s.dec := rfl

@[simp] theorem emit_platform (b : Byte) (s : State) : (emit b s).platform = s.platform := rfl

@[simp] theorem emit_host (b : Byte) (s : State) : (emit b s).host = s.host := rfl

@[simp] theorem emit_readData (b : Byte) (s : State) : (emit b s).readData = s.readData := rfl

@[simp] theorem emit_draws (b : Byte) (s : State) : (emit b s).draws = s.draws := rfl

@[simp] theorem emit_resultSeen (b : Byte) (s : State) : (emit b s).resultSeen = s.resultSeen := rfl

@[simp] theorem emit_epoch (b : Byte) (s : State) : (emit b s).epoch = s.epoch := rfl

/-! ## fetchTag -/

@[simp] theorem fetchTag_ctrlOp (s : State) : (fetchTag s).ctrlOp = s.ctrlOp := rfl

@[simp] theorem fetchTag_status (s : State) : (fetchTag s).status = s.status := rfl

@[simp] theorem fetchTag_inLen (s : State) : (fetchTag s).inLen = s.inLen := rfl

@[simp] theorem fetchTag_outCap (s : State) : (fetchTag s).outCap = s.outCap := rfl

@[simp] theorem fetchTag_outLen (s : State) : (fetchTag s).outLen = s.outLen := rfl

@[simp] theorem fetchTag_inMem (s : State) : (fetchTag s).inMem = s.inMem := rfl

@[simp] theorem fetchTag_outMem (s : State) : (fetchTag s).outMem = s.outMem := rfl

@[simp] theorem fetchTag_ht (s : State) : (fetchTag s).ht = s.ht := rfl

@[simp] theorem fetchTag_phase (s : State) : (fetchTag s).phase = s.phase := rfl

@[simp] theorem fetchTag_cmp (s : State) : (fetchTag s).cmp = s.cmp := rfl

@[simp] theorem fetchTag_dec (s : State) :
    (fetchTag s).dec = { s.dec with tag := inByte s s.dec.pos.toNat, pos := s.dec.pos + 1 } := rfl

@[simp] theorem fetchTag_platform (s : State) : (fetchTag s).platform = s.platform := rfl

@[simp] theorem fetchTag_host (s : State) : (fetchTag s).host = s.host := rfl

@[simp] theorem fetchTag_readData (s : State) : (fetchTag s).readData = s.readData := rfl

@[simp] theorem fetchTag_draws (s : State) : (fetchTag s).draws = s.draws := rfl

@[simp] theorem fetchTag_resultSeen (s : State) : (fetchTag s).resultSeen = s.resultSeen := rfl

@[simp] theorem fetchTag_epoch (s : State) : (fetchTag s).epoch = s.epoch := rfl

/-! ## lookupAndRecord -/

@[simp] theorem lookupAndRecord_ctrlOp (s : State) : (lookupAndRecord s).ctrlOp = s.ctrlOp := rfl

@[simp] theorem lookupAndRecord_status (s : State) : (lookupAndRecord s).status = s.status := rfl

@[simp] theorem lookupAndRecord_inLen (s : State) : (lookupAndRecord s).inLen = s.inLen := rfl

@[simp] theorem lookupAndRecord_outCap (s : State) : (lookupAndRecord s).outCap = s.outCap := rfl

@[simp] theorem lookupAndRecord_outLen (s : State) : (lookupAndRecord s).outLen = s.outLen := rfl

@[simp] theorem lookupAndRecord_inMem (s : State) : (lookupAndRecord s).inMem = s.inMem := rfl

@[simp] theorem lookupAndRecord_outMem (s : State) : (lookupAndRecord s).outMem = s.outMem := rfl

@[simp] theorem lookupAndRecord_ht (s : State) :
    (lookupAndRecord s).ht = Table.write s.ht (fingerprint s s.cmp.ip.toNat) (BitVec.ofNat 16 (s.cmp.ip.toNat - s.cmp.bs.toNat)) := rfl

@[simp] theorem lookupAndRecord_phase (s : State) : (lookupAndRecord s).phase = s.phase := rfl

@[simp] theorem lookupAndRecord_cmp (s : State) :
    (lookupAndRecord s).cmp = { s.cmp with
      h := BitVec.ofNat 14 (fingerprint s s.cmp.ip.toNat)
      cand := BitVec.ofNat 32 (s.cmp.bs.toNat + (htEntry s (fingerprint s s.cmp.ip.toNat)).toNat) } := rfl

@[simp] theorem lookupAndRecord_dec (s : State) : (lookupAndRecord s).dec = s.dec := rfl

@[simp] theorem lookupAndRecord_platform (s : State) : (lookupAndRecord s).platform = s.platform := rfl

@[simp] theorem lookupAndRecord_host (s : State) : (lookupAndRecord s).host = s.host := rfl

@[simp] theorem lookupAndRecord_readData (s : State) : (lookupAndRecord s).readData = s.readData := rfl

@[simp] theorem lookupAndRecord_draws (s : State) : (lookupAndRecord s).draws = s.draws := rfl

@[simp] theorem lookupAndRecord_resultSeen (s : State) : (lookupAndRecord s).resultSeen = s.resultSeen := rfl

@[simp] theorem lookupAndRecord_epoch (s : State) : (lookupAndRecord s).epoch = s.epoch := rfl

/-! ## regRead -/

@[simp] theorem regRead_ctrlOp (offset : Nat) (s : State) : (regRead offset s).ctrlOp = s.ctrlOp := rfl

@[simp] theorem regRead_status (offset : Nat) (s : State) : (regRead offset s).status = s.status := rfl

@[simp] theorem regRead_inLen (offset : Nat) (s : State) : (regRead offset s).inLen = s.inLen := rfl

@[simp] theorem regRead_outCap (offset : Nat) (s : State) : (regRead offset s).outCap = s.outCap := rfl

@[simp] theorem regRead_outLen (offset : Nat) (s : State) : (regRead offset s).outLen = s.outLen := rfl

@[simp] theorem regRead_inMem (offset : Nat) (s : State) : (regRead offset s).inMem = s.inMem := rfl

@[simp] theorem regRead_outMem (offset : Nat) (s : State) : (regRead offset s).outMem = s.outMem := rfl

@[simp] theorem regRead_ht (offset : Nat) (s : State) : (regRead offset s).ht = s.ht := rfl

@[simp] theorem regRead_phase (offset : Nat) (s : State) : (regRead offset s).phase = s.phase := rfl

@[simp] theorem regRead_cmp (offset : Nat) (s : State) : (regRead offset s).cmp = s.cmp := rfl

@[simp] theorem regRead_dec (offset : Nat) (s : State) : (regRead offset s).dec = s.dec := rfl

@[simp] theorem regRead_platform (offset : Nat) (s : State) : (regRead offset s).platform = s.platform := rfl

@[simp] theorem regRead_host (offset : Nat) (s : State) : (regRead offset s).host = s.host := rfl

@[simp] theorem regRead_readData (offset : Nat) (s : State) :
    (regRead offset s).readData = regValue s offset := rfl

@[simp] theorem regRead_draws (offset : Nat) (s : State) :
    (regRead offset s).draws = if offset = 0x10 ∧ s.status.busy then s.draws + 1 else s.draws := rfl

@[simp] theorem regRead_resultSeen (offset : Nat) (s : State) :
    (regRead offset s).resultSeen = (s.resultSeen || (decide (offset = 0x04) && !s.status.busy)) := rfl

@[simp] theorem regRead_epoch (offset : Nat) (s : State) : (regRead offset s).epoch = s.epoch := rfl

/-! ## The memory reads depend on their memory and the epoch alone -/

@[simp] theorem inByte_writeOut (s : State) (a : Nat) (v : Byte) (x : Nat) :
    inByte (writeOut s a v) x = inByte s x := rfl

@[simp] theorem inByte_writeHt (s : State) (i v x : Nat) : inByte (writeHt s i v) x = inByte s x := rfl

@[simp] theorem inByte_emit (b : Byte) (s : State) (x : Nat) : inByte (emit b s) x = inByte s x := rfl

@[simp] theorem inByte_fetchTag (s : State) (x : Nat) : inByte (fetchTag s) x = inByte s x := rfl

@[simp] theorem inByte_raise (e : ErrKind) (s : State) (x : Nat) : inByte (raise e s) x = inByte s x := rfl

@[simp] theorem outByte_fetchTag (s : State) (x : Nat) : outByte (fetchTag s) x = outByte s x := rfl

@[simp] theorem outByte_endDone (s : State) (x : Nat) : outByte (endDone s) x = outByte s x := rfl

@[simp] theorem outByte_writeHt (s : State) (i v x : Nat) : outByte (writeHt s i v) x = outByte s x := rfl

@[simp] theorem htEntry_writeOut (s : State) (a : Nat) (v : Byte) (i : Nat) :
    htEntry (writeOut s a v) i = htEntry s i := rfl

/-- A read of HT after a write (R41). -/
theorem htEntry_writeHt (s : State) (i v j : Nat) :
    htEntry (writeHt s i v) j = if j = i then BitVec.ofNat 16 v else htEntry s j := by
  show (Table.lookup (Table.write s.ht i (BitVec.ofNat 16 v)) j).getD _ = _
  have hw : ∀ (m : HashTable), Table.lookup (Table.write m i (BitVec.ofNat 16 v)) j =
      if j = i then some (BitVec.ofNat 16 v) else Table.lookup m j := fun m => Table.lookup_write m i j _
  rw [hw]
  split <;> rfl

/-- A read of OUT after a write (R41). -/
theorem outByte_writeOut (s : State) (a : Nat) (v : Byte) (x : Nat) :
    outByte (writeOut s a v) x = if x = a then v else outByte s x :=
  outByteOf_write s.epoch s.outMem a x v

end Sys2Proof.Machine
end

