-- ==== Sys2Proof/Laws/Ops.lean ====
section
/-! SUPPORT. What each shared operation can do, said once: the Failed entry, the end in Done, emission, and one step
of the machine. -/

namespace Sys2Proof.Machine

/-! ## The ends of an operation -/

/-- `raise` is the Failed entry of R135. -/
theorem raise_failedEntry (e : ErrKind) (s : State) : FailedEntry e s (raise e s) := by
  refine ⟨rfl, rfl, rfl, fun a ha => ?_, fun h a => ?_, rfl⟩
  · show outByteOf s.epoch (outAfterFailure e s) a = _
    unfold outAfterFailure
    split
    · rw [outByteOf_fill, if_neg (by omega)]; rfl
    · rfl
  · show outByteOf s.epoch (outAfterFailure e s) a = _
    rw [outAfterFailure, h]; rfl

/-- A raise after assignments to the parser registers that keep `L` is a Failed entry of the state before them. -/
theorem raise_dec_failedEntry (e : ErrKind) (s : State) (d : DecRegs) (hL : d.L = s.dec.L) :
    FailedEntry e s (raise e { s with dec := d }) := by
  obtain ⟨h1, h2, h3, h4, h5, -⟩ := raise_failedEntry e { s with dec := d }
  exact ⟨h1, h2, h3, fun a ha => h4 a (by simpa [hL] using ha), h5, rfl⟩

/-- `endDone` is the end in Done of R131. -/
theorem endDone_doneEnd (s : State) : DoneEnd s.outLen s (endDone s) := ⟨rfl, rfl, rfl, rfl⟩

/-! ## Emission -/

/-- Emission changes OUT and `op` alone, and `op` by the number of bytes (R11). -/
theorem emitBytes_frame (bytes : List Byte) :
    ∀ s : State, emitBytes bytes s =
      { s with
        outMem := (emitBytes bytes s).outMem
        cmp := { s.cmp with op := s.cmp.op + BitVec.ofNat 32 bytes.length } } := by
  induction bytes with
  | nil => intro s; simp [emitBytes]
  | cons b bytes ih =>
    intro s
    have h : (1#32) + BitVec.ofNat 32 bytes.length = BitVec.ofNat 32 (bytes.length + 1) := by
      rw [Nat.add_comm, BitVec.ofNat_add]
    rw [emitBytes, ih]
    simp only [emit, List.length_cons, BitVec.add_assoc]
    congr 2
    exact congrArg _ h

/-- A literal's emission changes OUT and `op` alone, and `op` by the header's and the payload's length (R90). -/
theorem emitLiteral_frame (src len : Nat) (s : State) :
    emitLiteral src len s =
      { s with
        outMem := (emitLiteral src len s).outMem
        cmp := { s.cmp with
          op := s.cmp.op + BitVec.ofNat 32 (literalHeader len).length + BitVec.ofNat 32 len } } := by
  rw [emitLiteral]
  rw [emitBytes_frame]

/-- A copy's emission changes OUT and `op` alone (R91). -/
theorem emitCopy_frame (offset len : Nat) (s : State) :
    emitCopy offset len s =
      { s with
        outMem := (emitCopy offset len s).outMem
        cmp := { s.cmp with op := s.cmp.op + BitVec.ofNat 32 (copyBytes offset len).length } } :=
  emitBytes_frame _ s

/-! ## The skip search -/

/-- A saturated word holds the exact value where it fits, and never wraps. -/
@[simp] theorem satWord_toNat (n : Nat) : (satWord n).toNat = min n (2 ^ 32 - 1) := by
  simp only [satWord, BitVec.toNat_ofNat]
  omega

/-- Where a failed probe takes `ip`: exactly on by the skip where that fits (R78), and never back. -/
theorem scanStep_spec (s : State) :
    s.cmp.ip.toNat ≤ (satWord (scanStep s)).toNat ∧
    (s.cmp.ip.toNat + s.cmp.skip.toNat / 32 < 2 ^ 32 →
      (satWord (scanStep s)).toNat = s.cmp.ip.toNat + s.cmp.skip.toNat / 32) ∧
    (2 ^ 32 ≤ s.cmp.ip.toNat + s.cmp.skip.toNat / 32 → (satWord (scanStep s)).toNat = 2 ^ 32 - 1) := by
  have h := s.cmp.ip.isLt
  simp only [satWord_toNat, scanStep, SKIP_SHIFT]
  omega

/-! ## One step -/

/-- What one step does when it answers a next state. -/
theorem step_cases {s t : State} (h : step s = .next t) :
    (s.host = [] ∧ engineStep s = .next t) ∨
    (∃ rest, s.host = .pass :: rest ∧ engineStep { s with host := rest } = .next t) ∨
    (∃ rest, s.host = .poll :: rest ∧ s.status.busy = true ∧ engineStep s = .next t) ∨
    (∃ rest, s.host = .poll :: rest ∧ s.status.busy = false ∧ t = pollDone { s with host := rest }) ∨
    (∃ a rest, s.host = .access a :: rest ∧ accessStep a { s with host := rest } = .next t) ∨
    (∃ rest, s.host = .reset :: rest ∧ t = resetNow { s with host := rest }) := by
  unfold step at h
  split at h
  · next hh => exact .inl ⟨hh, h⟩
  · next rest hh => exact .inr (.inl ⟨rest, hh, h⟩)
  · next rest hh =>
    split at h
    · next hb => exact .inr (.inr (.inl ⟨rest, hh, hb, h⟩))
    · next hb =>
      exact .inr (.inr (.inr (.inl ⟨rest, hh, by simpa using hb, (Host.Outcome.next.inj h).symm⟩)))
  · next a rest hh => exact .inr (.inr (.inr (.inr (.inl ⟨a, rest, hh, h⟩))))
  · next rest hh =>
    exact .inr (.inr (.inr (.inr (.inr ⟨rest, hh, (Host.Outcome.next.inj h).symm⟩))))

/-- What a CTRL write does (R125 to R127). -/
theorem exec_decodeCommand_cases {w : Word} {s t : State} (h : exec (decodeCommand w) s = .next t) :
    (s.status.busy = true ∧ t = s) ∨
    (s.status.busy = false ∧ w.getLsbD 0 = true ∧ t = acceptStart (w.getLsbD 1) s) ∨
    (s.status.busy = false ∧ w.getLsbD 0 = false ∧ t = { s with ctrlOp := w.getLsbD 1 }) := by
  rcases decodeCommand_cases w with ⟨h0, h1, r, hd⟩ | ⟨h0, h1, r, hd⟩ | ⟨h0, r, hd⟩ <;> rw [hd] at h <;>
    cases hb : s.status.busy
  · exact .inr (.inl ⟨rfl, h0, by rw [h1]; simpa [exec, execCmdCompress, hb] using h.symm⟩)
  · exact .inl ⟨rfl, by simpa [exec, execCmdCompress, hb] using h.symm⟩
  · exact .inr (.inl ⟨rfl, h0, by rw [h1]; simpa [exec, execCmdDecompress, hb] using h.symm⟩)
  · exact .inl ⟨rfl, by simpa [exec, execCmdDecompress, hb] using h.symm⟩
  · exact .inr (.inr ⟨rfl, h0, by simpa [exec, execCtrlSetop, hb] using h.symm⟩)
  · exact .inl ⟨rfl, by simpa [exec, execCtrlSetop, hb] using h.symm⟩

/-- No refusal of a byte access: one byte wide, and the block idle (R36, R133). -/
theorem memAccessRefusal_none {s : State} {addr width : Nat} (h : memAccessRefusal s addr width = none) :
    width = 1 ∧ s.status.busy = false := by
  unfold memAccessRefusal at h
  split at h
  · cases h
  · next hw =>
    split at h
    · cases h
    · next hb => exact ⟨by simpa using hw, by simpa using hb⟩

/-- No refusal of a read of OUT: one byte wide, the block idle, and the operation's end seen (R36, R133). -/
theorem outReadRefusal_none {s : State} {addr width : Nat} (h : outReadRefusal s addr width = none) :
    width = 1 ∧ s.status.busy = false ∧ s.resultSeen = true := by
  unfold outReadRefusal at h
  split at h
  · cases h
  · next hm =>
    obtain ⟨hw, hb⟩ := memAccessRefusal_none hm
    refine ⟨hw, hb, ?_⟩
    split at h
    · cases h
    · next hu => simpa [resultUnseen, hb] using hu

/-- No refusal of a register read: an aligned word, and not OUT_LEN before the operation's end is seen (R36, R133). -/
theorem regReadRefusal_none {s : State} {addr offset width : Nat}
    (h : regReadRefusal s addr offset width = none) :
    width = 4 ∧ offset % 4 = 0 ∧ (offset = 0x10 → s.status.busy = true ∨ s.resultSeen = true) := by
  unfold regReadRefusal at h
  split at h
  · cases h
  · next hok =>
    obtain ⟨hw, ho⟩ : width = 4 ∧ offset % 4 = 0 := by simpa [regAccessOk] using hok
    refine ⟨hw, ho, fun h10 => ?_⟩
    split at h
    · cases h
    · next hu =>
      cases hb : s.status.busy
      · exact .inr (by simpa [resultUnseen, h10, hb] using hu)
      · exact .inl rfl

/-- The addresses the map gives to IN and OUT lie below their capacities (R39). -/
theorem busTarget_bound {p : Platform} {addr a : Nat} :
    (busTarget p addr = .inByteAt a → a < p.inSize.toNat) ∧ (busTarget p addr = .outByteAt a → a < p.outSize.toNat) := by
  unfold busTarget inRegion
  constructor <;> intro h <;> repeat' split at h
  all_goals try cases h
  all_goals
    simp only [Bool.and_eq_true, decide_eq_true_eq] at *
    omega

/-- What a host access that is no CTRL write does when it is served (R124, R125, R133). -/
theorem hostAccess_cases {a : HostAccess} {s t : State} (h : hostAccess a s = .next t) :
    (∃ offset, t = regRead offset s) ∨ (∃ offset w, t = regWrite offset w s) ∨
    (s.status.busy = false ∧ ∃ v, t = { s with readData := v }) ∨
    (s.status.busy = false ∧ ∃ x v, x < s.platform.inSize.toNat ∧ t = { s with inMem := Table.write s.inMem x v }) ∨
    (s.status.busy = false ∧ ∃ x v, x < s.platform.outSize.toNat ∧ t = writeOut s x v) := by
  cases a with
  | read addr width =>
    simp only [hostAccess, hostRead] at h
    split at h
    · split at h
      · cases h
      · exact .inl ⟨_, (Host.Outcome.next.inj h).symm⟩
    · split at h
      · cases h
      · next hr =>
        exact .inr (.inr (.inl ⟨(memAccessRefusal_none hr).2, _, (Host.Outcome.next.inj h).symm⟩))
    · split at h
      · cases h
      · next hr =>
        exact .inr (.inr (.inl ⟨(outReadRefusal_none hr).2.1, _, (Host.Outcome.next.inj h).symm⟩))
    · cases h
  | write addr width value =>
    simp only [hostAccess, hostWrite] at h
    split at h
    · split at h
      · exact .inr (.inl ⟨_, _, (Host.Outcome.next.inj h).symm⟩)
      · cases h
    · next x hx =>
      split at h
      · cases h
      · next hr =>
        exact .inr (.inr (.inr (.inl ⟨(memAccessRefusal_none hr).2, _, _, busTarget_bound.1 hx,
          (Host.Outcome.next.inj h).symm⟩)))
    · next x hx =>
      split at h
      · cases h
      · next hr =>
        exact .inr (.inr (.inr (.inr ⟨(memAccessRefusal_none hr).2, _, _, busTarget_bound.2 hx,
          (Host.Outcome.next.inj h).symm⟩)))
    · cases h

/-- What one bus access of the host does when it is served. -/
theorem accessStep_cases {a : HostAccess} {s t : State} (h : accessStep a s = .next t) :
    (∃ w, ctrlWrite s.platform a = some w ∧ exec (decodeCommand w) s = .next t) ∨
    (ctrlWrite s.platform a = none ∧ hostAccess a s = .next t) := by
  unfold accessStep at h
  split at h
  · next w hw => exact .inl ⟨w, hw, h⟩
  · next hw => exact .inr ⟨hw, h⟩

/-- A header byte runs and answers a next state: a failure, another byte to come, or the end of the header (R67). -/
theorem exec_decodeHeader_cases (c : Byte) (s : State) :
    ∃ t, exec (decodeHeader c) s = .next t ∧
      (t = raise .truncatedHeader s ∨
       ∃ g u, takeGroup g s = some u ∧
         (t = { u with dec := { u.dec with vshift := u.dec.vshift + 7 } } ∨ t = enterDecodeLoop u)) := by
  rcases decodeHeader_cases c with ⟨g, hg⟩ | ⟨g, hg⟩ <;> rw [hg]
  · show ∃ t, execVarintCont g s = .next t ∧ _
    unfold execVarintCont
    cases ht : takeGroup g s with
    | none => exact ⟨_, rfl, .inl rfl⟩
    | some u => exact ⟨_, rfl, .inr ⟨g, u, ht, .inl rfl⟩⟩
  · show ∃ t, execVarintLast g s = .next t ∧ _
    unfold execVarintLast
    cases ht : takeGroup g s with
    | none => exact ⟨_, rfl, .inl rfl⟩
    | some u => exact ⟨_, rfl, .inr ⟨g, u, ht, .inr rfl⟩⟩

/-- An element runs and answers a next state: a literal or a copy after its fetch (R104). -/
theorem exec_element_cases {i : Instr} (hi : i.context = .element) (s : State) :
    ∃ t, exec i s = .next t ∧
      ((∃ len, t = literalPayload len
          { fetchTag s with dec := { (fetchTag s).dec with len := BitVec.ofNat 33 len } }) ∨
       (∃ k len, k ≤ 4 ∧ t = literalExtended k len (fetchTag s)) ∨
       (∃ k len offset, k ≤ 4 ∧ t = copyElement k len offset (fetchTag s))) := by
  cases i with
  | copy1 f o => exact ⟨_, rfl, .inr (.inr ⟨1, _, _, by omega, rfl⟩)⟩
  | copy2 f o => exact ⟨_, rfl, .inr (.inr ⟨2, _, _, by omega, rfl⟩)⟩
  | copy4 f o => exact ⟨_, rfl, .inr (.inr ⟨4, _, _, by omega, rfl⟩)⟩
  | litX1 f => exact ⟨_, rfl, .inr (.inl ⟨1, _, by omega, rfl⟩)⟩
  | litX2 f => exact ⟨_, rfl, .inr (.inl ⟨2, _, by omega, rfl⟩)⟩
  | litX3 f => exact ⟨_, rfl, .inr (.inl ⟨3, _, by omega, rfl⟩)⟩
  | litX4 f => exact ⟨_, rfl, .inr (.inl ⟨4, _, by omega, rfl⟩)⟩
  | lit f => exact ⟨_, rfl, .inl ⟨_, rfl⟩⟩
  | varintCont g => cases hi
  | varintLast g => cases hi
  | cmdCompress r => cases hi
  | cmdDecompress r => cases hi
  | ctrlSetop o r => cases hi

end Sys2Proof.Machine
end

