-- ==== Sys2Proof/Laws/PerInstr.lean ====
section
/-! SUPPORT. Laws stated once for each instruction. -/

namespace Sys2Proof.Laws.EncodedLength

/-- The encoder writes as many bytes as the form takes in IN before its payload (R57). -/
def Statement (i : Instr) : Prop := (encode i).length = i.encodedBytes

theorem copy1 (lenField : BitVec 3) (offset : BitVec 11) : Statement (.copy1 lenField offset) := rfl
theorem copy2 (lenField : BitVec 6) (offset : BitVec 16) : Statement (.copy2 lenField offset) := rfl
theorem copy4 (lenField : BitVec 6) (offset : BitVec 32) : Statement (.copy4 lenField offset) := rfl
theorem litX1 (lenField : BitVec 8) : Statement (.litX1 lenField) := rfl
theorem litX2 (lenField : BitVec 16) : Statement (.litX2 lenField) := rfl
theorem litX3 (lenField : BitVec 24) : Statement (.litX3 lenField) := rfl
theorem litX4 (lenField : BitVec 32) : Statement (.litX4 lenField) := rfl
theorem lit (lenField : BitVec 6) : Statement (.lit lenField) := rfl
theorem varintCont (group : BitVec 7) : Statement (.varintCont group) := rfl
theorem varintLast (group : BitVec 7) : Statement (.varintLast group) := rfl
theorem cmdCompress (ignored : BitVec 30) : Statement (.cmdCompress ignored) := rfl
theorem cmdDecompress (ignored : BitVec 30) : Statement (.cmdDecompress ignored) := rfl
theorem ctrlSetop (opBit : Bool) (ignored : BitVec 30) : Statement (.ctrlSetop opBit ignored) := rfl

end Sys2Proof.Laws.EncodedLength
end

