-- ==== Sys2Proof/Laws/Safety.lean ====
section
/-! SUPPORT. What each invariant of Safety says at each phase, so that no proof takes its match apart. -/

namespace Sys2Proof.Machine

/-! ## ParserInv -/

theorem parserInv_readHeader {s : State} (h : s.phase = .dcmp .readHeader) :
    ParserInv s ↔ lengthsFit s ∧ s.dec.pos.toNat ≤ s.inLen.toNat ∧ s.dec.pos.toNat ≤ 5 ∧
      s.dec.vshift.toNat = 7 * s.dec.pos.toNat ∧ s.dec.vres.toNat < 2 ^ s.dec.vshift.toNat := by
  simp only [ParserInv, h]

theorem parserInv_decodeLoop {s : State} (h : s.phase = .dcmp .decodeLoop) :
    ParserInv s ↔ lengthsFit s ∧ s.dec.pos.toNat ≤ s.inLen.toNat ∧ s.dec.outPos.toNat ≤ s.dec.L.toNat ∧
      s.dec.L.toNat ≤ s.outCap.toNat := by
  simp only [ParserInv, h]

theorem parserInv_idle {s : State} (h : s.phase = .idle) : ParserInv s := by simp only [ParserInv, h]

theorem parserInv_cmp {s : State} {stage : CmpStage} (h : s.phase = .cmp stage) : ParserInv s := by
  simp only [ParserInv, h]

/-! ## CompressInv -/

theorem compressInv_header {s : State} (h : s.phase = .cmp .header) :
    CompressInv s ↔ s.cmp.N = s.inLen ∧ s.cmp.op = 0 := by simp only [CompressInv, h]

theorem compressInv_nextBlock {s : State} (h : s.phase = .cmp .nextBlock) :
    CompressInv s ↔ s.cmp.N = s.inLen ∧ s.cmp.bs.toNat ≤ s.cmp.N.toNat ∧
      (s.cmp.bs.toNat % 65536 = 0 ∨ s.cmp.bs = s.cmp.N) := by simp only [CompressInv, h]

theorem compressInv_probe {s : State} (h : s.phase = .cmp .probe) :
    CompressInv s ↔ SearchInv s.cmp.ip.toNat s ∧ s.cmp.nextEmit.toNat < s.cmp.ip.toNat ∧
      s.cmp.ip.toNat ≤ s.cmp.ipLimit.toNat + s.cmp.skip.toNat / 32 ∧
      32 ≤ s.cmp.skip.toNat ∧ s.cmp.skip.toNat + s.cmp.bs.toNat ≤ 32 + s.cmp.ip.toNat := by
  simp only [CompressInv, h]

theorem compressInv_accept {s : State} (h : s.phase = .cmp .accept) :
    CompressInv s ↔ MatchInv s ∧ s.cmp.nextEmit.toNat < s.cmp.ip.toNat := by simp only [CompressInv, h]

theorem compressInv_extend {s : State} (h : s.phase = .cmp .extend) :
    CompressInv s ↔ MatchInv s ∧ s.cmp.nextEmit.toNat ≤ s.cmp.ip.toNat := by simp only [CompressInv, h]

theorem compressInv_adjacent {s : State} (h : s.phase = .cmp .adjacent) :
    CompressInv s ↔ SearchInv s.cmp.ip.toNat s ∧ s.cmp.nextEmit = s.cmp.ip ∧
      s.cmp.bs.toNat < s.cmp.ip.toNat ∧ s.cmp.ip.toNat ≤ s.cmp.be.toNat := by simp only [CompressInv, h]

theorem compressInv_tail {s : State} (h : s.phase = .cmp .tail) : CompressInv s ↔ BlockInv s := by
  simp only [CompressInv, h]

theorem compressInv_idle {s : State} (h : s.phase = .idle) : CompressInv s := by simp only [CompressInv, h]

theorem compressInv_dcmp {s : State} {stage : DcmpStage} (h : s.phase = .dcmp stage) : CompressInv s := by
  simp only [CompressInv, h]

/-! ## OutputInv -/

theorem outputInv_probe {s : State} (h : s.phase = .cmp .probe) :
    OutputInv s ↔ lengthsFit s ∧ outBound s.inLen.toNat ≤ s.outCap.toNat ∧
      s.cmp.op.toNat ≤ emittedBound s.cmp.nextEmit.toNat (s.cmp.bs.toNat / 65536) := by
  simp only [OutputInv, covered, h]

theorem outputInv_nextBlock {s : State} (h : s.phase = .cmp .nextBlock) :
    OutputInv s ↔ lengthsFit s ∧ outBound s.inLen.toNat ≤ s.outCap.toNat ∧
      s.cmp.op.toNat ≤ emittedBound s.cmp.bs.toNat ((s.cmp.bs.toNat + 65535) / 65536) := by
  simp only [OutputInv, covered, h]

theorem outputInv_idle {s : State} (h : s.phase = .idle) : OutputInv s := by simp only [OutputInv, h]

theorem outputInv_dcmp {s : State} {stage : DcmpStage} (h : s.phase = .dcmp stage) : OutputInv s := by
  simp only [OutputInv, h]

/-! ## SameButStaleHt -/

theorem sameButStaleHt_probe {s t : State} (h : s.phase = .cmp .probe) :
    SameButStaleHt s t ↔ t = { s with ht := t.ht } ∧
      ∀ i, i < 2 ^ s.cmp.bits.toNat → htEntry t i = htEntry s i := by simp only [SameButStaleHt, h]

end Sys2Proof.Machine
end

