-- ==== Sys2Proof/Tests/Slice0.lean ====
section
/-! SUPPORT. Tests of the model on the spec's own words and vectors (expected results from 30_encoding.md,
42_tag_encoder.md, 44_tag_parser.md and 95_test_vectors.md), and the witnesses that meet the statements'
hypotheses. -/

namespace Sys2Proof.Tests

open Sys2Proof Sys2Proof.Machine

/-! ## Helpers -/

/-- A memory that lists the bytes from address 0. -/
def listed (bytes : List Byte) : Memory := (List.range bytes.length).zip bytes

/-- What a step's next state shows, or nothing if it stopped. -/
def seen {α : Type} (f : State → α) : Host.Outcome State Fault Refusal → Option α
  | .next s => some (f s)
  | .fault _ => none
  | .refused _ => none

/-- The first bytes of OUT. -/
def outBytes (n : Nat) (s : State) : List Byte := (List.range n).map (outByte s)

/-- DecodeLoop with the stream in IN, the cursor at `pos`, `produced` already in OUT, and the declared length `L`. -/
def loopState (stream : List Byte) (pos : Nat) (produced : List Byte) (L : Nat) : State :=
  { State.reset with
    status := statusAccepted, phase := .dcmp .decodeLoop
    inMem := listed stream, inLen := BitVec.ofNat 32 stream.length, outCap := 300
    outMem := listed produced
    dec := { DecRegs.reset with
      pos := BitVec.ofNat 32 pos, outPos := BitVec.ofNat 32 produced.length, L := BitVec.ofNat 32 L } }

/-- ReadHeader with the stream in IN and the cursor at `pos`, `vshift = 7 * pos`. -/
def headerState (stream : List Byte) (pos vres : Nat) : State :=
  { State.reset with
    status := statusAccepted, phase := .dcmp .readHeader
    inMem := listed stream, inLen := BitVec.ofNat 32 stream.length, outCap := 300
    dec := { DecRegs.reset with
      pos := BitVec.ofNat 32 pos, vshift := BitVec.ofNat 6 (7 * pos), vres := BitVec.ofNat 32 vres } }

/-- COMPRESS of a one-block input in a given stage, HT cleared for the block, `op = 1`. -/
def blockState (stage : CmpStage) (input : List Byte) (ip cand nextEmit : Nat) : State :=
  { State.reset with
    status := statusAccepted, phase := .cmp stage
    inMem := listed input, inLen := BitVec.ofNat 32 input.length, outCap := 300
    ht := Table.fill [] (2 ^ tableBits input.length) (fun _ => 0)
    cmp := { CmpRegs.reset with
      N := BitVec.ofNat 32 input.length, op := 1, be := BitVec.ofNat 32 input.length
      S := BitVec.ofNat 17 input.length, bits := BitVec.ofNat 4 (tableBits input.length)
      ipLimit := BitVec.ofNat 32 (input.length - 15), ip := BitVec.ofNat 32 ip
      cand := BitVec.ofNat 32 cand, nextEmit := BitVec.ofNat 32 nextEmit, skip := 32 } }

/-- `n` bytes of `A`. -/
def As (n : Nat) : List Byte := List.replicate n 0x41#8

/-- The bytes 0, 1, .., n-1. -/
def rising (n : Nat) : List Byte := (List.range n).map (BitVec.ofNat 8)

/-! ## WellFormed -/

theorem test_wellFormed_refuses_long_field : (Instr.lit 60#6).wellFormed = false := by decide

theorem test_wellFormed_accepts_longest : (Instr.lit 59#6).wellFormed = true := by decide

/-! ## Decoding: a word of each form, bit by bit from the spec's tables -/

/-- R52: tag `111 111 01`, second byte `FF`: length 11, offset 2047 (R92, the largest COPY1). -/
theorem test_decode_copy1 : decode .element [0b11111101#8, 0xFF#8, 0x99#8] = .ok (.copy1 7#3 2047#11, [0x99#8]) := by
  decide

/-- R53: tag `111111 10`, offset bytes `01 00`: length 64, offset 1. -/
theorem test_decode_copy2 : decode .element [0b11111110#8, 0x01#8, 0x00#8] = .ok (.copy2 63#6 1#16, []) := by decide

/-- R54: tag `000011 11`, offset bytes `02 00 00 01`: length 4, offset 0x01000002. -/
theorem test_decode_copy4 :
    decode .element [0b00001111#8, 0x02#8, 0x00#8, 0x00#8, 0x01#8] = .ok (.copy4 3#6 0x01000002#32, []) := by decide

theorem test_decode_litX1 : decode .element [0xF0#8, 0x3C#8] = .ok (.litX1 60#8, []) := by decide

theorem test_decode_litX2 : decode .element [0xF4#8, 0x00#8, 0x01#8] = .ok (.litX2 256#16, []) := by decide

theorem test_decode_litX3 :
    decode .element [0xF8#8, 0x02#8, 0x00#8, 0x01#8] = .ok (.litX3 0x010002#24, []) := by decide

theorem test_decode_litX4 :
    decode .element [0xFC#8, 0xFF#8, 0xFF#8, 0xFF#8, 0xFF#8] = .ok (.litX4 0xFFFFFFFF#32, []) := by decide

/-- R50: tag `111011 00`: length 60. -/
theorem test_decode_lit : decode .element [0b11101100#8] = .ok (.lit 59#6, []) := by decide

/-- R48: bit 7 is the continuation bit. -/
theorem test_decode_varintCont : decode .header [0b10101100#8, 0x02#8] = .ok (.varintCont 0b0101100#7, [0x02#8]) := by
  decide

theorem test_decode_varintLast : decode .header [0b00000010#8] = .ok (.varintLast 2#7, []) := by decide

theorem test_decode_cmdCompress :
    decode .command [0x01#8, 0x00#8, 0x00#8, 0x80#8] = .ok (.cmdCompress 0x20000000#30, []) := by decide

theorem test_decode_cmdDecompress :
    decode .command [0x03#8, 0x00#8, 0x00#8, 0x00#8] = .ok (.cmdDecompress 0#30, []) := by decide

theorem test_decode_ctrlSetop :
    decode .command [0x02#8, 0x00#8, 0x00#8, 0x00#8] = .ok (.ctrlSetop true 0#30, []) := by decide

/-- R112: the COPY1 tag `05` without its offset byte. -/
theorem test_decode_truncated : decode .element [0x05#8] = .error (.truncatedOperand 1) := by decide

/-- R92's example (300, 5) gives `25 2C`. -/
theorem test_encode_copy1 : encode (.copy1 1#3 300#11) = [0x25#8, 0x2C#8] := by decide

theorem test_tableWord_cmdCompress : decodeTableWord 32 1 = some (.cmdCompress 0#30) := by decide

theorem test_tableWord_litX3 : decodeTableWord 8 0xF8 = some (.litX3 0#24) := by decide

/-! ## Tag elements (95_test_vectors.md 2.8, 2.9) -/

/-- `08 08 61 62 63 05 03`: the copy (5, 3) after `abc`. -/
theorem test_copy1_overlap :
    seen (outBytes 8) (exec (.copy1 1#3 3#11)
      (loopState [0x08#8, 0x08#8, 0x61#8, 0x62#8, 0x63#8, 0x05#8, 0x03#8] 5 [0x61#8, 0x62#8, 0x63#8] 8)) =
    some [0x61#8, 0x62#8, 0x63#8, 0x61#8, 0x62#8, 0x63#8, 0x61#8, 0x62#8] := by decide

/-- `04 00 41 01 00`: offset 0. -/
theorem test_copy1_offset_zero :
    seen (fun s => (statusWord s.status, s.outLen)) (exec (.copy1 0#3 0#11)
      (loopState [0x04#8, 0x00#8, 0x41#8, 0x01#8, 0x00#8] 3 [0x41#8] 4)) = some (0x44#32, 0#32) := by decide

/-- `06 04 61 62 0E 02 00`. -/
theorem test_copy2 :
    seen (fun s => (outBytes 6 s, s.dec.pos)) (exec (.copy2 3#6 2#16)
      (loopState [0x06#8, 0x04#8, 0x61#8, 0x62#8, 0x0E#8, 0x02#8, 0x00#8] 4 [0x61#8, 0x62#8] 6)) =
    some ([0x61#8, 0x62#8, 0x61#8, 0x62#8, 0x61#8, 0x62#8], 7#32) := by decide

/-- `06 04 61 62 0E 02`: one operand byte is missing. -/
theorem test_copy2_truncated :
    seen (fun s => statusWord s.status) (exec (.copy2 3#6 2#16)
      (loopState [0x06#8, 0x04#8, 0x61#8, 0x62#8, 0x0E#8, 0x02#8] 4 [0x61#8, 0x62#8] 6)) = some 0x34#32 := by decide

/-- `06 04 61 62 0F 02 00 00 00`. -/
theorem test_copy4 :
    seen (outBytes 6) (exec (.copy4 3#6 2#32)
      (loopState [0x06#8, 0x04#8, 0x61#8, 0x62#8, 0x0F#8, 0x02#8, 0x00#8, 0x00#8, 0x00#8] 4 [0x61#8, 0x62#8] 6)) =
    some [0x61#8, 0x62#8, 0x61#8, 0x62#8, 0x61#8, 0x62#8] := by decide

/-- `06 04 61 62 0F FF FF FF FF`: offset 2^32 - 1. -/
theorem test_copy4_far :
    seen (fun s => statusWord s.status) (exec (.copy4 3#6 0xFFFFFFFF#32)
      (loopState [0x06#8, 0x04#8, 0x61#8, 0x62#8, 0x0F#8, 0xFF#8, 0xFF#8, 0xFF#8, 0xFF#8] 4 [0x61#8, 0x62#8] 6)) =
    some 0x44#32 := by decide

/-- `03 08 61 62 63`. -/
theorem test_lit :
    seen (fun s => (outBytes 3 s, s.dec.pos, s.dec.outPos)) (exec (.lit 2#6)
      (loopState [0x03#8, 0x08#8, 0x61#8, 0x62#8, 0x63#8] 1 [] 3)) =
    some ([0x61#8, 0x62#8, 0x63#8], 5#32, 3#32) := by decide

/-- `01 04 61 62`: two bytes into `L = 1`. -/
theorem test_lit_overrun :
    seen (fun s => statusWord s.status) (exec (.lit 1#6) (loopState [0x01#8, 0x04#8, 0x61#8, 0x62#8] 1 [] 1)) =
    some 0x54#32 := by decide

/-- `01 F0 00 41`. -/
theorem test_litX1 :
    seen (outBytes 1) (exec (.litX1 0#8) (loopState [0x01#8, 0xF0#8, 0x00#8, 0x41#8] 1 [] 1)) = some [0x41#8] := by
  decide

/-- `01 F0`: the extension byte is missing. -/
theorem test_litX1_truncated :
    seen (fun s => statusWord s.status) (exec (.litX1 0#8) (loopState [0x01#8, 0xF0#8] 1 [] 1)) = some 0x24#32 := by
  decide

/-- `01 F4 00 00 41`. -/
theorem test_litX2 :
    seen (outBytes 1) (exec (.litX2 0#16) (loopState [0x01#8, 0xF4#8, 0x00#8, 0x00#8, 0x41#8] 1 [] 1)) =
    some [0x41#8] := by decide

/-- R110's example `F8 02 00 00 41 42 43`. -/
theorem test_litX3 :
    seen (outBytes 3) (exec (.litX3 2#24)
      (loopState [0x03#8, 0xF8#8, 0x02#8, 0x00#8, 0x00#8, 0x41#8, 0x42#8, 0x43#8] 1 [] 3)) =
    some [0x41#8, 0x42#8, 0x43#8] := by decide

/-- R111's example `FC 00 00 00 00 5A`. -/
theorem test_litX4 :
    seen (outBytes 1) (exec (.litX4 0#32)
      (loopState [0x01#8, 0xFC#8, 0x00#8, 0x00#8, 0x00#8, 0x00#8, 0x5A#8] 1 [] 1)) = some [0x5A#8] := by decide

/-- `01 FC FF FF FF FF`: `len = 2^32`, exact. -/
theorem test_litX4_exact :
    seen (fun s => statusWord s.status) (exec (.litX4 0xFFFFFFFF#32)
      (loopState [0x01#8, 0xFC#8, 0xFF#8, 0xFF#8, 0xFF#8, 0xFF#8] 1 [] 1)) = some 0x24#32 := by decide

/-! ## The header (95_test_vectors.md 2.2) -/

/-- `AC 02`: the first byte, then the second gives `L = 300`. -/
theorem test_varintCont :
    seen (fun s => (s.dec.vres, s.dec.vshift, s.dec.pos)) (exec (.varintCont 0x2C#7)
      (headerState [0xAC#8, 0x02#8] 0 0)) = some (0x2C#32, 7#6, 1#32) := by decide

/-- `80 80 80 80 10`: the fifth group loses bits. -/
theorem test_varintLast_lost_bits :
    seen (fun s => statusWord s.status) (exec (.varintLast 0x10#7)
      (headerState [0x80#8, 0x80#8, 0x80#8, 0x80#8, 0x10#8] 4 0)) = some 0x14#32 := by decide

theorem test_varintLast :
    seen (fun s => (s.dec.L, s.dec.pos, s.phase)) (exec (.varintLast 2#7) (headerState [0xAC#8, 0x02#8] 1 0x2C)) =
    some (300#32, 2#32, .dcmp .decodeLoop) := by decide

/-! ## CTRL writes and the host (95_test_vectors.md 2.10) -/

/-- Writing 0x00000002 while idle sets OP and leaves the block idle (R126). -/
theorem test_ctrlSetop :
    seen (fun s => (regValue s 0x00, s.phase)) (accessStep (.write 0 4 2#32) State.reset) =
    some (0x2#32, .idle) := by decide

theorem test_cmdCompress :
    seen (fun s => (statusWord s.status, regValue s 0x00)) (accessStep (.write 0 4 0xFFFFFFFD#32) State.reset) =
    some (0x1#32, 0#32) := by decide

theorem test_cmdDecompress :
    seen (fun s => (statusWord s.status, regValue s 0x00)) (accessStep (.write 0 4 3#32) State.reset) =
    some (0x1#32, 0x2#32) := by decide

/-- `IN_LEN = 100`, `OUT_CAP = 147`: CompressCapacity (needs 148). -/
theorem test_compressCapacity :
    seen (fun s => statusWord s.status) (engineStep
      { State.reset with status := statusAccepted, phase := .cmp .startChecks, inLen := 100, outCap := 147 }) =
    some 0x84#32 := by decide

/-- `IN_SIZE = 4096`, `IN_LEN = 4097`: BadConfig. -/
theorem test_badConfig :
    seen (fun s => statusWord s.status) (engineStep
      { State.reset with status := statusAccepted, phase := .dcmp .startChecks, inLen := 4097, outCap := 10 }) =
    some 0x94#32 := by decide

/-- A narrow register access is refused (R36, U12). -/
theorem test_narrow_access : seen (fun _ => ()) (accessStep (.read 8 2) State.reset) = none := by decide

/-- R133, R150 steps 6 and 7: after the end of an operation OUT_LEN is read once STATUS has been. -/
theorem test_result_after_status :
    let s := { State.reset with status := statusDone, outLen := 7, resultSeen := false }
    seen (fun t => t.readData) (accessStep (.read 0x10 4) s) = none ∧
    seen (fun t => seen (fun u => u.readData) (accessStep (.read 0x10 4) t)) (accessStep (.read 0x04 4) s) =
      some (some 7#32) := by decide

/-! ## COMPRESS (95_test_vectors.md 2.3 to 2.6) -/

theorem test_tableBits : [1, 4, 8, 16, 100, 256, 16383, 65536].map tableBits = [1, 2, 3, 4, 6, 8, 13, 14] := by decide

/-- `AAAA`: 13 for 4 bits, 14284 for 14 bits (R74). -/
theorem test_fingerprint :
    (fingerprintOf 0x41414141#32 4, fingerprintOf 0x41414141#32 14) = (13, 14284) := by decide

theorem test_copyBytes_131 :
    copyBytes 1 131 = [0xFE#8, 0x01#8, 0x00#8, 0xEE#8, 0x01#8, 0x00#8, 0x0D#8, 0x01#8] := by decide

theorem test_literalHeader :
    [1, 60, 61, 256].map literalHeader = [[0x00#8], [0xEC#8], [0xF0#8, 0x3C#8], [0xF4#8, 0xFF#8, 0x00#8]] := by decide

theorem test_varintBytes : varintBytes 70000 = [0xF0#8, 0xA2#8, 0x04#8] := by decide

/-- 16 bytes of `A`: the probe at 1 (h 13, cand 0) hits. -/
theorem test_probe_hits :
    seen (fun s => (s.phase, s.cmp.h, s.cmp.cand)) (engineStep (blockState .probe (As 16) 1 0 0)) =
    some (.cmp .accept, 13#14, 0#32) := by decide

/-- R79 against R29, in numbers: 480 failed probes, 32 of each step length 1 to 15, take `ip` from the second byte of a
block of 3856 bytes to 3841, which is `ipLimit` (R75), with `skip` at 512, and R78 moves the next failed probe to 3857,
past the block end (log entry 13). -/
theorem test_skips_pass_block_end :
    1 + ((List.range 15).map (fun k => 32 * ((32 + 32 * k) / 32))).sum = 3856 - 15 ∧ 32 + 480 = 512 ∧
    3856 < (3856 - 15) + 512 / 32 := by decide

/-- The block of `test_skips_pass_block_end` after its 480 failed probes; the bytes that the next probe compares differ
(0 at the candidate, 1 at `ip`). -/
def lastProbeState : State :=
  { State.reset with
    status := statusAccepted, phase := .cmp .probe
    inMem := [(0, 0#8), (1, 0#8), (2, 0#8), (3, 0#8), (3841, 1#8), (3842, 1#8), (3843, 1#8), (3844, 1#8)]
    inLen := 3856, outCap := 4096
    ht := Table.fill [] (2 ^ 11) (fun _ => 0)
    cmp := { CmpRegs.reset with
      N := 3856, op := 2, be := 3856, S := 3856, bits := 11, ipLimit := 3841, ip := 3841, skip := 512 } }

theorem lastProbeState_inv : CompressInv lastProbeState := by
  rw [compressInv_probe rfl]
  refine ⟨⟨?_, by decide, by decide, fun i hi => ?_⟩, by decide⟩
  · unfold BlockInv
    decide
  · have hi' : i < 2 ^ 11 := hi
    have h : Table.lookup lastProbeState.ht i = some 0 := by
      show Table.lookup (Table.fill [] (2 ^ 11) (fun _ => 0)) i = some 0
      rw [Table.lookup_fill, if_pos hi']
    simp only [htEntry, h, Option.getD_some]
    decide

/-- In a state that keeps the invariant of COMPRESS, a probe at 3841 with candidate 0 fails, and R78's step takes `ip`
past the block end (log entry 13). -/
theorem test_last_probe_passes_block_end :
    CompressInv lastProbeState ∧ lastProbeState.cmp.be = 3856#32 ∧
    eq32 lastProbeState 3841 0 = false ∧ scanStep lastProbeState = 3857 :=
  ⟨lastProbeState_inv, by decide⟩

/-- R78: a skip of 1000 moves a failed probe on by 31, past the end of a 16-byte block too. -/
theorem test_probe_skips :
    let s := blockState .probe (rising 16) 1 0 0
    seen (fun t => t.cmp.ip) (engineStep { s with cmp := { s.cmp with skip := 1000 } }) = some 32#32 := by decide

/-- 16 bytes of `A`: the match at 1 is 15 bytes long and is written as `3A 01 00`. -/
theorem test_extend :
    seen (fun s => (s.cmp.matched, (outBytes 4 s).drop 1)) (engineStep (blockState .extend (As 16) 1 0 0)) =
    some (15#32, [0x3A#8, 0x01#8, 0x00#8]) := by decide

/-- 14 bytes of `A`: the tail literal `34` and the bytes. -/
theorem test_tail :
    seen (fun s => ((outBytes 16 s).drop 1, s.cmp.bs)) (engineStep (blockState .tail (As 14) 0 0 0)) =
    some (0x34#8 :: As 14, 14#32) := by decide

/-! ## Witnesses: states and operands that meet the statements' hypotheses together -/

/-- The next state of a step, and the reset state if it stopped. -/
def stateAfter : Host.Outcome State Fault Refusal → State
  | .next s => s
  | .fault _ => State.reset
  | .refused _ => State.reset

/-- A stream of the header `08`, the literal `08 61 62 63`, and then the given element. -/
def abcStream (element : List Byte) : List Byte := [0x08#8, 0x08#8, 0x61#8, 0x62#8, 0x63#8] ++ element

/-- DecodeLoop at that element, with `abc` produced. -/
def abcState (element : List Byte) (L : Nat) : State := loopState (abcStream element) 5 [0x61#8, 0x62#8, 0x63#8] L

/-- An idle state after a failure, with the given input and lengths. -/
def failedState (input : List Byte) (inLen outCap : Nat) : State :=
  { State.reset with
    status := { busy := false, done := false, err := true, errCode := 4 }
    inMem := listed input, inLen := BitVec.ofNat 32 inLen, outCap := BitVec.ofNat 32 outCap }

theorem witness_DecodeOfEncode :
    ∀ i ∈ [Instr.copy1 7 2047, .copy2 63 65535, .copy4 63 0xFFFFFFFF, .litX1 255, .litX2 65535, .litX3 0xFFFFFF,
      .litX4 0xFFFFFFFF, .lit 59, .varintCont 127, .varintLast 127, .cmdCompress 0x3FFFFFFF, .cmdDecompress 0,
      .ctrlSetop true 0], i.wellFormed = true := by decide

theorem witness_EncodeOfDecode :
    decode .element [0xEC#8, 0x41#8] = .ok (.lit 59#6, [0x41#8]) ∧
    decode .header [0x80#8] = .ok (.varintCont 0#7, []) ∧
    decode .command [0xFC#8, 0xFF#8, 0xFF#8, 0xFF#8, 0x01#8] = .ok (.ctrlSetop false 0x3FFFFFFF#30, [0x01#8]) := by decide

theorem witness_OperandAssembly :
    decodeElement (byteAt [0xFD#8, 0xFF#8]) = .copy1 7#3 2047#11 ∧
    decodeElement (byteAt [0xFE#8, 0x02#8, 0xFF#8]) = .copy2 63#6 0xFF02#16 ∧
    decodeElement (byteAt [0x03#8, 0x04#8, 0x03#8, 0x02#8, 0x81#8]) = .copy4 0#6 0x81020304#32 ∧
    decodeElement (byteAt [0xF0#8, 0xFF#8]) = .litX1 255#8 ∧
    decodeElement (byteAt [0xF4#8, 0x02#8, 0xFF#8]) = .litX2 0xFF02#16 ∧
    decodeElement (byteAt [0xF8#8, 0x03#8, 0x02#8, 0x81#8]) = .litX3 0x810203#24 ∧
    decodeElement (byteAt [0xFC#8, 0xFF#8, 0xFF#8, 0xFF#8, 0xFF#8]) = .litX4 0xFFFFFFFF#32 ∧
    decodeElement (byteAt [0xEC#8]) = .lit 59#6 := by decide

/-- Each form ends exactly at IN_LEN and at `L`, with `offset = outPos`. -/
theorem witness_CopyFormsComplete :
    let s := abcState [0x05#8, 0x03#8] 8
    let t := abcState [0x12#8, 0x03#8, 0x00#8] 8
    let u := abcState [0x13#8, 0x03#8, 0x00#8, 0x00#8, 0x00#8] 8
    (s.dec.pos.toNat < s.inLen.toNat ∧ copyVerdict 1 ((1#3).toNat + 4) (3#11).toNat s = none) ∧
    (t.dec.pos.toNat < t.inLen.toNat ∧ copyVerdict 2 ((4#6).toNat + 1) (3#16).toNat t = none) ∧
    (u.dec.pos.toNat < u.inLen.toNat ∧ copyVerdict 4 ((4#6).toNat + 1) (3#32).toNat u = none) := by decide

/-- Every error of every form: an operand byte missing, offset 0, an offset one too large, one byte too many. -/
theorem witness_CopyFormsRaise :
    let s1 := abcState [0x05#8] 8
    let s2 := abcState [0x12#8, 0x03#8] 8
    let s4 := abcState [0x13#8, 0x03#8, 0x00#8, 0x00#8] 8
    let t := abcState [0x13#8, 0x03#8, 0x00#8, 0x00#8, 0x00#8] 7
    (∀ s ∈ [s1, s2, s4, t], s.dec.pos.toNat < s.inLen.toNat) ∧
    copyVerdict 1 ((1#3).toNat + 4) (3#11).toNat s1 = some .truncatedCopyOperand ∧
    copyVerdict 2 ((4#6).toNat + 1) (3#16).toNat s2 = some .truncatedCopyOperand ∧
    copyVerdict 4 ((4#6).toNat + 1) (3#32).toNat s4 = some .truncatedCopyOperand ∧
    copyVerdict 1 ((0#3).toNat + 4) (0#11).toNat t = some .invalidBackReference ∧
    copyVerdict 2 ((0#6).toNat + 1) (4#16).toNat t = some .invalidBackReference ∧
    copyVerdict 4 ((0#6).toNat + 1) (0xFFFFFFFF#32).toNat t = some .invalidBackReference ∧
    copyVerdict 1 ((1#3).toNat + 4) (3#11).toNat t = some .outputOverrun ∧
    copyVerdict 2 ((4#6).toNat + 1) (3#16).toNat t = some .outputOverrun ∧
    copyVerdict 4 ((4#6).toNat + 1) (3#32).toNat t = some .outputOverrun := by decide

/-- Each form with a payload that ends exactly at IN_LEN and at `L`. -/
theorem witness_LiteralFormsComplete :
    let s0 := abcState [0x00#8, 0x41#8] 4
    let s1 := abcState [0xF0#8, 0x00#8, 0x41#8] 4
    let s2 := abcState [0xF4#8, 0x00#8, 0x00#8, 0x41#8] 4
    let s3 := abcState [0xF8#8, 0x00#8, 0x00#8, 0x00#8, 0x41#8] 4
    let s4 := abcState [0xFC#8, 0x00#8, 0x00#8, 0x00#8, 0x00#8, 0x41#8] 4
    (∀ s ∈ [s0, s1, s2, s3, s4], s.dec.pos.toNat < s.inLen.toNat) ∧
    literalVerdict 0 ((0#6).toNat + 1) s0 = none ∧ literalVerdict 1 ((0#8).toNat + 1) s1 = none ∧
    literalVerdict 2 ((0#16).toNat + 1) s2 = none ∧ literalVerdict 3 ((0#24).toNat + 1) s3 = none ∧
    literalVerdict 4 ((0#32).toNat + 1) s4 = none := by decide

/-- Every error of every form: an extension byte missing, a payload byte missing (up to `len = 2^32`). -/
theorem witness_LiteralFormsRaise_input :
    let s := abcState [0xF0#8] 8
    let t := abcState [0xFC#8, 0x00#8, 0x00#8, 0x00#8, 0x00#8, 0x41#8] 3
    (s.dec.pos.toNat < s.inLen.toNat ∧ t.dec.pos.toNat < t.inLen.toNat) ∧
    literalVerdict 0 ((0#6).toNat + 1) s = some .truncatedLiteral ∧
    literalVerdict 1 ((0#8).toNat + 1) s = some .truncatedLiteral ∧
    literalVerdict 2 ((0#16).toNat + 1) s = some .truncatedLiteral ∧
    literalVerdict 3 ((0#24).toNat + 1) s = some .truncatedLiteral ∧
    literalVerdict 4 ((0#32).toNat + 1) s = some .truncatedLiteral ∧
    literalVerdict 4 ((0xFFFFFFFF#32).toNat + 1) t = some .truncatedLiteral := by decide

/-- One byte too many for `L`, in every form. -/
theorem witness_LiteralFormsRaise_output :
    let s := abcState [0xFC#8, 0x00#8, 0x00#8, 0x00#8, 0x00#8, 0x41#8] 3
    s.dec.pos.toNat < s.inLen.toNat ∧
    literalVerdict 0 ((0#6).toNat + 1) s = some .outputOverrun ∧
    literalVerdict 1 ((0#8).toNat + 1) s = some .outputOverrun ∧
    literalVerdict 2 ((0#16).toNat + 1) s = some .outputOverrun ∧
    literalVerdict 3 ((0#24).toNat + 1) s = some .outputOverrun ∧
    literalVerdict 4 ((0#32).toNat + 1) s = some .outputOverrun := by decide

/-- The fifth byte with the largest group that fits, and a header that declares exactly OUT_CAP bytes. -/
theorem witness_HeaderBytesComplete :
    let s := headerState [0x80#8, 0x80#8, 0x80#8, 0x80#8, 0x8F#8] 4 0
    let t := headerState [0xAC#8, 0x02#8] 1 0x2C
    (s.dec.vshift.toNat < 32 ∧ s.dec.pos.toNat < s.inLen.toNat ∧ (0x0F#7).toNat * 2 ^ s.dec.vshift.toNat < 2 ^ 32) ∧
    (t.dec.vshift.toNat < 32 ∧ t.dec.pos.toNat < t.inLen.toNat ∧ (2#7).toNat * 2 ^ t.dec.vshift.toNat < 2 ^ 32 ∧
      (t.dec.vres ||| BitVec.ofNat 32 ((2#7).toNat * 2 ^ t.dec.vshift.toNat)).toNat ≤ t.outCap.toNat) := by decide

/-- A sixth byte, an exhausted input, the smallest group that loses a bit, and a header that declares 301 bytes. -/
theorem witness_HeaderBytesRaise :
    (headerState (As 6) 5 0).dec.vshift.toNat ≥ 32 ∧
    (headerState [0x80#8] 1 0).dec.pos.toNat ≥ (headerState [0x80#8] 1 0).inLen.toNat ∧
    (0x10#7).toNat * 2 ^ (headerState (As 5) 4 0).dec.vshift.toNat ≥ 2 ^ 32 ∧
    (let t := headerState [0xAD#8, 0x02#8] 1 0x2D
     t.dec.vshift.toNat < 32 ∧ t.dec.pos.toNat < t.inLen.toNat ∧ (2#7).toNat * 2 ^ t.dec.vshift.toNat < 2 ^ 32 ∧
      (t.dec.vres ||| BitVec.ofNat 32 ((2#7).toNat * 2 ^ t.dec.vshift.toNat)).toNat > t.outCap.toNat) := by decide

theorem witness_VarintShape :
    2 ^ 32 - 1 < 2 ^ 32 ∧ (varintBytes (2 ^ 32 - 1)).length = 5 ∧ (varintBytes 128).length = 2 := by decide

theorem witness_VarintRoundTrip :
    let s := headerState [0xAC#8, 0x02#8, 0x41#8] 0 0
    s.phase = .dcmp .readHeader ∧ s.host = [] ∧ s.dec.pos = 0 ∧ s.dec.vres = 0 ∧ s.dec.vshift = 0 ∧
    (varintBytes 300).length ≤ s.inLen.toNat ∧ 300 ≤ s.outCap.toNat ∧
    (∀ j, j < (varintBytes 300).length → inByte s j = byteAt (varintBytes 300) j) := by decide

/-- The smallest length that does not fit OUT_CAP. -/
theorem witness_VarintRoundTrip_too_long :
    let s := headerState [0xAD#8, 0x02#8] 0 0
    s.phase = .dcmp .readHeader ∧ s.host = [] ∧ s.dec.pos = 0 ∧ s.dec.vres = 0 ∧ s.dec.vshift = 0 ∧
    (varintBytes 301).length ≤ s.inLen.toNat ∧ s.outCap.toNat < 301 ∧
    (∀ j, j < (varintBytes 301).length → inByte s j = byteAt (varintBytes 301) j) := by decide

theorem witness_VarintEncoderWrites :
    (127 < 128 ∧ 128 ≤ 128) ∧ (headerState [] 0 0).cmp.op.toNat + 5 < 2 ^ 32 := by decide

/-- A start is accepted from reset and from Failed. -/
theorem witness_StartsAccepted : State.reset.status.busy = false ∧ (failedState [] 0 0).status.busy = false := by
  decide

theorem witness_SetopStoresOp :
    (failedState [] 0 0).status.busy = false ∧ (0xFFFFFFFE#32).getLsbD 0 = false := by decide

theorem witness_CtrlIgnoredWhileBusy : (abcState [] 8).status.busy = true := by decide

/-- The lengths one above and exactly at what the checks allow, for both operations. -/
theorem witness_StartChecksInOrder :
    let c := fun (phase : Phase) (inLen outCap : Nat) => { failedState [] inLen outCap with phase := phase }
    (∀ s ∈ [c (.cmp .startChecks) 4097 0, c (.dcmp .startChecks) 4097 0, c (.cmp .startChecks) 0 4097,
        c (.dcmp .startChecks) 0 4097],
      (s.inLen.toNat > s.platform.inSize.toNat ∨ s.outCap.toNat > s.platform.outSize.toNat) ∧
      (s.phase = .cmp .startChecks ∨ s.phase = .dcmp .startChecks)) ∧
    (let s := c (.dcmp .startChecks) 4096 4096
     s.inLen.toNat ≤ s.platform.inSize.toNat ∧ s.outCap.toNat ≤ s.platform.outSize.toNat ∧
      s.phase = .dcmp .startChecks) ∧
    (let s := c (.cmp .startChecks) 100 147
     s.inLen.toNat ≤ s.platform.inSize.toNat ∧ s.outCap.toNat ≤ s.platform.outSize.toNat ∧
      s.phase = .cmp .startChecks ∧ s.outCap.toNat < 32 + s.inLen.toNat + s.inLen.toNat / 6) ∧
    (let s := c (.cmp .startChecks) 100 148
     s.inLen.toNat ≤ s.platform.inSize.toNat ∧ s.outCap.toNat ≤ s.platform.outSize.toNat ∧
      s.phase = .cmp .startChecks ∧ 32 + s.inLen.toNat + s.inLen.toNat / 6 ≤ s.outCap.toNat) := by decide

/-- The offsets at which the clauses meet, with `BUSY` 0 and 1. -/
theorem witness_RegisterReads :
    (∀ o ∈ [0x00, 0x04, 0x08, 0x0C, 0x10, 0x14, 0x1C], o < 32 ∧ o % 4 = 0) ∧ 0x14 ≤ 0x1C ∧
    (State.reset.status.busy = false ∧ State.reset.resultSeen = true) ∧ (abcState [] 8).status.busy = true ∧
    ({ failedState [] 0 0 with resultSeen := false }.status.busy = false ∧
      { failedState [] 0 0 with resultSeen := false }.resultSeen = false) := by decide

theorem witness_RegisterWrites :
    (∀ o ∈ [0x00, 0x04, 0x08, 0x0C, 0x10, 0x1C], o < 32 ∧ o % 4 = 0) ∧ 0x10 ≤ 0x1C ∧
    State.reset.status.busy = false ∧ (abcState [] 8).status.busy = true := by decide

/-- The last byte of each region, the narrow and the unaligned register access, and a busy machine. -/
theorem witness_RefusedAccesses :
    platformLegal (abcState [] 8).platform ∧ (31 < 32 ∧ ((1 : Nat) ≠ 4 ∨ 31 % 4 ≠ 0)) ∧
    (30 < 32 ∧ ((4 : Nat) ≠ 4 ∨ 30 % 4 ≠ 0)) ∧
    4095 < (abcState [] 8).platform.inSize.toNat ∧ 4095 < (abcState [] 8).platform.outSize.toNat ∧
    (4 : Nat) ≠ 1 ∧ (abcState [] 8).status.busy = true := by
  unfold platformLegal
  decide

/-- The end of an operation not seen yet. -/
theorem witness_RefusedAccesses_result :
    let s := { failedState [] 0 0 with resultSeen := false }
    platformLegal s.platform ∧ 4095 < s.platform.outSize.toNat ∧ s.status.busy = false ∧ s.resultSeen = false := by
  unfold platformLegal
  decide

theorem witness_MemoryAccessesWhileIdle :
    platformLegal State.reset.platform ∧ State.reset.status.busy = false ∧ State.reset.resultSeen = true ∧
    4095 < State.reset.platform.inSize.toNat ∧ 4095 < State.reset.platform.outSize.toNat := by
  unfold platformLegal
  decide

theorem witness_StepRunsDecoded :
    (let s := abcState [0x05#8, 0x03#8] 8
     s.host = [] ∧ s.phase = .dcmp .decodeLoop ∧ decode .element (fetchWindow s) = .ok (.copy1 1#3 3#11, [])) ∧
    (let s := headerState [0xAC#8, 0x02#8] 0 0
     s.host = [] ∧ s.phase = .dcmp .readHeader ∧
      decode .header (fetchWindow s) = .ok (.varintCont 0x2C#7, [0x02#8])) ∧
    (let s := { State.reset with host := [.access (.write 0 4 3#32), .poll] }
     s.host = .access (.write s.platform.regBase 4 3#32) :: [.poll] ∧
      decode .command (commandBytes 3#32) = .ok (.cmdDecompress 0#30, [])) := by decide

theorem witness_TruncatedStreamRaises :
    (let s := headerState [0x80#8] 1 0
     s.host = [] ∧ s.phase = .dcmp .readHeader ∧ s.inLen.toNat ≤ s.dec.pos.toNat) ∧
    (∀ s ∈ [abcState [0x13#8, 0x03#8, 0x00#8, 0x00#8] 8, abcState [0xFC#8, 0x00#8, 0x00#8, 0x00#8] 8],
      s.host = [] ∧ s.phase = .dcmp .decodeLoop ∧
      decode .element (fetchWindow s) = .error (.truncatedOperand 4)) := by decide

theorem witness_EndOfStream :
    (let s := abcState [] 3
     s.host = [] ∧ s.phase = .dcmp .decodeLoop ∧ s.dec.pos = s.inLen ∧ s.dec.outPos = s.dec.L) ∧
    (let s := abcState [] 4
     s.host = [] ∧ s.phase = .dcmp .decodeLoop ∧ s.dec.pos = s.inLen ∧ s.dec.outPos.toNat < s.dec.L.toNat) := by decide

theorem witness_IdleAndPoll :
    ((failedState [] 0 0).host = [] ∧ (failedState [] 0 0).phase = .idle) ∧
    (let s := { failedState [] 0 0 with host := [.poll, .reset] }
     s.host = .poll :: [.reset] ∧ s.status.busy = false) := by decide

/-- A reset while DECOMPRESS runs, and the first and last register. -/
theorem witness_ResetValues :
    { abcState [] 4 with host := [.reset, .poll] }.host = .reset :: [.poll] ∧
    (0 < 32 ∧ 0 % 4 = 0) ∧ (28 < 32 ∧ 28 % 4 = 0) := by decide

/-- A step of each of the five kinds: STATUS kept, a start, a Done, a Failed, a reset. -/
theorem witness_StatusWrittenOnlyBy :
    ∀ s ∈ [abcState [0x05#8, 0x03#8] 8, { State.reset with host := [.access (.write 0 4 1#32)] }, abcState [] 3,
        abcState [] 4, { abcState [] 4 with host := [.reset] }],
      seen (fun _ => ()) (step s) = some () := by decide

theorem witness_ErrOnlyByFailedEntry :
    let s := abcState [] 4
    seen (fun t => (s.status.err, t.status.err)) (engineStep s) = some (false, true) := by decide

/-- In Failed with a start pending, a reset pending, and nothing pending. -/
theorem witness_LeavingFailed :
    ∀ host ∈ [[], [.access (.write 0 4 1#32)], [HostAction.reset]],
      (Wf { failedState (As 2) 2 9 with host := host } ∧
        { failedState (As 2) 2 9 with host := host }.status.err = true) ∧
      seen (fun _ => ()) (step { failedState (As 2) 2 9 with host := host }) = some () := by
  unfold Wf statusLegal busyMatchesPhase platformLegal Table.below
  decide

theorem witness_CompressNeverFails :
    ∀ stage ∈ [CmpStage.header, .nextBlock, .probe, .accept, .extend, .adjacent, .tail],
      (blockState stage (As 16) 1 0 0).phase = .cmp stage ∧ stage ≠ .startChecks ∧
      seen (fun _ => ()) (engineStep (blockState stage (As 16) 1 0 0)) = some () := by decide

theorem witness_EngineLeavesHostState : seen (fun _ => ()) (engineStep (abcState [0x05#8, 0x03#8] 8)) = some () := by
  decide

/-- A write to IN_LEN pending while an operation runs, and a poll. -/
theorem witness_RunningOperationShielded :
    ∀ action ∈ [HostAction.access (.write 8 4 77#32), .poll, .pass],
      let s := { abcState [0x05#8, 0x03#8] 8 with host := [action] }
      s.status.busy = true ∧ action ≠ .reset ∧ seen (fun _ => ()) (step s) = some () := by decide

theorem witness_UnitsStayApart :
    seen (fun t => decide (t.phase ≠ .idle)) (engineStep (abcState [0x05#8, 0x03#8] 8)) = some true ∧
    seen (fun t => decide (t.phase ≠ .idle)) (engineStep (blockState .tail (As 14) 0 0 0)) = some true := by decide

theorem witness_ParserAdvances :
    ((headerState [0xAC#8, 0x02#8] 0 0).phase = .dcmp .readHeader ∧
      seen (fun t => t.dec.pos) (engineStep (headerState [0xAC#8, 0x02#8] 0 0)) = some 1#32) ∧
    ((abcState [0x05#8, 0x03#8] 8).phase = .dcmp .decodeLoop ∧
      seen (fun t => t.dec.pos) (engineStep (abcState [0x05#8, 0x03#8] 8)) = some 7#32) := by decide

/-- The lengths at which EMIT_LITERAL's forms meet. -/
theorem witness_EmitLiteralWrites :
    ∀ len ∈ [1, 60, 61, 255, 256, 65536],
      1 ≤ len ∧ len ≤ 65536 ∧ (blockState .accept (As 16) 1 0 0).cmp.op.toNat + len + 3 < 2 ^ 32 := by decide

/-- The lengths at which the chunking rules meet. -/
theorem witness_EmitCopyWrites :
    (4 ≤ 68 ∧ 68 ≤ 68) ∧ (64 < 65 ∧ 65 < 68) ∧ (64 < 67 ∧ 67 < 68) ∧ (4 ≤ 64 ∧ 64 ≤ 64) ∧
    (blockState .extend (As 16) 1 0 0).cmp.op.toNat + 68 < 2 ^ 32 := by decide

theorem witness_CopyElementCount : ∀ len ∈ [4, 64, 65, 67, 68, 131], 4 ≤ len := by decide

theorem witness_EncoderElementsDecode :
    (∀ offset ∈ [1, 2047, 2048, 65521], ∀ len ∈ [4, 11, 12, 64],
      1 ≤ offset ∧ offset ≤ 65521 ∧ 4 ≤ len ∧ len ≤ 64) ∧
    ∀ len ∈ [1, 60, 61, 255, 256, 65536], 1 ≤ len ∧ len ≤ 65536 := by decide

theorem witness_TableSizing : ∀ size ∈ [1, 16384, 65536], 1 ≤ size := by decide

/-- A block of 14 bytes and one of 15. -/
theorem witness_BlockStart :
    ∀ n ∈ [14, 15],
      let s := { blockState .nextBlock (As n) 0 0 0 with ht := [] }
      s.phase = .cmp .nextBlock ∧ s.cmp.bs.toNat < s.cmp.N.toNat := by decide

theorem compressInv_probe_hit : CompressInv (blockState .probe (As 16) 1 0 0) := by
  rw [compressInv_probe rfl]
  unfold SearchInv BlockInv
  decide

theorem compressInv_probe_miss : CompressInv (blockState .probe (rising 16) 1 0 0) := by
  rw [compressInv_probe rfl]
  unfold SearchInv BlockInv
  decide

theorem compressInv_probe_past : CompressInv (blockState .probe (As 16) 2 0 0) := by
  rw [compressInv_probe rfl]
  unfold SearchInv BlockInv
  decide

/-- Past the limit, a hit, and a miss. -/
theorem witness_ProbeStep :
    (let s := blockState .probe (As 16) 2 0 0
     CompressInv s ∧ s.phase = .cmp .probe ∧ s.cmp.ip.toNat > s.cmp.ipLimit.toNat) ∧
    (let s := blockState .probe (As 16) 1 0 0
     CompressInv s ∧ s.phase = .cmp .probe ∧ s.cmp.ip.toNat ≤ s.cmp.ipLimit.toNat ∧ eq32 s 1 0 = true) ∧
    (let s := blockState .probe (rising 16) 1 0 0
     CompressInv s ∧ s.phase = .cmp .probe ∧ s.cmp.ip.toNat ≤ s.cmp.ipLimit.toNat ∧ eq32 s 1 0 = false) :=
  ⟨⟨compressInv_probe_past, by decide⟩, ⟨compressInv_probe_hit, by decide⟩, ⟨compressInv_probe_miss, by decide⟩⟩

theorem witness_ExtendIsMaximal : MatchInv (blockState .extend (As 16) 1 0 0) := by
  unfold MatchInv SearchInv BlockInv
  decide

theorem compressInv_adjacent_limit : CompressInv (blockState .adjacent (As 32) 17 0 17) := by
  rw [compressInv_adjacent rfl]
  unfold SearchInv BlockInv
  decide

theorem compressInv_adjacent_run : CompressInv (blockState .adjacent (As 32) 16 0 16) := by
  rw [compressInv_adjacent rfl]
  unfold SearchInv BlockInv
  decide

theorem compressInv_adjacent_repeat : CompressInv (blockState .adjacent (rising 16 ++ rising 16) 16 0 16) := by
  rw [compressInv_adjacent rfl]
  unfold SearchInv BlockInv
  decide

theorem compressInv_adjacent_rising : CompressInv (blockState .adjacent (rising 32) 16 0 16) := by
  rw [compressInv_adjacent rfl]
  unfold SearchInv BlockInv
  decide

/-- At the limit; equal fingerprints, where the match at offset 1 succeeds; different ones, where the candidate
matches, and where it does not. -/
theorem witness_AdjacentStep :
    (let s := blockState .adjacent (As 32) 17 0 17
     CompressInv s ∧ s.phase = .cmp .adjacent ∧ s.cmp.ip.toNat ≥ s.cmp.ipLimit.toNat) ∧
    (let s := blockState .adjacent (As 32) 16 0 16
     CompressInv s ∧ s.phase = .cmp .adjacent ∧ s.cmp.ip.toNat < s.cmp.ipLimit.toNat ∧
      fingerprint s 15 = fingerprint s 16 ∧ eq32 s 16 15 = true) ∧
    (let s := blockState .adjacent (rising 16 ++ rising 16) 16 0 16
     CompressInv s ∧ s.phase = .cmp .adjacent ∧ s.cmp.ip.toNat < s.cmp.ipLimit.toNat ∧
      fingerprint s 15 ≠ fingerprint s 16 ∧ eq32 s 16 0 = true) ∧
    (let s := blockState .adjacent (rising 32) 16 0 16
     CompressInv s ∧ s.phase = .cmp .adjacent ∧ s.cmp.ip.toNat < s.cmp.ipLimit.toNat ∧
      fingerprint s 15 ≠ fingerprint s 16 ∧ eq32 s 16 0 = false) :=
  ⟨⟨compressInv_adjacent_limit, by decide⟩, ⟨compressInv_adjacent_run, by decide⟩,
   ⟨compressInv_adjacent_repeat, by decide⟩, ⟨compressInv_adjacent_rising, by decide⟩⟩

theorem compressInv_extend_run : CompressInv (blockState .extend (As 32) 16 0 16) := by
  rw [compressInv_extend rfl]
  unfold MatchInv SearchInv BlockInv
  decide

/-- A stage of each kind, a probe that goes on among them. -/
theorem witness_ScanAdvances :
    (CompressInv (blockState .probe (rising 16) 1 0 0) ∧
      seen (fun t => t.phase) (engineStep (blockState .probe (rising 16) 1 0 0)) = some (.cmp .probe)) ∧
    (CompressInv (blockState .extend (As 32) 16 0 16) ∧
      seen (fun t => t.phase) (engineStep (blockState .extend (As 32) 16 0 16)) = some (.cmp .adjacent)) ∧
    (CompressInv (blockState .adjacent (rising 32) 16 0 16) ∧
      seen (fun t => t.phase) (engineStep (blockState .adjacent (rising 32) 16 0 16)) = some (.cmp .probe)) :=
  ⟨⟨compressInv_probe_miss, by decide⟩, ⟨compressInv_extend_run, by decide⟩,
   ⟨compressInv_adjacent_rising, by decide⟩⟩

/-- Each stage; a tail with bytes left and one with none. -/
theorem witness_EmittingStages :
    (∀ stage ∈ [CmpStage.header, .accept, .extend, .tail, .nextBlock],
      (blockState stage (As 16) 1 0 0).phase = .cmp stage) ∧
    (blockState .tail (As 16) 1 0 15).cmp.nextEmit.toNat < (blockState .tail (As 16) 1 0 15).cmp.be.toNat ∧
    (blockState .tail (As 16) 1 0 16).cmp.be.toNat ≤ (blockState .tail (As 16) 1 0 16).cmp.nextEmit.toNat ∧
    (blockState .nextBlock [] 0 0 0).cmp.N.toNat ≤ (blockState .nextBlock [] 0 0 0).cmp.bs.toNat := by decide

theorem wf_abcState : Wf (abcState [0x05#8, 0x03#8] 8) := by
  unfold Wf statusLegal busyMatchesPhase platformLegal Table.below
  decide

/-- A running DECOMPRESS in the middle of its stream. -/
theorem witness_WfKept :
    Wf (abcState [0x05#8, 0x03#8] 8) ∧ seen (fun _ => ()) (step (abcState [0x05#8, 0x03#8] 8)) = some () :=
  ⟨wf_abcState, by decide⟩

theorem wf_headerState : Wf (headerState [0xAC#8, 0x02#8] 1 0x2C) := by
  unfold Wf statusLegal busyMatchesPhase platformLegal Table.below
  decide

theorem parserInv_headerState : ParserInv (headerState [0xAC#8, 0x02#8] 1 0x2C) := by
  rw [parserInv_readHeader rfl]
  unfold lengthsFit
  decide

theorem parserInv_abcState : ParserInv (abcState [0x05#8, 0x03#8] 8) := by
  rw [parserInv_decodeLoop rfl]
  unfold lengthsFit
  decide

/-- In the header and in DecodeLoop. -/
theorem witness_ParserInvKept :
    (let s := headerState [0xAC#8, 0x02#8] 1 0x2C
     Wf s ∧ ParserInv s ∧ seen (fun _ => ()) (step s) = some ()) ∧
    (let s := abcState [0x05#8, 0x03#8] 8
     Wf s ∧ ParserInv s ∧ seen (fun _ => ()) (step s) = some ()) :=
  ⟨⟨wf_headerState, parserInv_headerState, by decide⟩, ⟨wf_abcState, parserInv_abcState, by decide⟩⟩

theorem wf_blockStates :
    ∀ stage ∈ [CmpStage.probe, .extend, .adjacent], Wf (blockState stage (As 32) 16 0 16) := by
  unfold Wf statusLegal busyMatchesPhase platformLegal Table.below
  decide

/-- A match, and the adjacent step after it. -/
theorem witness_CompressInvKept :
    (let s := blockState .extend (As 32) 16 0 16
     Wf s ∧ CompressInv s ∧ seen (fun _ => ()) (step s) = some ()) ∧
    (let s := blockState .adjacent (As 32) 16 0 16
     Wf s ∧ CompressInv s ∧ seen (fun _ => ()) (step s) = some ()) :=
  ⟨⟨wf_blockStates _ (by decide), compressInv_extend_run, by decide⟩,
   ⟨wf_blockStates _ (by decide), compressInv_adjacent_run, by decide⟩⟩

/-- The whole invariant, while DECOMPRESS runs. -/
theorem runInv_abcState : RunInv (abcState [0x05#8, 0x03#8] 8) := by
  refine ⟨wf_abcState, parserInv_abcState, compressInv_dcmp rfl, outputInv_dcmp rfl, ?_⟩
  unfold Table.below
  decide

/-- The whole invariant, while COMPRESS probes. -/
theorem runInv_probe : RunInv (blockState .probe (As 16) 1 0 0) := by
  refine ⟨?_, parserInv_cmp rfl, compressInv_probe_hit, (outputInv_probe rfl).2 ?_, ?_⟩
  · unfold Wf statusLegal busyMatchesPhase platformLegal Table.below
    decide
  · unfold lengthsFit
    decide
  · unfold Table.below
    decide

/-- The whole invariant, before the end of a COMPRESS of one byte: 3 bytes of output stand, `bs = N`. -/
def endingState : State :=
  { blockState .nextBlock (As 1) 0 0 0 with
    outMem := listed [0x01#8, 0x00#8, 0x41#8]
    cmp := { CmpRegs.reset with N := 1, op := 3, bs := 1, be := 1, S := 1, bits := 1 } }

theorem runInv_endingState : RunInv endingState := by
  refine ⟨?_, parserInv_cmp rfl, (compressInv_nextBlock rfl).2 (by decide), (outputInv_nextBlock rfl).2 ?_, ?_⟩
  · unfold Wf statusLegal busyMatchesPhase platformLegal Table.below
    decide
  · unfold lengthsFit
    decide
  · unfold Table.below
    decide

theorem witness_RunInvKept :
    RunInv (blockState .probe (As 16) 1 0 0) ∧
    seen (fun _ => ()) (step (blockState .probe (As 16) 1 0 0)) = some () := ⟨runInv_probe, by decide⟩

theorem witness_CompressedSizeBound :
    RunInv endingState ∧ endingState.phase = .cmp .nextBlock ∧
    seen (fun t => (t.status.done, t.outLen)) (engineStep endingState) = some (true, 3#32) :=
  ⟨runInv_endingState, by decide⟩

/-- OUT_CAP is 300, OUT has 4096 bytes. -/
theorem witness_EngineWritesBelowOutCap :
    RunInv (abcState [0x05#8, 0x03#8] 8) ∧ (abcState [0x05#8, 0x03#8] 8).outCap.toNat ≤ 300 ∧
    seen (fun _ => ()) (engineStep (abcState [0x05#8, 0x03#8] 8)) = some () := ⟨runInv_abcState, by decide⟩

/-- The other input differs at IN_LEN. -/
theorem witness_EngineReadsBelowInLen :
    let s := abcState [0x05#8, 0x03#8] 8
    let other := listed (abcStream [0x05#8, 0x03#8] ++ [0x99#8])
    RunInv s ∧ (∀ a, a < s.inLen.toNat → inByte { s with inMem := other } a = inByte s a) ∧ other ≠ s.inMem ∧
    seen (fun _ => ()) (engineStep s) = some () := ⟨runInv_abcState, by decide⟩

/-- Slot 16 is the first that a block of 16 bytes does not use. -/
theorem witness_StaleHtNeverShows :
    let s := blockState .probe (As 16) 1 0 0
    let u := { s with ht := Table.write s.ht 16 0x1234#16 }
    s.phase = .cmp .probe ∧ CompressInv s ∧ SameButStaleHt s u ∧ u.ht ≠ s.ht ∧
    seen (fun _ => ()) (engineStep s) = some () := by
  refine ⟨rfl, compressInv_probe_hit, (sameButStaleHt_probe rfl).2 ⟨rfl, ?_⟩, by decide, by decide⟩
  decide

theorem witness_OperationsEnd :
    RunInv (blockState .probe (As 16) 1 0 0) ∧ (blockState .probe (As 16) 1 0 0).host = [] ∧
    (blockState .probe (As 16) 1 0 0).phase ≠ .idle := ⟨runInv_probe, by decide⟩

/-- An idle machine with one byte of input, and space for its compressed form. -/
def oneByte : State := failedState (As 1) 1 33

theorem witness_CompressIsTotal :
    RunInv oneByte ∧ AtRest oneByte ∧ oneByte.inLen.toNat ≤ oneByte.platform.inSize.toNat ∧
    oneByte.outCap.toNat ≤ oneByte.platform.outSize.toNat ∧
    32 + oneByte.inLen.toNat + oneByte.inLen.toNat / 6 ≤ oneByte.outCap.toNat := by
  refine ⟨⟨?_, parserInv_idle rfl, compressInv_idle rfl, outputInv_idle rfl, ?_⟩, ?_⟩
  · unfold Wf statusLegal busyMatchesPhase platformLegal Table.below
    decide
  · unfold Table.below
    decide
  · unfold AtRest
    decide

/-- The end of a COMPRESS of that byte. -/
def oneByteDone : State :=
  stateAfter (Host.Core.run Sys2Proof.core 5 (stateAfter (exec (.cmdCompress 0#30) oneByte)))

/-- An idle machine with the compressed stream as its input and space for one byte. -/
def oneByteStream : State := failedState [0x01#8, 0x00#8, 0x41#8] 3 1

theorem witness_RoundTrip :
    (Wf oneByte ∧ AtRest oneByte ∧ oneByte.inLen.toNat ≤ oneByte.platform.inSize.toNat ∧
      oneByte.outCap.toNat ≤ oneByte.platform.outSize.toNat ∧
      32 + oneByte.inLen.toNat + oneByte.inLen.toNat / 6 ≤ oneByte.outCap.toNat) ∧
    (∃ c, exec (.cmdCompress 0#30) oneByte = .next c ∧ Runs c oneByteDone) ∧ oneByteDone.phase = .idle ∧
    (Wf oneByteStream ∧ AtRest oneByteStream ∧ oneByteStream.inLen = oneByteDone.outLen ∧
      oneByteStream.inLen.toNat ≤ oneByteStream.platform.inSize.toNat ∧
      oneByteStream.outCap.toNat ≤ oneByteStream.platform.outSize.toNat ∧
      oneByte.inLen.toNat ≤ oneByteStream.outCap.toNat ∧
      ∀ a, a < oneByteDone.outLen.toNat → inByte oneByteStream a = outByte oneByteDone a) := by
  refine ⟨?_, ⟨_, rfl, 5, rfl⟩, by decide, ?_⟩
  · unfold Wf AtRest statusLegal busyMatchesPhase platformLegal Table.below
    decide
  · unfold Wf AtRest statusLegal busyMatchesPhase platformLegal Table.below
    decide

end Sys2Proof.Tests
end

section
/-! SUPPORT. Who writes STATUS (10_state.md R30): what each engine step leaves in STATUS, and the obligation on it. -/

namespace Sys2Proof.Machine

/-! ## STATUS across the operations that keep it -/

@[simp] theorem emitBytes_status (bytes : List Byte) (s : State) : (emitBytes bytes s).status = s.status := by
  rw [emitBytes_frame]

@[simp] theorem emitLiteral_status (src len : Nat) (s : State) : (emitLiteral src len s).status = s.status := by
  rw [emitLiteral_frame]

@[simp] theorem emitCopy_status (offset len : Nat) (s : State) : (emitCopy offset len s).status = s.status := by
  rw [emitCopy_frame]

@[simp] theorem beginBlock_status (size : Nat) (s : State) : (beginBlock size s).status = s.status := by
  unfold beginBlock
  dsimp only
  split <;> rfl

@[simp] theorem regWrite_status (offset : Nat) (w : Word) (s : State) : (regWrite offset w s).status = s.status := by
  unfold regWrite
  split_ifs <;> rfl

/-- No host access but a CTRL write changes STATUS (R125, R133). -/
theorem hostAccess_status {a : HostAccess} {s t : State} (h : hostAccess a s = .next t) : t.status = s.status := by
  rcases hostAccess_cases h with ⟨offset, rfl⟩ | ⟨offset, w, rfl⟩ | ⟨-, v, rfl⟩ | ⟨-, x, v, -, rfl⟩ | ⟨-, x, v, -, rfl⟩
  · exact regRead_status offset s
  · exact regWrite_status offset w s
  · rfl
  · rfl
  · exact writeOut_status s x v

/-! ## DECOMPRESS: each element and header byte keeps STATUS or is the Failed entry -/

/-- `t` has the STATUS of `s`, or is the Failed entry of `s` for one of the nine kinds (R135). -/
def KeepsStatusOrFails (s t : State) : Prop := t.status = s.status ∨ ∃ e, FailedEntry e s t

/-- A raise of a kind that comes before the first OUT write is a Failed entry of the state before any assignment to
the parser registers, `L` included (R102, R135). -/
theorem raise_dec_failedEntry_of_not_inDecodeLoop {e : ErrKind} (he : e.inDecodeLoop = false) (s : State)
    (d : DecRegs) : FailedEntry e s (raise e { s with dec := d }) := by
  obtain ⟨hstatus, hlen, hphase, -, hout, -⟩ := raise_failedEntry e { s with dec := d }
  exact ⟨hstatus, hlen, hphase, fun a _ => hout he a, hout, rfl⟩

theorem literalPayload_keepsStatusOrFails (len : Nat) {s : State} {d : DecRegs} (hL : d.L = s.dec.L) :
    KeepsStatusOrFails s (literalPayload len { s with dec := d }) := by
  unfold literalPayload
  split_ifs
  · exact .inr ⟨_, raise_dec_failedEntry _ s d hL⟩
  · exact .inr ⟨_, raise_dec_failedEntry _ s d hL⟩
  · exact .inl rfl

theorem literalExtended_keepsStatusOrFails (k len : Nat) {s : State} {d : DecRegs} (hL : d.L = s.dec.L) :
    KeepsStatusOrFails s (literalExtended k len { s with dec := d }) := by
  unfold literalExtended
  split_ifs
  · exact .inr ⟨_, raise_dec_failedEntry _ s _ hL⟩
  · exact literalPayload_keepsStatusOrFails len hL

theorem copyChecked_keepsStatusOrFails (offset len : Nat) {s : State} {d : DecRegs} (hL : d.L = s.dec.L) :
    KeepsStatusOrFails s (copyChecked offset len { s with dec := d }) := by
  unfold copyChecked
  split_ifs
  · exact .inr ⟨_, raise_dec_failedEntry _ s d hL⟩
  · exact .inr ⟨_, raise_dec_failedEntry _ s d hL⟩
  · exact .inl rfl

theorem copyElement_keepsStatusOrFails (k len offset : Nat) {s : State} {d : DecRegs} (hL : d.L = s.dec.L) :
    KeepsStatusOrFails s (copyElement k len offset { s with dec := d }) := by
  unfold copyElement
  split_ifs
  · exact .inr ⟨_, raise_dec_failedEntry _ s _ hL⟩
  · exact copyChecked_keepsStatusOrFails offset len hL

/-- A tag element keeps STATUS or fails (R105, R112 to R114). -/
theorem exec_element_keepsStatusOrFails {i : Instr} (hi : i.context = .element) {s t : State}
    (h : exec i s = .next t) : KeepsStatusOrFails s t := by
  obtain ⟨u, hu, hcases⟩ := exec_element_cases hi s
  obtain rfl : u = t := Host.Outcome.next.inj (hu.symm.trans h)
  rcases hcases with ⟨len, rfl⟩ | ⟨k, len, -, rfl⟩ | ⟨k, len, offset, -, rfl⟩
  · exact literalPayload_keepsStatusOrFails len rfl
  · exact literalExtended_keepsStatusOrFails k len rfl
  · exact copyElement_keepsStatusOrFails k len offset rfl

/-- Taking a header byte's group changes the parser registers alone (R67). -/
theorem takeGroup_some {g : BitVec 7} {s u : State} (h : takeGroup g s = some u) :
    ∃ d, u = { s with dec := d } := by
  unfold takeGroup at h
  split_ifs at h
  exact ⟨_, (Option.some.inj h).symm⟩

theorem enterDecodeLoop_keepsStatusOrFails (s : State) (d : DecRegs) :
    KeepsStatusOrFails s (enterDecodeLoop { s with dec := d }) := by
  unfold enterDecodeLoop
  split_ifs
  · exact .inr ⟨_, raise_dec_failedEntry_of_not_inDecodeLoop rfl s _⟩
  · exact .inl rfl

/-- A header byte keeps STATUS or fails (R67, R102). -/
theorem exec_decodeHeader_keepsStatusOrFails {c : Byte} {s t : State} (h : exec (decodeHeader c) s = .next t) :
    KeepsStatusOrFails s t := by
  obtain ⟨t', ht', hcases⟩ := exec_decodeHeader_cases c s
  obtain rfl : t' = t := Host.Outcome.next.inj (ht'.symm.trans h)
  rcases hcases with rfl | ⟨g, u, hu, hnext⟩
  · exact .inr ⟨_, raise_failedEntry _ s⟩
  · obtain ⟨d, rfl⟩ := takeGroup_some hu
    rcases hnext with rfl | rfl
    · exact .inl rfl
    · exact enterDecodeLoop_keepsStatusOrFails s d

theorem startDecompress_keepsStatusOrFails (s : State) : KeepsStatusOrFails s (startDecompress s) := by
  unfold startDecompress
  split_ifs
  · exact .inr ⟨_, raise_failedEntry _ s⟩
  · exact .inl rfl

/-- DecodeLoop ends in Done when the output is complete, and in Failed otherwise (R119). -/
theorem endOfStream_cases (s : State) :
    DoneEnd s.dec.L s (endOfStream s) ∨ FailedEntry .outputUnderrun s (endOfStream s) := by
  unfold endOfStream
  split_ifs
  · exact .inl ⟨rfl, rfl, rfl, rfl⟩
  · exact .inr (raise_failedEntry _ s)

/-! ## COMPRESS: STATUS is kept but at the start checks and at the end -/

theorem startCompress_keepsStatusOrFails (s : State) : KeepsStatusOrFails s (startCompress s) := by
  unfold startCompress
  split_ifs
  · exact .inr ⟨_, raise_failedEntry _ s⟩
  · exact .inr ⟨_, raise_failedEntry _ s⟩
  · exact .inl rfl

@[simp] theorem writeHeader_status (s : State) : (writeHeader s).status = s.status := by
  simp [writeHeader]

@[simp] theorem probe_status (s : State) : (probe s).status = s.status := by
  unfold probe
  dsimp only
  split_ifs <;> simp

@[simp] theorem acceptMatch_status (s : State) : (acceptMatch s).status = s.status := by
  simp [acceptMatch]

@[simp] theorem extendAndEmit_status (s : State) : (extendAndEmit s).status = s.status := by
  simp [extendAndEmit, extendMatch]

@[simp] theorem adjacent_status (s : State) : (adjacent s).status = s.status := by
  unfold adjacent
  dsimp only
  split_ifs <;> simp

@[simp] theorem blockTail_status (s : State) : (blockTail s).status = s.status := by
  unfold blockTail
  dsimp only
  split_ifs <;> simp

/-- The head of the block loop goes on, or is the end in Done with `OUT_LEN = op` (R95, R131). -/
theorem nextBlock_status_cases (s : State) :
    (nextBlock s).status = s.status ∨ DoneEnd s.cmp.op s (nextBlock s) := by
  unfold nextBlock
  split_ifs
  · exact .inl (beginBlock_status _ s)
  · exact .inr ⟨rfl, rfl, rfl, rfl⟩

/-- A stage of COMPRESS keeps STATUS, ends in Done, or is the start checks failing (R95, R129, R134). -/
theorem compressStep_status_cases (stage : CmpStage) (s : State) :
    (compressStep stage s).status = s.status ∨ (∃ n, DoneEnd n s (compressStep stage s)) ∨
    (stage = .startChecks ∧ ∃ e, FailedEntry e s (compressStep stage s)) := by
  cases stage with
  | startChecks => exact (startCompress_keepsStatusOrFails s).imp_right fun hfail => .inr ⟨rfl, hfail⟩
  | header => exact .inl (writeHeader_status s)
  | nextBlock => exact (nextBlock_status_cases s).imp_right fun hdone => .inl ⟨_, hdone⟩
  | probe => exact .inl (probe_status s)
  | accept => exact .inl (acceptMatch_status s)
  | extend => exact .inl (extendAndEmit_status s)
  | adjacent => exact .inl (adjacent_status s)
  | tail => exact .inl (blockTail_status s)

/-! ## The engine, the host, and the obligation -/

/-- IDLE the engine takes no step (R146, R149). -/
theorem engineStep_idle {s : State} (h : s.phase = .idle) : engineStep s = .next s := by
  simp only [engineStep, h]

/-- An engine step keeps STATUS, or is the end in Done (R131) or in Failed (R135). -/
theorem engineStep_status_cases {s t : State} (h : engineStep s = .next t) :
    t.status = s.status ∨ (∃ n, DoneEnd n s t) ∨ ∃ e, FailedEntry e s t := by
  unfold engineStep at h
  split at h
  case h_1 =>
    cases h
    exact .inl rfl
  case h_2 stage _ =>
    cases h
    exact (compressStep_status_cases stage s).imp_right (.imp_right And.right)
  case h_3 =>
    cases h
    exact (startDecompress_keepsStatusOrFails s).imp_right .inr
  case h_4 =>
    split_ifs at h
    · exact (exec_decodeHeader_keepsStatusOrFails h).imp_right .inr
    · cases h
      exact .inr (.inr ⟨_, raise_failedEntry _ s⟩)
  case h_5 =>
    split_ifs at h
    · exact (exec_element_keepsStatusOrFails (decodeElement_context _) h).imp_right .inr
    · cases h
      exact .inr ((endOfStream_cases s).imp (⟨_, ·⟩) (⟨_, ·⟩))

/-- What an engine step leaves in STATUS and the phase: STATUS as it was, or IDLE entered with the STATUS of Done or
of Failed (R30). -/
theorem engineStep_status {s t : State} (h : engineStep s = .next t) :
    t.status = s.status ∨
    (s.phase ≠ .idle ∧ t.phase = .idle ∧ t.status = statusDone) ∨
    (s.phase ≠ .idle ∧ t.phase = .idle ∧ ∃ e, t.status = statusFailed e) := by
  by_cases hidle : s.phase = .idle
  · exact .inl (by cases (engineStep_idle hidle).symm.trans h; rfl)
  · rcases engineStep_status_cases h with hkept | ⟨n, hstatus, -, hphase, -⟩ | ⟨e, hstatus, -, hphase, -⟩
    · exact .inl hkept
    · exact .inr (.inl ⟨hidle, hphase, hstatus⟩)
    · exact .inr (.inr ⟨hidle, hphase, e, hstatus⟩)

/-- A bus access of the host keeps STATUS, or is a CTRL write with `START = 1` that is accepted (R125, R127). -/
theorem accessStep_status_cases {a : HostAccess} {s t : State} (h : accessStep a s = .next t) :
    t.status = s.status ∨
    (s.status.busy = false ∧
      ∃ w, ctrlWrite s.platform a = some w ∧ w.getLsbD 0 = true ∧ t = acceptStart (w.getLsbD 1) s) := by
  rcases accessStep_cases h with ⟨w, hw, hexec⟩ | ⟨-, haccess⟩
  · rcases exec_decodeCommand_cases hexec with ⟨-, rfl⟩ | ⟨hbusy, hstart, rfl⟩ | ⟨-, -, rfl⟩
    · exact .inl rfl
    · exact .inr ⟨hbusy, w, hw, hstart, rfl⟩
    · exact .inl rfl
  · exact .inl (hostAccess_status haccess)

/-- Settles O29: the host's next action is an access, which writes STATUS only by an accepted start, a poll, which
leaves it, or reset; every other step is an engine step, which writes it only by ending the operation. -/
theorem statusWrittenOnlyBy : Obligations.StatusWrittenOnlyBy := by
  unfold Obligations.StatusWrittenOnlyBy
  intro s t h
  rcases step_cases h with ⟨-, hengine⟩ | ⟨rest, -, hengine⟩ | ⟨rest, -, -, hengine⟩ | ⟨rest, -, -, rfl⟩ |
    ⟨a, rest, hhost, haccess⟩ | ⟨rest, hhost, rfl⟩
  · exact (engineStep_status hengine).imp_right fun hend => .inr (hend.imp_right .inl)
  · exact (engineStep_status hengine).imp_right fun hend => .inr (hend.imp_right .inl)
  · exact (engineStep_status hengine).imp_right fun hend => .inr (hend.imp_right .inl)
  · exact .inl rfl
  · rcases accessStep_status_cases haccess with hkept | ⟨hbusy, w, hw, hstart, rfl⟩
    · exact .inl hkept
    · exact .inr (.inl ⟨hbusy, rfl, a, rest, w, hhost, hw, hstart, rfl, rfl⟩)
  · exact .inr (.inr (.inr (.inr ⟨⟨rest, hhost⟩, rfl⟩)))

end Sys2Proof.Machine
end

section
/-! SUPPORT. How the operands of a tag element are formed (30_encoding.md R55): the decoder's cases, what its bit
fields and byte strings are as numbers, and the obligation on them. -/

namespace Sys2Proof

/-! ## Bit fields and byte strings as numbers -/

/-- Bytes put below a value are added to it scaled (R32): the step from a byte to a little-endian number. -/
theorem toNat_append_eq_add {m n : Nat} (high : BitVec m) (low : BitVec n) :
    (high ++ low).toNat = low.toNat + high.toNat * 2 ^ n := by
  rw [BitVec.toNat_append, ← Nat.shiftLeft_add_eq_or_of_lt low.isLt, Nat.shiftLeft_eq, Nat.add_comm]

/-- Bits `lo + n - 1 .. lo` as a number. -/
theorem toNat_extractLsb'_eq_div_mod {w : Nat} (v : BitVec w) (lo n : Nat) :
    (v.extractLsb' lo n).toNat = v.toNat / 2 ^ lo % 2 ^ n := by
  rw [BitVec.extractLsb'_toNat, Nat.shiftRight_eq_div_pow]

/-- `tag[1:0]`, the form of R49. -/
theorem tag_form_eq_iff (tag : Byte) (form : BitVec 2) :
    tag.extractLsb' 0 2 = form ↔ tag.toNat % 4 = form.toNat := by
  simp [← BitVec.toNat_inj]

/-- `tag[7:2]`, the length field of every form but COPY1. -/
theorem tag_field_toNat (tag : Byte) : (tag.extractLsb' 2 6).toNat = tag.toNat / 4 := by
  rw [toNat_extractLsb'_eq_div_mod]
  omega

theorem toNat_two_bytes (b : Nat → Byte) : (b 2 ++ b 1).toNat = (b 1).toNat + (b 2).toNat * 2 ^ 8 :=
  toNat_append_eq_add _ _

theorem toNat_three_bytes (b : Nat → Byte) :
    (b 3 ++ b 2 ++ b 1).toNat = (b 1).toNat + (b 2).toNat * 2 ^ 8 + (b 3).toNat * 2 ^ 16 := by
  simp only [toNat_append_eq_add]
  omega

theorem toNat_four_bytes (b : Nat → Byte) :
    (b 4 ++ b 3 ++ b 2 ++ b 1).toNat =
      (b 1).toNat + (b 2).toNat * 2 ^ 8 + (b 3).toNat * 2 ^ 16 + (b 4).toNat * 2 ^ 24 := by
  simp only [toNat_append_eq_add]
  omega

/-! ## The decoder by cases, and the operands of each case -/

/-- The eight forms of R56, each with the tags that select it and the element they give. -/
theorem decodeElement_cases (b : Nat → Byte) :
    ((b 0).toNat % 4 = 1 ∧
      decodeElement b = .copy1 ((b 0).extractLsb' 2 3) ((b 0).extractLsb' 5 3 ++ b 1)) ∨
    ((b 0).toNat % 4 = 2 ∧ decodeElement b = .copy2 ((b 0).extractLsb' 2 6) (b 2 ++ b 1)) ∨
    ((b 0).toNat % 4 = 3 ∧ decodeElement b = .copy4 ((b 0).extractLsb' 2 6) (b 4 ++ b 3 ++ b 2 ++ b 1)) ∨
    (b 0 = 0xF0#8 ∧ decodeElement b = .litX1 (b 1)) ∨
    (b 0 = 0xF4#8 ∧ decodeElement b = .litX2 (b 2 ++ b 1)) ∨
    (b 0 = 0xF8#8 ∧ decodeElement b = .litX3 (b 3 ++ b 2 ++ b 1)) ∨
    (b 0 = 0xFC#8 ∧ decodeElement b = .litX4 (b 4 ++ b 3 ++ b 2 ++ b 1)) ∨
    ((b 0).toNat % 4 = 0 ∧ (b 0).toNat / 4 ≤ 59 ∧ decodeElement b = .lit ((b 0).extractLsb' 2 6)) := by
  unfold decodeElement
  dsimp only
  split_ifs with h1 h2 h3 hX1 hX2 hX3 hX4
  · exact .inl ⟨(tag_form_eq_iff _ _).1 h1, rfl⟩
  · exact .inr (.inl ⟨(tag_form_eq_iff _ _).1 h2, rfl⟩)
  · exact .inr (.inr (.inl ⟨(tag_form_eq_iff _ _).1 h3, rfl⟩))
  · exact .inr (.inr (.inr (.inl ⟨hX1, rfl⟩)))
  · exact .inr (.inr (.inr (.inr (.inl ⟨hX2, rfl⟩))))
  · exact .inr (.inr (.inr (.inr (.inr (.inl ⟨hX3, rfl⟩)))))
  · exact .inr (.inr (.inr (.inr (.inr (.inr (.inl ⟨hX4, rfl⟩))))))
  · have hform : (b 0).toNat % 4 = 0 := by
      simp only [tag_form_eq_iff, BitVec.toNat_ofNat] at h1 h2 h3
      omega
    have hfield : (b 0).toNat / 4 ≤ 59 := by
      by_contra hlong
      rw [← tag_field_toNat] at hlong
      rcases tag_long_literal (b 0) ((tag_form_eq_iff _ _).2 hform) (by omega) with h | h | h | h
      exacts [hX1 h, hX2 h, hX3 h, hX4 h]
    exact .inr (.inr (.inr (.inr (.inr (.inr (.inr ⟨hform, hfield, rfl⟩))))))

/-- The `len` and `offset` columns of R55: what the operands of an element are, from the tag and the bytes after it. -/
def Instr.OperandsFrom (b : Nat → Byte) : Instr → Prop
  | .copy1 f o =>
    Machine.lenMinus4 f = (b 0).toNat / 4 % 8 + 4 ∧ o.toNat = (b 1).toNat + (b 0).toNat / 32 * 256
  | .copy2 f o =>
    Machine.lenMinus1 f = (b 0).toNat / 4 + 1 ∧ o.toNat = (b 1).toNat + (b 2).toNat * 2 ^ 8
  | .copy4 f o =>
    Machine.lenMinus1 f = (b 0).toNat / 4 + 1 ∧
    o.toNat = (b 1).toNat + (b 2).toNat * 2 ^ 8 + (b 3).toNat * 2 ^ 16 + (b 4).toNat * 2 ^ 24
  | .litX1 f => Machine.lenMinus1 f = (b 1).toNat + 1
  | .litX2 f => Machine.lenMinus1 f = (b 1).toNat + (b 2).toNat * 2 ^ 8 + 1
  | .litX3 f => Machine.lenMinus1 f = (b 1).toNat + (b 2).toNat * 2 ^ 8 + (b 3).toNat * 2 ^ 16 + 1
  | .litX4 f =>
    Machine.lenMinus1 f =
      (b 1).toNat + (b 2).toNat * 2 ^ 8 + (b 3).toNat * 2 ^ 16 + (b 4).toNat * 2 ^ 24 + 1
  | .lit f => Machine.lenMinus1 f = (b 0).toNat / 4 + 1
  | .varintCont _ | .varintLast _ => False
  | .cmdCompress _ | .cmdDecompress _ | .ctrlSetop _ _ => False

theorem copy1_len (tag : Byte) : Machine.lenMinus4 (tag.extractLsb' 2 3) = tag.toNat / 4 % 8 + 4 :=
  congrArg (· + 4) (toNat_extractLsb'_eq_div_mod tag 2 3)

theorem copy1_offset (tag low : Byte) :
    (tag.extractLsb' 5 3 ++ low).toNat = low.toNat + tag.toNat / 32 * 256 := by
  rw [toNat_append_eq_add, toNat_extractLsb'_eq_div_mod]
  omega

theorem tag_field_len (tag : Byte) : Machine.lenMinus1 (tag.extractLsb' 2 6) = tag.toNat / 4 + 1 :=
  congrArg (· + 1) (tag_field_toNat tag)

/-- R55 for every form: what the decoder reads has the operands of its row. -/
theorem operandsFrom_of_decodeElement_eq {b : Nat → Byte} {i : Instr} (hi : decodeElement b = i) :
    i.OperandsFrom b := by
  subst hi
  rcases decodeElement_cases b with ⟨-, h⟩ | ⟨-, h⟩ | ⟨-, h⟩ | ⟨-, h⟩ | ⟨-, h⟩ | ⟨-, h⟩ | ⟨-, h⟩ |
    ⟨-, -, h⟩ <;> rw [h]
  · exact ⟨copy1_len _, copy1_offset _ _⟩
  · exact ⟨tag_field_len _, toNat_two_bytes b⟩
  · exact ⟨tag_field_len _, toNat_four_bytes b⟩
  · exact rfl
  · exact congrArg (· + 1) (toNat_two_bytes b)
  · exact congrArg (· + 1) (toNat_three_bytes b)
  · exact congrArg (· + 1) (toNat_four_bytes b)
  · exact tag_field_len _

/-- The `k` column of R55, after the tag: 1, 2 and 4 operand bytes of the copies, and the `tag[7:2] - 59` extension
bytes of a literal, none when the field is at most 59. -/
theorem decodeElement_encodedBytes (b : Nat → Byte) :
    (decodeElement b).encodedBytes =
      1 + (if (b 0).toNat % 4 = 1 then 1 else if (b 0).toNat % 4 = 2 then 2 else if (b 0).toNat % 4 = 3 then 4
           else (b 0).toNat / 4 - 59) := by
  rcases decodeElement_cases b with ⟨ht, h⟩ | ⟨ht, h⟩ | ⟨ht, h⟩ | ⟨ht, h⟩ | ⟨ht, h⟩ | ⟨ht, h⟩ | ⟨ht, h⟩ |
    ⟨ht, hle, h⟩
  on_goal 8 => simp [h, ht, Nat.sub_eq_zero_of_le hle, Instr.encodedBytes]
  all_goals simp [h, ht, Instr.encodedBytes]

/-- Settles O4: each form's clause is its row of R55, and the last clause is the column of byte counts. -/
theorem operandAssembly : Obligations.OperandAssembly := by
  unfold Obligations.OperandAssembly
  intro b
  exact ⟨fun _ _ h => operandsFrom_of_decodeElement_eq h, fun _ _ h => operandsFrom_of_decodeElement_eq h,
    fun _ _ h => operandsFrom_of_decodeElement_eq h, fun _ h => operandsFrom_of_decodeElement_eq h,
    fun _ h => operandsFrom_of_decodeElement_eq h, fun _ h => operandsFrom_of_decodeElement_eq h,
    fun _ h => operandsFrom_of_decodeElement_eq h, fun _ h => operandsFrom_of_decodeElement_eq h,
    decodeElement_encodedBytes b⟩

end Sys2Proof
end

section
/-! SUPPORT. The varint encoder (40_varint.md R64, R65): where emission puts its bytes (10_state.md R11), the bytes of
a varint by cases, and the obligation on them. -/

namespace Sys2Proof.Machine

/-! ## Emission at the output cursor -/

@[simp] theorem byteAt_cons_zero (b : Byte) (bytes : List Byte) : byteAt (b :: bytes) 0 = b := rfl

@[simp] theorem byteAt_cons_succ (b : Byte) (bytes : List Byte) (j : Nat) :
    byteAt (b :: bytes) (j + 1) = byteAt bytes j := rfl

/-- A read of OUT after one `Emit` (R11, R41). -/
theorem outByte_emit (b : Byte) (s : State) (x : Nat) :
    outByte (emit b s) x = if x = s.cmp.op.toNat then b else outByte s x :=
  outByteOf_write s.epoch s.outMem s.cmp.op.toNat x b

/-- The cursor after `Emit`, short of its wrap-around (R11). -/
theorem emit_op_toNat (b : Byte) {s : State} (h : s.cmp.op.toNat + 1 < 2 ^ 32) :
    (emit b s).cmp.op.toNat = s.cmp.op.toNat + 1 :=
  BitVec.toNat_add_of_lt h

/-- Emission moves the cursor past the bytes, short of its wrap-around (R11). -/
theorem emitBytes_op_toNat {bytes : List Byte} {s : State} (h : s.cmp.op.toNat + bytes.length < 2 ^ 32) :
    (emitBytes bytes s).cmp.op.toNat = s.cmp.op.toNat + bytes.length := by
  rw [emitBytes_frame]
  simp only [BitVec.toNat_add, BitVec.toNat_ofNat]
  omega

/-- Emission leaves the bytes at the cursor and on, and every other byte of OUT as it was (R11). -/
theorem outByte_emitBytes (bytes : List Byte) :
    ∀ {s : State} (x : Nat), s.cmp.op.toNat + bytes.length < 2 ^ 32 →
      outByte (emitBytes bytes s) x =
        if s.cmp.op.toNat ≤ x ∧ x < s.cmp.op.toNat + bytes.length then byteAt bytes (x - s.cmp.op.toNat)
        else outByte s x := by
  induction bytes with
  | nil =>
    intro s x _
    rw [emitBytes, if_neg (by simp)]
  | cons b bytes ih =>
    intro s x h
    rw [List.length_cons] at h ⊢
    have hop : (emit b s).cmp.op.toNat = s.cmp.op.toNat + 1 := emit_op_toNat b (by omega)
    rw [emitBytes, ih x (by omega), hop, outByte_emit]
    by_cases hfirst : x = s.cmp.op.toNat
    · subst hfirst
      rw [if_neg (by omega), if_pos rfl, if_pos (by omega), Nat.sub_self, byteAt_cons_zero]
    · by_cases hrest : s.cmp.op.toNat + 1 ≤ x ∧ x < s.cmp.op.toNat + 1 + bytes.length
      · have hindex : x - s.cmp.op.toNat = x - (s.cmp.op.toNat + 1) + 1 := by omega
        rw [if_pos hrest, if_pos (by omega), hindex, byteAt_cons_succ]
      · rw [if_neg hrest, if_neg hfirst, if_neg (by omega)]

theorem outByte_emitBytes_range {bytes : List Byte} {s : State} (h : s.cmp.op.toNat + bytes.length < 2 ^ 32)
    {j : Nat} (hj : j < bytes.length) :
    outByte (emitBytes bytes s) (s.cmp.op.toNat + j) = byteAt bytes j := by
  rw [outByte_emitBytes bytes _ h, if_pos (by omega), Nat.add_sub_cancel_left]

theorem outByte_emitBytes_other {bytes : List Byte} {s : State} (h : s.cmp.op.toNat + bytes.length < 2 ^ 32)
    {a : Nat} (ha : a < s.cmp.op.toNat ∨ s.cmp.op.toNat + bytes.length ≤ a) :
    outByte (emitBytes bytes s) a = outByte s a := by
  rw [outByte_emitBytes bytes _ h, if_neg (by omega)]

/-! ## The bytes of a varint -/

/-- R64: the last group stands alone, without the continuation bit. -/
theorem varintLoop_of_lt (fuel : Nat) {v : Nat} (hv : v < 128) : varintLoop fuel v = [BitVec.ofNat 8 v] := by
  cases fuel <;> simp [varintLoop, Nat.div_eq_of_lt hv, Nat.mod_eq_of_lt hv]

/-- R64: a group with higher bits above it carries the continuation bit, and the loop goes on with those bits. -/
theorem varintLoop_succ_of_le (fuel : Nat) {v : Nat} (hv : 128 ≤ v) :
    varintLoop (fuel + 1) v = BitVec.ofNat 8 (v % 128 + 128) :: varintLoop fuel (v / 128) :=
  if_pos (by omega)

theorem varintLoop_length_le (fuel : Nat) : ∀ v : Nat, (varintLoop fuel v).length ≤ fuel + 1 := by
  induction fuel with
  | zero => exact fun _ => Nat.le_refl 1
  | succ fuel ih =>
    intro v
    rcases Nat.lt_or_ge v 128 with hlt | hle
    · simp [varintLoop_of_lt _ hlt]
    · rw [varintLoop_succ_of_le fuel hle]
      exact Nat.succ_le_succ (ih _)

/-- Fuel beyond what the groups of the value need changes nothing. -/
theorem varintLoop_succ_fuel (fuel : Nat) :
    ∀ v : Nat, v < 128 ^ (fuel + 1) → varintLoop (fuel + 1) v = varintLoop fuel v := by
  induction fuel with
  | zero => exact fun v hv => (varintLoop_of_lt 1 hv).trans (varintLoop_of_lt 0 hv).symm
  | succ fuel ih =>
    intro v hv
    rcases Nat.lt_or_ge v 128 with hlt | hle
    · rw [varintLoop_of_lt _ hlt, varintLoop_of_lt _ hlt]
    · have hrest : v / 128 < 128 ^ (fuel + 1) := Nat.div_lt_of_lt_mul (by rwa [← Nat.pow_succ'])
      rw [varintLoop_succ_of_le _ hle, varintLoop_succ_of_le _ hle, ih _ hrest]

/-- R65: at most 5 bytes. -/
theorem varintBytes_length_le (v : Nat) : (varintBytes v).length ≤ 5 := varintLoop_length_le 4 v

theorem varintBytes_of_lt {v : Nat} (hv : v < 128) : varintBytes v = [BitVec.ofNat 8 v] := varintLoop_of_lt 4 hv

/-- The bytes after the first are the varint of the higher bits (R64): those have at most 25 bits, so the one byte
less that the loop may still write suffices. -/
theorem varintBytes_of_le {v : Nat} (hle : 128 ≤ v) (hv : v < 2 ^ 32) :
    varintBytes v = BitVec.ofNat 8 (v % 128 + 128) :: varintBytes (v / 128) := by
  have hfuel : varintBytes (v / 128) = varintLoop 3 (v / 128) := varintLoop_succ_fuel 3 _ (by omega)
  rw [hfuel]
  exact varintLoop_succ_of_le 3 hle

/-- Settles O14: the bytes by the two cases of the loop; their placement, the frame and the cursor by the rules of
emission, since a varint has at most 5 bytes. -/
theorem varintEncoderWrites : Obligations.VarintEncoderWrites := by
  unfold Obligations.VarintEncoderWrites
  intro v hv
  refine ⟨fun hlt => ?_, fun hle => ?_, fun s hop => ?_⟩
  · rw [varintBytes_of_lt hlt, List.map_singleton, BitVec.toNat_ofNat, Nat.mod_eq_of_lt (by omega)]
  · rw [varintBytes_of_le hle hv, List.map_cons, BitVec.toNat_ofNat, Nat.mod_eq_of_lt (by omega)]
  · have hfits : s.cmp.op.toNat + (varintBytes v).length < 2 ^ 32 := by
      have := varintBytes_length_le v
      omega
    refine ⟨fun j => outByte_emitBytes_range hfits, fun a => outByte_emitBytes_other hfits,
      emitBytes_op_toNat hfits, ?_⟩
    rw [emitBytes_frame]

end Sys2Proof.Machine
end

section
/-! SUPPORT. The size of the hash table (41_match_finder.md R72) and the fingerprint (R74), each as a number, and the
obligations on them. -/

namespace Sys2Proof.Machine

/-! ## The size of the table -/

/-- The sizing loop stops at the first exponent above `log2 S` or above the cap; `fuel` need only reach the cap. -/
theorem tableBitsLoop_eq_max {size : Nat} (hsize : 1 ≤ size) (fuel : Nat) :
    ∀ bits : Nat, MAX_TABLE_BITS + 1 ≤ bits + fuel →
      tableBitsLoop fuel size bits = max bits (min MAX_TABLE_BITS (Nat.log2 size) + 1) := by
  induction fuel with
  | zero =>
    intro bits hfuel
    rw [tableBitsLoop]
    omega
  | succ fuel ih =>
    intro bits hfuel
    have hpow : 2 ^ bits ≤ size ↔ bits ≤ Nat.log2 size := (Nat.le_log2 (by omega)).symm
    simp only [tableBitsLoop, hpow]
    split
    · rw [ih (bits + 1) (by omega)]
      omega
    · omega

/-- Settles O42: the loop starts at 2, and the exponent is one below where it stops. -/
theorem tableSizing : Obligations.TableSizing := by
  unfold Obligations.TableSizing
  intro size hsize
  rw [tableBits, tableBitsLoop_eq_max hsize MAX_TABLE_BITS TABLE_BITS_START (by decide), MAX_TABLE_BITS,
    TABLE_BITS_START]
  omega

/-- The table has at most `2^14` slots (R72). -/
theorem tableBits_le {size : Nat} (hsize : 1 ≤ size) : tableBits size ≤ 14 := by
  rw [tableSizing size hsize]
  omega

/-! ## The fingerprint -/

/-- A number that fits a register is what the register holds. -/
theorem toNat_ofNat_of_lt {w n : Nat} (h : n < 2 ^ w) : (BitVec.ofNat w n).toNat = n :=
  (BitVec.toNat_ofNat n w).trans (Nat.mod_eq_of_lt h)

/-- `Load32` is little-endian (R11, R32). -/
theorem load32_toNat (s : State) (a : Nat) :
    (load32 s a).toNat = (inByte s a).toNat + (inByte s (a + 1)).toNat * 2 ^ 8 +
      (inByte s (a + 2)).toNat * 2 ^ 16 + (inByte s (a + 3)).toNat * 2 ^ 24 :=
  toNat_four_bytes fun j => inByte s (a + (j - 1))

/-- The top `bits` bits of a word are a number of `bits` bits. -/
theorem fingerprintOf_lt (v : Word) {bits : Nat} (hbits : bits ≤ 32) : fingerprintOf v bits < 2 ^ bits := by
  apply Nat.div_lt_of_lt_mul
  rw [← Nat.pow_add, Nat.sub_add_cancel hbits]
  exact (v * HASH_MUL).isLt

theorem fingerprint_lt (s : State) (a : Nat) : fingerprint s a < 2 ^ s.cmp.bits.toNat :=
  fingerprintOf_lt _ (by omega)

/-- Settles O43: the product of words is the product of their numbers modulo `2^32`, and the load is little-endian. -/
theorem fingerprintValue : Obligations.FingerprintValue := by
  unfold Obligations.FingerprintValue
  intro s a
  refine ⟨?_, fingerprint_lt s a⟩
  rw [← load32_toNat, fingerprint, fingerprintOf, BitVec.toNat_mul]
  rfl

end Sys2Proof.Machine
end

section
/-! SUPPORT. EXTEND (41_match_finder.md R81): the compare loop's two properties, what a verified match gives, and the
obligation on it. -/

namespace Sys2Proof.Machine

/-! ## The compare loop -/

theorem agreeing_le (read : Nat → Byte) (n : Nat) : ∀ a b : Nat, agreeing read n a b ≤ n := by
  induction n with
  | zero => exact fun _ _ => Nat.le_refl 0
  | succ n ih =>
    intro a b
    rw [agreeing]
    split
    · exact Nat.succ_le_succ (ih _ _)
    · exact Nat.zero_le _

/-- The loop passes over equal bytes alone. -/
theorem agreeing_read_eq (read : Nat → Byte) (n : Nat) :
    ∀ a b j : Nat, j < agreeing read n a b → read (a + j) = read (b + j) := by
  induction n with
  | zero => exact fun _ _ _ hj => absurd hj (Nat.not_lt_zero _)
  | succ n ih =>
    intro a b j hj
    rw [agreeing] at hj
    split at hj
    case isTrue heq =>
      cases j with
      | zero => exact heq
      | succ j => simpa only [Nat.add_assoc, Nat.add_comm 1] using ih (a + 1) (b + 1) j (Nat.lt_of_succ_lt_succ hj)
    case isFalse => exact absurd hj (Nat.not_lt_zero _)

/-- The loop stops at its bound or at a difference. -/
theorem agreeing_stops (read : Nat → Byte) (n : Nat) :
    ∀ a b : Nat, agreeing read n a b = n ∨
      read (a + agreeing read n a b) ≠ read (b + agreeing read n a b) := by
  induction n with
  | zero => exact fun _ _ => .inl rfl
  | succ n ih =>
    intro a b
    rw [agreeing]
    split
    case isTrue =>
      refine (ih (a + 1) (b + 1)).imp (congrArg (· + 1)) fun hne => ?_
      simpa only [Nat.add_assoc, Nat.add_comm 1] using hne
    case isFalse hne => exact .inr hne

/-! ## The length of a match -/

/-- The four bytes of `Eq32`, one by one (R11). -/
theorem inByte_eq_of_eq32 {s : State} {a b : Nat} (h : eq32 s a b = true) {j : Nat} (hj : j < 4) :
    inByte s (a + j) = inByte s (b + j) := by
  simp only [eq32, Bool.and_eq_true, beq_iff_eq] at h
  obtain ⟨⟨⟨h0, h1⟩, h2⟩, h3⟩ := h
  match j, hj with
  | 0, _ => exact h0
  | 1, _ => exact h1
  | 2, _ => exact h2
  | 3, _ => exact h3

/-- The margin leaves the seed of a match inside the block (R75, R81). -/
theorem MatchInv.seed_le_be {s : State} (h : MatchInv s) : s.cmp.ip.toNat + MIN_MATCH ≤ s.cmp.be.toNat := by
  obtain ⟨⟨⟨-, -, -, -, hbe, -⟩, hmargin, hlimit, -⟩, hip, -⟩ := h
  rw [MIN_MATCH]
  omega

/-- The length EXTEND finds (R81): the seed, and what the compare loop adds to it. -/
def matchLength (s : State) : Nat :=
  MIN_MATCH + agreeing (inByte s) (s.cmp.be.toNat - (s.cmp.ip.toNat + MIN_MATCH)) (s.cmp.ip.toNat + MIN_MATCH)
    (s.cmp.cand.toNat + MIN_MATCH)

theorem extendMatch_eq (s : State) :
    extendMatch s = { s with cmp := { s.cmp with
      base := s.cmp.ip
      matched := BitVec.ofNat 32 (matchLength s)
      ip := BitVec.ofNat 32 (s.cmp.ip.toNat + matchLength s) } } := rfl

@[simp] theorem extendMatch_base (s : State) : (extendMatch s).cmp.base = s.cmp.ip := rfl

@[simp] theorem extendMatch_cand (s : State) : (extendMatch s).cmp.cand = s.cmp.cand := rfl

/-- A match ends at the block end or before it (R81). -/
theorem MatchInv.matchLength_le_be {s : State} (h : MatchInv s) :
    s.cmp.ip.toNat + matchLength s ≤ s.cmp.be.toNat := by
  have hloop := agreeing_le (inByte s) (s.cmp.be.toNat - (s.cmp.ip.toNat + MIN_MATCH))
    (s.cmp.ip.toNat + MIN_MATCH) (s.cmp.cand.toNat + MIN_MATCH)
  have hseed := h.seed_le_be
  rw [matchLength]
  omega

/-- Every byte of a match agrees with the candidate's (R81, R86): the seed by `Eq32`, the rest by the loop. -/
theorem MatchInv.matched_byte_eq {s : State} (h : MatchInv s) {j : Nat} (hj : j < matchLength s) :
    inByte s (s.cmp.ip.toNat + j) = inByte s (s.cmp.cand.toNat + j) := by
  obtain ⟨-, -, -, -, hseed⟩ := h
  rcases Nat.lt_or_ge j MIN_MATCH with hlow | hhigh
  · exact inByte_eq_of_eq32 hseed hlow
  · obtain ⟨i, rfl⟩ := Nat.exists_eq_add_of_le hhigh
    simpa only [Nat.add_assoc] using agreeing_read_eq _ _ _ _ i (Nat.lt_of_add_lt_add_left hj)

/-- A match ends at the block end or at a difference (R81). -/
theorem MatchInv.match_ends {s : State} (h : MatchInv s) :
    s.cmp.ip.toNat + matchLength s = s.cmp.be.toNat ∨
      inByte s (s.cmp.ip.toNat + matchLength s) ≠ inByte s (s.cmp.cand.toNat + matchLength s) := by
  have hseed := h.seed_le_be
  refine (agreeing_stops (inByte s) (s.cmp.be.toNat - (s.cmp.ip.toNat + MIN_MATCH))
    (s.cmp.ip.toNat + MIN_MATCH) (s.cmp.cand.toNat + MIN_MATCH)).imp (fun hend => ?_) fun hne => ?_
  · rw [matchLength, hend]
    omega
  · simpa only [matchLength, Nat.add_assoc] using hne

/-- Settles O46: `matched` holds the length the loop finds, which fits since the match lies in the block. -/
theorem extendIsMaximal : Obligations.ExtendIsMaximal := by
  unfold Obligations.ExtendIsMaximal
  intro s h
  have hend := h.matchLength_le_be
  have hbe := s.cmp.be.isLt
  rw [extendMatch_eq]
  exact ⟨matchLength s, toNat_ofNat_of_lt (by omega), Nat.le_add_right _ _, rfl, toNat_ofNat_of_lt (by omega), hend,
    fun _ => h.matched_byte_eq, h.match_ends, rfl⟩

end Sys2Proof.Machine
end

section
/-! SUPPORT. ADJACENT (41_match_finder.md R83, R84): the two records it makes in HT, where it goes next, and the
obligation on it. -/

namespace Sys2Proof.Machine

/-- In COMPRESS the engine goes one stage on (R95). -/
theorem engineStep_cmp {s : State} {stage : CmpStage} (h : s.phase = .cmp stage) :
    engineStep s = .next (compressStep stage s) := by
  simp only [engineStep, h]

/-! ## Slots, offsets and candidates fit their registers -/

/-- The block under way ends at or below `N` and has at most `2^16` bytes (R96). -/
theorem BlockInv.bounds {s : State} (h : BlockInv s) :
    s.cmp.S.toNat ≤ 65536 ∧ s.cmp.be.toNat = s.cmp.bs.toNat + s.cmp.S.toNat ∧
      s.cmp.be.toNat ≤ s.cmp.N.toNat := by
  obtain ⟨-, hbs, -, hS, hbe, -⟩ := h
  omega

/-- A fingerprint fits the register `h` (R27, R72, R74). -/
theorem SearchInv.fingerprint_fits {bound : Nat} {s : State} (h : SearchInv bound s) (a : Nat) :
    fingerprint s a < 2 ^ 14 := by
  obtain ⟨⟨-, -, -, -, -, hbits, -⟩, hmargin, -⟩ := h
  have hle : s.cmp.bits.toNat ≤ 14 := hbits ▸ tableBits_le (by omega)
  exact Nat.lt_of_lt_of_le (fingerprint_lt s a) (Nat.pow_le_pow_right (by decide) hle)

/-- Every used entry of HT names a position of the block (R87). -/
theorem SearchInv.entry_lt {bound : Nat} {s : State} (h : SearchInv bound s) (a : Nat) :
    s.cmp.bs.toNat + (htEntry s (fingerprint s a)).toNat < s.cmp.be.toNat := by
  obtain ⟨hblock, hmargin, -, hentries⟩ := h
  obtain ⟨-, hbe, -⟩ := hblock.bounds
  obtain ⟨-, hentry, -⟩ := hentries _ (fingerprint_lt s a)
  omega

theorem SearchInv.ipLimit_le_be {bound : Nat} {s : State} (h : SearchInv bound s) :
    s.cmp.ipLimit.toNat ≤ s.cmp.be.toNat := by
  obtain ⟨-, -, hlimit, -⟩ := h
  omega

/-- An offset into the block fits an entry of HT (R87). -/
theorem BlockInv.offset_toNat {s : State} (h : BlockInv s) {a : Nat} (ha : a < s.cmp.be.toNat) :
    (BitVec.ofNat 16 (a - s.cmp.bs.toNat)).toNat = a - s.cmp.bs.toNat := by
  obtain ⟨hS, hbe, -⟩ := h.bounds
  exact toNat_ofNat_of_lt (by omega)

/-! ## The two records -/

theorem htEntry_lookupAndRecord (s : State) (i : Nat) :
    htEntry (lookupAndRecord s) i =
      if i = fingerprint s s.cmp.ip.toNat then BitVec.ofNat 16 (s.cmp.ip.toNat - s.cmp.bs.toNat)
      else htEntry s i := by
  rw [htEntry, lookupAndRecord_ht, lookupAndRecord_epoch, Table.lookup_write]
  split <;> rfl

/-- Step 1 of ADJACENT (R83): `ip - 1` is recorded at its slot. -/
def recordPrevious (s : State) : State :=
  writeHt s (fingerprint s (s.cmp.ip.toNat - 1)) (s.cmp.ip.toNat - 1 - s.cmp.bs.toNat)

theorem htEntry_recordPrevious (s : State) (i : Nat) :
    htEntry (recordPrevious s) i =
      if i = fingerprint s (s.cmp.ip.toNat - 1) then BitVec.ofNat 16 (s.cmp.ip.toNat - 1 - s.cmp.bs.toNat)
      else htEntry s i :=
  htEntry_writeHt s _ _ i

/-- The candidate of ADJACENT (R83): what the slot of `ip` names after step 1. -/
def adjacentCand (s : State) : Nat :=
  s.cmp.bs.toNat + (htEntry (recordPrevious s) (fingerprint s s.cmp.ip.toNat)).toNat

/-- Equal fingerprints: step 2 reads the value step 1 wrote (R83). -/
theorem adjacentCand_of_eq {s : State} (h : BlockInv s) (hbs : s.cmp.bs.toNat < s.cmp.ip.toNat)
    (hbe : s.cmp.ip.toNat ≤ s.cmp.be.toNat)
    (heq : fingerprint s (s.cmp.ip.toNat - 1) = fingerprint s s.cmp.ip.toNat) :
    adjacentCand s = s.cmp.ip.toNat - 1 := by
  rw [adjacentCand, htEntry_recordPrevious, if_pos heq.symm, h.offset_toNat (by omega)]
  omega

/-- Different fingerprints: step 2 reads what the slot of `ip` held before (R83). -/
theorem adjacentCand_of_ne {s : State}
    (hne : fingerprint s (s.cmp.ip.toNat - 1) ≠ fingerprint s s.cmp.ip.toNat) :
    adjacentCand s = s.cmp.bs.toNat + (htEntry s (fingerprint s s.cmp.ip.toNat)).toNat := by
  rw [adjacentCand, htEntry_recordPrevious, if_neg hne.symm]

/-- The candidate of ADJACENT lies in the block, so it fits its register (R86, R87). -/
theorem adjacentCand_lt {bound : Nat} {s : State} (h : SearchInv bound s)
    (hbs : s.cmp.bs.toNat < s.cmp.ip.toNat) (hbe : s.cmp.ip.toNat ≤ s.cmp.be.toNat) :
    adjacentCand s < s.cmp.be.toNat := by
  by_cases heq : fingerprint s (s.cmp.ip.toNat - 1) = fingerprint s s.cmp.ip.toNat
  · rw [adjacentCand_of_eq h.1 hbs hbe heq]
    omega
  · rw [adjacentCand_of_ne heq]
    exact h.entry_lt _

/-! ## Where the step goes -/

@[simp] theorem inByte_lookupAndRecord (s : State) (x : Nat) : inByte (lookupAndRecord s) x = inByte s x := by
  rw [inByte, lookupAndRecord_inMem, lookupAndRecord_epoch, inByte]

@[simp] theorem eq32_lookupAndRecord (s : State) (a b : Nat) : eq32 (lookupAndRecord s) a b = eq32 s a b := by
  simp only [eq32, inByte_lookupAndRecord]

/-- Both records leave IN as it was: the test of ADJACENT compares the four bytes at `ip` and at its candidate. -/
theorem candidateMatches_adjacent (s : State) :
    candidateMatches (lookupAndRecord (recordPrevious s)) =
      eq32 s s.cmp.ip.toNat (BitVec.ofNat 32 (adjacentCand s)).toNat := by
  rw [candidateMatches, eq32_lookupAndRecord, lookupAndRecord_cmp]
  rfl

theorem adjacent_of_ge {s : State} (h : s.cmp.ipLimit.toNat ≤ s.cmp.ip.toNat) :
    adjacent s = { s with phase := .cmp .tail } :=
  if_pos h

/-- Short of the limit, after both records: another match, or a new search round (R83, R84). -/
theorem adjacent_of_lt {s : State} (h : s.cmp.ip.toNat < s.cmp.ipLimit.toNat) :
    adjacent s =
      let t := lookupAndRecord (recordPrevious s)
      if candidateMatches t then { t with phase := .cmp .extend }
      else
        { t with
          cmp := { t.cmp with ip := t.cmp.ip + 1, skip := BitVec.ofNat 32 SKIP_INIT }
          phase := .cmp .probe } :=
  if_neg (Nat.not_le.2 h)

/-- What ADJACENT changes short of the limit, whether the candidate matches or not: both records, `h` and `cand`. -/
theorem adjacent_records {s : State} (h : s.cmp.ip.toNat < s.cmp.ipLimit.toNat) :
    (adjacent s).ht = (lookupAndRecord (recordPrevious s)).ht ∧
    (adjacent s).cmp.h = BitVec.ofNat 14 (fingerprint s s.cmp.ip.toNat) ∧
    (adjacent s).cmp.cand = BitVec.ofNat 32 (adjacentCand s) ∧
    adjacent s = { s with ht := (adjacent s).ht, cmp := (adjacent s).cmp, phase := (adjacent s).phase } := by
  rw [adjacent_of_lt h]
  dsimp only
  split <;> exact ⟨rfl, rfl, rfl, rfl⟩

/-- The slots after ADJACENT: `ip` recorded over `ip - 1`, every other slot as it was (R83). -/
theorem htEntry_adjacent {s : State} (h : s.cmp.ip.toNat < s.cmp.ipLimit.toNat) (i : Nat) :
    htEntry (adjacent s) i =
      if i = fingerprint s s.cmp.ip.toNat then BitVec.ofNat 16 (s.cmp.ip.toNat - s.cmp.bs.toNat)
      else htEntry (recordPrevious s) i := by
  obtain ⟨hht, -, -, hframe⟩ := adjacent_records h
  rw [hframe, hht]
  exact htEntry_lookupAndRecord (recordPrevious s) i

/-- The candidate matches: the next stage is EXTEND, and no other register changes (R83). -/
theorem adjacent_of_match {s : State} (h : s.cmp.ip.toNat < s.cmp.ipLimit.toNat)
    (hmatch : eq32 s s.cmp.ip.toNat (adjacent s).cmp.cand.toNat = true) :
    (adjacent s).phase = .cmp .extend ∧
    (adjacent s).cmp = { s.cmp with h := (adjacent s).cmp.h, cand := (adjacent s).cmp.cand } := by
  obtain ⟨-, -, hcand, -⟩ := adjacent_records h
  rw [hcand, ← candidateMatches_adjacent] at hmatch
  have hstep := (adjacent_of_lt h).trans (if_pos hmatch)
  rw [hstep]
  exact ⟨rfl, rfl⟩

/-- The candidate does not match: a new search round starts at `ip + 1` (R84, R77). -/
theorem adjacent_of_no_match {s : State} (h : s.cmp.ip.toNat < s.cmp.ipLimit.toNat)
    (hmiss : eq32 s s.cmp.ip.toNat (adjacent s).cmp.cand.toNat = false) :
    (adjacent s).phase = .cmp .probe ∧ (adjacent s).cmp.ip.toNat = s.cmp.ip.toNat + 1 ∧
    (adjacent s).cmp.skip.toNat = 32 ∧
    (adjacent s).cmp = { s.cmp with
      h := (adjacent s).cmp.h, cand := (adjacent s).cmp.cand, ip := (adjacent s).cmp.ip
      skip := (adjacent s).cmp.skip } := by
  obtain ⟨-, -, hcand, -⟩ := adjacent_records h
  rw [hcand, ← candidateMatches_adjacent] at hmiss
  have hip : (s.cmp.ip + 1).toNat = s.cmp.ip.toNat + 1 := by
    have hlimit := s.cmp.ipLimit.isLt
    exact BitVec.toNat_add_of_lt (show s.cmp.ip.toNat + 1 < 2 ^ 32 by omega)
  have hstep := (adjacent_of_lt h).trans (if_neg (Bool.eq_false_iff.1 hmiss))
  rw [hstep, lookupAndRecord_cmp]
  exact ⟨rfl, hip, rfl, rfl⟩

/-- Settles O47: at the limit by the first test; otherwise each slot by the two records in their order, the candidate
by whether the two fingerprints agree, and the next stage by whether the candidate matches. -/
theorem adjacentStep : Obligations.AdjacentStep := by
  unfold Obligations.AdjacentStep
  intro s hinv hphase
  obtain ⟨hsearch, -, hbs, hbe⟩ := (compressInv_adjacent hphase).1 hinv
  have hblock := hsearch.1
  have hstep : engineStep s = .next (adjacent s) := engineStep_cmp hphase
  refine ⟨fun hge => by rw [hstep, adjacent_of_ge hge], fun hlt => ⟨adjacent s, hstep, ?_⟩⟩
  have hin := Nat.lt_of_lt_of_le hlt hsearch.ipLimit_le_be
  obtain ⟨-, hh, hcand, hframe⟩ := adjacent_records hlt
  have hcandNat : (adjacent s).cmp.cand.toNat = adjacentCand s := by
    rw [hcand]
    have hfits := adjacentCand_lt hsearch hbs hbe
    have := s.cmp.be.isLt
    exact toNat_ofNat_of_lt (by omega)
  refine ⟨?_, ?_, fun hne => ⟨?_, ?_⟩, fun heq => ?_, fun i hi hprev => ?_, adjacent_of_match hlt,
    adjacent_of_no_match hlt, hframe⟩
  · rw [hh]
    exact toNat_ofNat_of_lt (hsearch.fingerprint_fits _)
  · rw [htEntry_adjacent hlt, if_pos rfl, hblock.offset_toNat (by omega)]
  · rw [htEntry_adjacent hlt, if_neg hne, htEntry_recordPrevious, if_pos rfl, hblock.offset_toNat (by omega)]
  · rw [hcandNat, adjacentCand_of_ne hne]
  · rw [hcandNat, adjacentCand_of_eq hblock hbs hbe heq]
  · rw [htEntry_adjacent hlt, if_neg hi, htEntry_recordPrevious, if_neg hprev]

end Sys2Proof.Machine
end

section
/-! SUPPORT. The stages of COMPRESS that emit (41_match_finder.md R80, R82, R85; 43_block_compressor.md R95): what each
leaves in OUT and the registers, and the obligation on them. -/

namespace Sys2Proof.Machine

/-- Emission reads and moves the cursor `op` and no other register of R27 (R11). -/
theorem emitBytes_with_cmp (bytes : List Byte) (c : CmpRegs) :
    ∀ s : State, emitBytes bytes { s with cmp := { c with op := s.cmp.op } } =
      { emitBytes bytes s with cmp := { c with op := (emitBytes bytes s).cmp.op } } := by
  induction bytes with
  | nil => exact fun _ => rfl
  | cons b bytes ih => exact fun s => ih (emit b s)

/-- EXTEND changes nothing that the emission of the copy reads (R81, R91). -/
theorem emitCopy_extendMatch (offset len : Nat) (s : State) :
    emitCopy offset len (extendMatch s) =
      { emitCopy offset len s with
        cmp := { (extendMatch s).cmp with op := (emitCopy offset len s).cmp.op } } :=
  emitBytes_with_cmp _ (extendMatch s).cmp s

theorem writeHeader_eq (s : State) :
    writeHeader s =
      { s with
        outMem := (emitBytes (varintBytes s.cmp.N.toNat) s).outMem
        cmp := { s.cmp with op := (emitBytes (varintBytes s.cmp.N.toNat) s).cmp.op, bs := 0 }
        phase := .cmp .nextBlock } := by
  rw [writeHeader, emitBytes_frame]

theorem acceptMatch_eq (s : State) :
    acceptMatch s =
      let u := emitLiteral s.cmp.nextEmit.toNat (s.cmp.ip.toNat - s.cmp.nextEmit.toNat) s
      { s with outMem := u.outMem, cmp := { s.cmp with op := u.cmp.op }, phase := .cmp .extend } := by
  rw [acceptMatch, emitLiteral_frame]

theorem extendAndEmit_eq (s : State) :
    extendAndEmit s =
      let u := emitCopy (s.cmp.ip.toNat - s.cmp.cand.toNat) (extendMatch s).cmp.matched.toNat s
      { s with
        outMem := u.outMem
        cmp := { (extendMatch s).cmp with op := u.cmp.op, nextEmit := (extendMatch s).cmp.ip }
        phase := .cmp .adjacent } := by
  dsimp only [extendAndEmit]
  rw [extendMatch_base, extendMatch_cand, emitCopy_extendMatch, emitCopy_frame]
  rfl

/-- What TAIL emits from (R85): the state after the literal of the bytes never matched, or the state itself. -/
def tailEmission (s : State) : State :=
  if s.cmp.nextEmit.toNat < s.cmp.be.toNat then
    emitLiteral s.cmp.nextEmit.toNat (s.cmp.be.toNat - s.cmp.nextEmit.toNat) s
  else s

theorem tailEmission_frame (s : State) :
    tailEmission s =
      { s with outMem := (tailEmission s).outMem, cmp := { s.cmp with op := (tailEmission s).cmp.op } } := by
  unfold tailEmission
  split
  · rw [emitLiteral_frame]
  · rfl

theorem blockTail_eq (s : State) :
    blockTail s =
      { s with
        outMem := (tailEmission s).outMem
        cmp := { s.cmp with op := (tailEmission s).cmp.op, bs := s.cmp.bs + s.cmp.S.setWidth 32 }
        phase := .cmp .nextBlock } := by
  have hnext : BitVec.ofNat 32 (s.cmp.bs.toNat + s.cmp.S.toNat) = s.cmp.bs + s.cmp.S.setWidth 32 := by
    rw [BitVec.ofNat_add, BitVec.ofNat_toNat, BitVec.ofNat_toNat, BitVec.setWidth_eq]
  have htail : blockTail s =
      { tailEmission s with
        cmp := { (tailEmission s).cmp with
          bs := BitVec.ofNat 32 ((tailEmission s).cmp.bs.toNat + (tailEmission s).cmp.S.toNat) }
        phase := .cmp .nextBlock } := rfl
  rw [htail, tailEmission_frame, ← hnext]

/-- No block is left: COMPRESS ends in Done with `OUT_LEN = op` (R95, R131). -/
theorem nextBlock_doneEnd {s : State} (h : s.cmp.N.toNat ≤ s.cmp.bs.toNat) :
    DoneEnd s.cmp.op s (nextBlock s) := by
  rw [nextBlock, if_neg (Nat.not_lt.2 h)]
  exact ⟨rfl, rfl, rfl, rfl⟩

/-- Settles O48: one equation for each stage. -/
theorem emittingStages : Obligations.EmittingStages := by
  unfold Obligations.EmittingStages
  intro s
  refine ⟨fun h => ?_, fun h => ?_, fun h => ?_, fun h => ?_, fun h hend => ?_⟩
  · exact ⟨_, (engineStep_cmp h).trans (congrArg _ (writeHeader_eq s)), rfl, rfl, rfl⟩
  · exact ⟨_, _, (engineStep_cmp h).trans (congrArg _ (acceptMatch_eq s)), rfl, rfl, rfl⟩
  · exact ⟨_, _, (engineStep_cmp h).trans (congrArg _ (extendAndEmit_eq s)), rfl, rfl, rfl⟩
  · exact ⟨_, tailEmission s, (engineStep_cmp h).trans (congrArg _ (blockTail_eq s)), fun hlt => if_pos hlt,
      fun hle => if_neg (Nat.not_lt.2 hle), rfl, rfl⟩
  · exact ⟨_, engineStep_cmp h, nextBlock_doneEnd hend⟩

end Sys2Proof.Machine
end

section
/-! SUPPORT. The tag encoder (42_tag_encoder.md R90, R91): the header of a literal by its length and what EMIT_LITERAL
leaves in OUT, the chunks of a copy by its length and how many bytes their elements take, and the obligations on them. -/

namespace Sys2Proof.Machine

/-! ## EMIT_LITERAL -/

theorem literalHeader_of_le_60 {len : Nat} (h : len ≤ 60) :
    literalHeader len = [BitVec.ofNat 8 ((len - 1) * 4)] :=
  if_pos h

theorem literalHeader_of_le_255 {len : Nat} (hlo : 60 < len) (hhi : len ≤ 255) :
    literalHeader len = [0xF0#8, BitVec.ofNat 8 (len - 1)] :=
  (if_neg (Nat.not_le.2 hlo)).trans (if_pos hhi)

theorem literalHeader_of_ge_256 {len : Nat} (h : 256 ≤ len) :
    literalHeader len = [0xF4#8, BitVec.ofNat 8 ((len - 1) % 256), BitVec.ofNat 8 ((len - 1) / 256)] :=
  (if_neg (Nat.not_le.2 (Nat.lt_of_lt_of_le (by decide) h))).trans (if_neg (Nat.not_le.2 h))

/-- R90: a tag and at most two extension bytes. -/
theorem literalHeader_length_le (len : Nat) : (literalHeader len).length ≤ 3 := by
  unfold literalHeader
  split
  · simp
  · split <;> simp

/-- Emission leaves IN as it was (R11). -/
@[simp] theorem inByte_emitBytes (bytes : List Byte) (s : State) (x : Nat) :
    inByte (emitBytes bytes s) x = inByte s x := by
  rw [emitBytes_frame]
  rfl

/-- A literal's emission moves the cursor past its header and payload, short of its wrap-around (R90). -/
theorem emitLiteral_op_toNat {src len : Nat} {s : State}
    (h : s.cmp.op.toNat + (literalHeader len).length + len < 2 ^ 32) :
    (emitLiteral src len s).cmp.op.toNat = s.cmp.op.toNat + (literalHeader len).length + len := by
  rw [emitLiteral_frame]
  simp only [BitVec.toNat_add, BitVec.toNat_ofNat]
  omega

/-- A literal's emission leaves the payload after the header, and every other byte of OUT as the header's emission left
it (R90). -/
theorem outByte_emitLiteral {src len : Nat} {s : State}
    (h : s.cmp.op.toNat + (literalHeader len).length < 2 ^ 32) (x : Nat) :
    outByte (emitLiteral src len s) x =
      if s.cmp.op.toNat + (literalHeader len).length ≤ x ∧ x < s.cmp.op.toNat + (literalHeader len).length + len then
        inByte s (src + (x - (s.cmp.op.toNat + (literalHeader len).length)))
      else outByte (emitBytes (literalHeader len) s) x := by
  let t := emitBytes (literalHeader len) s
  have hmove : outByte (emitLiteral src len s) x = _ :=
    outByteOf_moveBytes t.epoch (inByte t) len src t.cmp.op.toNat t.outMem x
  rw [hmove, emitBytes_op_toNat h, inByte_emitBytes]
  rfl

/-- Settles O38: the header by the three ranges of the length; the bytes, the frame and the cursor by the rules of
emission, since a header has at most 3 bytes. -/
theorem emitLiteralWrites : Obligations.EmitLiteralWrites := by
  unfold Obligations.EmitLiteralWrites
  intro s src len _ hmax hop
  have hlen := literalHeader_length_le len
  have hall : s.cmp.op.toNat + (literalHeader len).length + len < 2 ^ 32 := by omega
  have hfits : s.cmp.op.toNat + (literalHeader len).length < 2 ^ 32 := by omega
  refine ⟨literalHeader len, fun hle => ?_, fun hlo hhi => ?_, fun hge => ?_, fun j hj => ?_, fun i hi => ?_,
    fun a ha => ?_, emitLiteral_op_toNat hall, ?_⟩
  · rw [literalHeader_of_le_60 hle, List.map_singleton, BitVec.toNat_ofNat, Nat.mod_eq_of_lt (by omega)]
  · rw [literalHeader_of_le_255 hlo (Nat.le_of_lt_succ hhi)]
    simp only [List.map_cons, List.map_nil, BitVec.toNat_ofNat]
    rw [Nat.mod_eq_of_lt (a := len - 1) (by omega)]
  · rw [literalHeader_of_ge_256 hge]
    simp only [List.map_cons, List.map_nil, BitVec.toNat_ofNat]
    rw [Nat.mod_eq_of_lt (a := (len - 1) / 256) (by omega), Nat.mod_mod]
  · rw [outByte_emitLiteral hfits, if_neg (by omega), outByte_emitBytes_range hfits hj]
  · rw [outByte_emitLiteral hfits, if_pos (by omega), Nat.add_sub_cancel_left]
  · rw [outByte_emitLiteral hfits, if_neg (by omega), outByte_emitBytes_other hfits (by omega)]
  · rw [emitLiteral_frame]

/-! ## The chunks of a copy -/

theorem copyChunksLoop_of_le_64 (fuel : Nat) {len : Nat} (h : len ≤ 64) : copyChunksLoop fuel len = [len] := by
  cases fuel with
  | zero => rfl
  | succ fuel => exact (if_neg (Nat.not_le.2 (Nat.lt_of_le_of_lt h (by decide)))).trans (if_neg (Nat.not_lt.2 h))

theorem copyChunksLoop_succ_of_lt_68 (fuel : Nat) {len : Nat} (hlo : 64 < len) (hhi : len < 68) :
    copyChunksLoop (fuel + 1) len = [60, len - 60] :=
  (if_neg (Nat.not_le.2 hhi)).trans (if_pos hlo)

theorem copyChunksLoop_succ_of_ge_68 (fuel : Nat) {len : Nat} (h : 68 ≤ len) :
    copyChunksLoop (fuel + 1) len = 64 :: copyChunksLoop fuel (len - 64) :=
  if_pos h

/-- Fuel beyond the length changes nothing: each turn of the loop takes more than one byte of it. -/
theorem copyChunksLoop_eq_copyChunks (fuel : Nat) :
    ∀ len : Nat, len ≤ fuel → copyChunksLoop fuel len = copyChunks len := by
  induction fuel using Nat.strong_induction_on with
  | _ fuel ih =>
    intro len hfuel
    rcases le_or_gt len 64 with hle | hgt
    · exact (copyChunksLoop_of_le_64 fuel hle).trans (copyChunksLoop_of_le_64 len hle).symm
    obtain ⟨n, rfl⟩ : ∃ n, len = n + 1 := ⟨len - 1, by omega⟩
    obtain ⟨f, rfl⟩ : ∃ f, fuel = f + 1 := ⟨fuel - 1, by omega⟩
    rw [copyChunks]
    rcases Nat.lt_or_ge (n + 1) 68 with hlt | hge
    · rw [copyChunksLoop_succ_of_lt_68 f hgt hlt, copyChunksLoop_succ_of_lt_68 n hgt hlt]
    · rw [copyChunksLoop_succ_of_ge_68 f hge, copyChunksLoop_succ_of_ge_68 n hge,
        ih f (by omega) _ (by omega), ih n (by omega) _ (by omega)]

theorem copyChunks_of_le_64 {len : Nat} (h : len ≤ 64) : copyChunks len = [len] := copyChunksLoop_of_le_64 len h

theorem copyChunks_of_lt_68 {len : Nat} (hlo : 64 < len) (hhi : len < 68) : copyChunks len = [60, len - 60] := by
  obtain ⟨n, rfl⟩ : ∃ n, len = n + 1 := ⟨len - 1, by omega⟩
  exact copyChunksLoop_succ_of_lt_68 n hlo hhi

theorem copyChunks_of_ge_68 {len : Nat} (h : 68 ≤ len) : copyChunks len = 64 :: copyChunks (len - 64) := by
  obtain ⟨n, rfl⟩ : ∃ n, len = n + 1 := ⟨len - 1, by omega⟩
  rw [← copyChunksLoop_eq_copyChunks n (n + 1 - 64) (by omega)]
  exact copyChunksLoop_succ_of_ge_68 n h

/-- The recursion of R91 as an induction: what holds of the lengths up to 67 by their chunks, and of a longer one when
it holds of the 64 bytes fewer that the first chunk leaves, holds of every length a copy can have. -/
theorem copyChunks_induction {P : Nat → List Nat → Prop} (one : ∀ len, 4 ≤ len → len ≤ 64 → P len [len])
    (two : ∀ len, 64 < len → len < 68 → P len [60, len - 60])
    (more : ∀ len, 68 ≤ len → P (len - 64) (copyChunks (len - 64)) → P len (64 :: copyChunks (len - 64))) :
    ∀ {len : Nat}, 4 ≤ len → P len (copyChunks len) := by
  intro len
  induction len using Nat.strong_induction_on with
  | _ len ih =>
    intro hmin
    rcases le_or_gt len 64 with hle | hgt
    · rw [copyChunks_of_le_64 hle]
      exact one len hmin hle
    rcases Nat.lt_or_ge len 68 with hlt | hge
    · rw [copyChunks_of_lt_68 hgt hlt]
      exact two len hgt hlt
    · rw [copyChunks_of_ge_68 hge]
      exact more len hge (ih (len - 64) (by omega) (by omega))

/-- R91: the chunks of a copy are together its length. -/
theorem copyChunks_sum {len : Nat} (h : 4 ≤ len) : (copyChunks len).sum = len := by
  refine copyChunks_induction (P := fun len chunks => chunks.sum = len) (fun len _ _ => ?_) (fun len hgt _ => ?_)
    (fun len hge ih => ?_) h
  · exact List.sum_singleton
  · simp only [List.sum_cons, List.sum_nil]
    omega
  · rw [List.sum_cons, ih]
    omega

/-- R91: each chunk is 4 to 64 bytes long. -/
theorem copyChunks_bounds {len : Nat} (h : 4 ≤ len) : ∀ c ∈ copyChunks len, 4 ≤ c ∧ c ≤ 64 := by
  refine copyChunks_induction (P := fun _ chunks => ∀ c ∈ chunks, 4 ≤ c ∧ c ≤ 64) (fun len hmin hle => ?_)
    (fun len hgt hlt => ?_) (fun len _ ih => ?_) h
  · exact List.forall_mem_singleton.2 ⟨hmin, hle⟩
  · exact List.forall_mem_cons.2 ⟨by decide, List.forall_mem_singleton.2 (by omega)⟩
  · exact List.forall_mem_cons.2 ⟨by decide, ih⟩

/-! ## EMIT_COPY -/

/-- R92: an element is a COPY1 of 2 bytes or a COPY2 of 3. -/
theorem copyElementBytes_length (offset len : Nat) :
    (copyElementBytes offset len).length = 2 ∨ (copyElementBytes offset len).length = 3 := by
  unfold copyElementBytes
  split
  · exact .inl rfl
  · exact .inr rfl

/-- A copy's elements take no more bytes than the copy: 3 at most for a chunk of 4 at least. -/
theorem copyBytes_length_le (offset : Nat) {len : Nat} (h : 4 ≤ len) : (copyBytes offset len).length ≤ len := by
  have helement : ∀ c ∈ copyChunks len, (copyElementBytes offset c).length ≤ c := fun c hc => by
    have := copyChunks_bounds h c hc
    have := copyElementBytes_length offset c
    omega
  calc (copyBytes offset len).length
      = ((copyChunks len).map fun c => (copyElementBytes offset c).length).sum := List.length_flatMap
    _ ≤ ((copyChunks len).map id).sum := List.sum_le_sum helement
    _ = len := by rw [List.map_id, copyChunks_sum h]

/-- Settles O39: the chunks by the recursion of R91; the bytes, the frame and the cursor by the rules of emission, since
the elements take no more bytes than the copy. -/
theorem emitCopyWrites : Obligations.EmitCopyWrites := by
  unfold Obligations.EmitCopyWrites
  intro len hmin
  refine ⟨copyChunks_of_ge_68, copyChunks_of_lt_68, copyChunks_of_le_64, copyChunks_sum hmin,
    copyChunks_bounds hmin, fun s offset hop => ?_⟩
  have hfits : s.cmp.op.toNat + (copyBytes offset len).length < 2 ^ 32 :=
    Nat.lt_of_le_of_lt (Nat.add_le_add_left (copyBytes_length_le offset hmin) _) hop
  refine ⟨copyBytes offset len, List.flatMap_def, fun j => outByte_emitBytes_range hfits,
    fun a => outByte_emitBytes_other hfits, emitBytes_op_toNat hfits, ?_⟩
  rw [emitCopy_frame]

end Sys2Proof.Machine
end

section
/-! SUPPORT. The tag parser (44_tag_parser.md R101 to R121): what the checks of a copy and of a literal answer on the
state after the fetch, the end of the stream, and the obligations on them. -/

namespace Sys2Proof.Machine

/-! ## The fetch of a tag -/

/-- A tag inside the input is fetched without wrap-around of the cursor (R29, R104). -/
theorem fetchTag_pos_toNat {s : State} (hpos : s.dec.pos.toNat < s.inLen.toNat) :
    (fetchTag s).dec.pos.toNat = s.dec.pos.toNat + 1 :=
  BitVec.toNat_add_of_lt (Nat.lt_of_le_of_lt hpos s.inLen.isLt)

/-! ## The copy forms -/

/-- The parser registers once a copy's tag and its `k` operand bytes are read (R104, R116 to R118). -/
def copyRegs (k len offset : Nat) (s : State) : DecRegs :=
  { (fetchTag s).dec with
    k      := BitVec.ofNat 3 k
    len    := BitVec.ofNat 33 len
    offset := BitVec.ofNat 32 offset
    pos    := BitVec.ofNat 32 ((fetchTag s).dec.pos.toNat + k) }

theorem copyVerdict_eq_none_iff {k len offset : Nat} {s : State} :
    copyVerdict k len offset s = none ↔
      s.dec.pos.toNat + 1 + k ≤ s.inLen.toNat ∧ (0 < offset ∧ offset ≤ s.dec.outPos.toNat) ∧
      s.dec.outPos.toNat + len ≤ s.dec.L.toNat := by
  unfold copyVerdict
  split_ifs <;> simp <;> omega

/-- A copy whose back-reference and output checks pass is moved (R113 to R115). -/
theorem copyChecked_of_checks_pass {offset len : Nat} {s : State}
    (hback : 0 < offset ∧ offset ≤ s.dec.outPos.toNat) (hover : s.dec.outPos.toNat + len ≤ s.dec.L.toNat) :
    copyChecked offset len s = copyMove offset len s := by
  rw [copyChecked, if_neg (by omega), if_neg (by omega)]

/-- A copy whose operand bytes are all there goes on to the back-reference and output checks (R112). -/
theorem copyElement_of_operands_fit {k : Nat} (len offset : Nat) {s : State}
    (hpos : s.dec.pos.toNat < s.inLen.toNat) (hfits : s.dec.pos.toNat + 1 + k ≤ s.inLen.toNat) :
    copyElement k len offset (fetchTag s) = copyChecked offset len { s with dec := copyRegs k len offset s } := by
  have hcheck : ¬ (fetchTag s).dec.pos.toNat + k > (fetchTag s).inLen.toNat := by
    rw [fetchTag_pos_toNat hpos]
    exact Nat.not_lt.2 hfits
  exact if_neg hcheck

/-- R113 and R114, in the order of R121, from any parser registers with the output cursor of the fetch. -/
theorem copyChecked_failedEntry {k len offset : Nat} {s : State} {d : DecRegs} {e : ErrKind}
    (houtPos : d.outPos = s.dec.outPos) (hL : d.L = s.dec.L)
    (hfits : s.dec.pos.toNat + 1 + k ≤ s.inLen.toNat) (h : copyVerdict k len offset s = some e) :
    FailedEntry e s (copyChecked offset len { s with dec := d }) := by
  rw [copyVerdict, if_neg (Nat.not_lt.2 hfits), ← houtPos, ← hL] at h
  unfold copyChecked
  split_ifs at h ⊢ <;> obtain rfl := Option.some.inj h <;> exact raise_dec_failedEntry _ s d hL

/-- R112 to R114, in the order of R121: the first check that fails is the one raised. -/
theorem copyElement_failedEntry {k len offset : Nat} {s : State} {e : ErrKind}
    (hpos : s.dec.pos.toNat < s.inLen.toNat) (h : copyVerdict k len offset s = some e) :
    FailedEntry e s (copyElement k len offset (fetchTag s)) := by
  by_cases htruncated : s.dec.pos.toNat + 1 + k > s.inLen.toNat
  · rw [copyVerdict, if_pos htruncated] at h
    obtain rfl := Option.some.inj h
    rw [← fetchTag_pos_toNat hpos, ← fetchTag_inLen s] at htruncated
    rw [copyElement, if_pos htruncated]
    exact raise_dec_failedEntry _ s _ rfl
  · have hfits := Nat.not_lt.1 htruncated
    rw [copyElement_of_operands_fit len offset hpos hfits]
    exact copyChecked_failedEntry rfl rfl hfits h

/-- R115: past its checks a copy moves its bytes; no register of the parser wraps, since the cursors end within IN_LEN
and `L`. -/
theorem copyElement_copyDone {k len offset : Nat} {s : State} (hlen : len < 2 ^ 33)
    (hpos : s.dec.pos.toNat < s.inLen.toNat) (h : copyVerdict k len offset s = none) :
    CopyDone k len offset s (copyElement k len offset (fetchTag s)) := by
  obtain ⟨hfits, hback, hover⟩ := copyVerdict_eq_none_iff.1 h
  have hmove : copyElement k len offset (fetchTag s) = copyMove offset len { s with dec := copyRegs k len offset s } :=
    (copyElement_of_operands_fit len offset hpos hfits).trans (copyChecked_of_checks_pass hback hover)
  have hposAfter : (fetchTag s).dec.pos.toNat + k = s.dec.pos.toNat + 1 + k := by rw [fetchTag_pos_toNat hpos]
  rw [hmove]
  refine ⟨outByteOf_selfCopy_range s.epoch offset _ len s.outMem hback.1 hback.2,
    outByteOf_selfCopy_other s.epoch offset len _ s.outMem, ?_, ?_, rfl, ?_, ?_, rfl, rfl, rfl, rfl, rfl⟩
  · exact (toNat_ofNat_of_lt (by omega)).trans hposAfter
  · exact toNat_ofNat_of_lt (Nat.lt_of_le_of_lt hover s.dec.L.isLt)
  · exact toNat_ofNat_of_lt hlen
  · exact toNat_ofNat_of_lt (by omega)

/-- Settles O6: each form is one copy element with its own operand bytes, and no length of R55 exceeds 64. -/
theorem copyFormsComplete : Obligations.CopyFormsComplete := by
  unfold Obligations.CopyFormsComplete
  intro s hpos
  refine ⟨fun f o h => ⟨_, rfl, copyElement_copyDone ?_ hpos h⟩,
    fun f o h => ⟨_, rfl, copyElement_copyDone ?_ hpos h⟩,
    fun f o h => ⟨_, rfl, copyElement_copyDone ?_ hpos h⟩⟩ <;> omega

/-- Settles O7: each form is one copy element with its own operand bytes. -/
theorem copyFormsRaise : Obligations.CopyFormsRaise := by
  unfold Obligations.CopyFormsRaise
  intro s e hpos
  exact ⟨fun _ _ h => ⟨_, rfl, copyElement_failedEntry hpos h⟩, fun _ _ h => ⟨_, rfl, copyElement_failedEntry hpos h⟩,
    fun _ _ h => ⟨_, rfl, copyElement_failedEntry hpos h⟩⟩

/-! ## The literal forms -/

/-- Checks 2 and 3 of R105, in the order of R121, from any parser registers that stand at the payload. -/
theorem literalPayload_failedEntry {k len : Nat} {s : State} {d : DecRegs} {e : ErrKind}
    (hpos : d.pos.toNat = s.dec.pos.toNat + 1 + k) (houtPos : d.outPos = s.dec.outPos) (hL : d.L = s.dec.L)
    (hfits : s.dec.pos.toNat + 1 + k ≤ s.inLen.toNat) (h : literalVerdict k len s = some e) :
    FailedEntry e s (literalPayload len { s with dec := d }) := by
  rw [literalVerdict, if_neg (Nat.not_lt.2 hfits), ← hpos, ← houtPos, ← hL] at h
  unfold literalPayload
  split_ifs at h ⊢ <;> obtain rfl := Option.some.inj h <;> exact raise_dec_failedEntry _ s d hL

/-- R105 for an extended literal: check 1 before the payload's checks. -/
theorem literalExtended_failedEntry {k len : Nat} {s : State} {e : ErrKind}
    (hpos : s.dec.pos.toNat < s.inLen.toNat) (h : literalVerdict k len s = some e) :
    FailedEntry e s (literalExtended k len (fetchTag s)) := by
  have hfetch := fetchTag_pos_toNat hpos
  by_cases htruncated : s.dec.pos.toNat + 1 + k > s.inLen.toNat
  · rw [literalVerdict, if_pos htruncated] at h
    obtain rfl := Option.some.inj h
    rw [← hfetch, ← fetchTag_inLen s] at htruncated
    rw [literalExtended, if_pos htruncated]
    exact raise_dec_failedEntry _ s _ rfl
  · have hfits := Nat.not_lt.1 htruncated
    have hposAfter : (BitVec.ofNat 32 ((fetchTag s).dec.pos.toNat + k)).toNat = s.dec.pos.toNat + 1 + k := by
      rw [hfetch]
      exact toNat_ofNat_of_lt (Nat.lt_of_le_of_lt hfits s.inLen.isLt)
    rw [← hfetch, ← fetchTag_inLen s] at htruncated
    rw [literalExtended, if_neg htruncated]
    exact literalPayload_failedEntry hposAfter rfl rfl hfits h

/-- Settles O9: LIT checks its payload right after the fetch, and the extended forms are one extended literal each with
their own extension bytes. -/
theorem literalFormsRaise : Obligations.LiteralFormsRaise := by
  unfold Obligations.LiteralFormsRaise
  intro s e hpos
  exact ⟨fun _ h => ⟨_, rfl, literalPayload_failedEntry (fetchTag_pos_toNat hpos) rfl rfl hpos h⟩,
    fun _ h => ⟨_, rfl, literalExtended_failedEntry hpos h⟩, fun _ h => ⟨_, rfl, literalExtended_failedEntry hpos h⟩,
    fun _ h => ⟨_, rfl, literalExtended_failedEntry hpos h⟩, fun _ h => ⟨_, rfl, literalExtended_failedEntry hpos h⟩⟩

/-! ## The end of the stream -/

/-- In DecodeLoop with no byte left the engine's step is the end of the stream (R103, R119). -/
theorem engineStep_of_stream_exhausted {s : State} (hphase : s.phase = .dcmp .decodeLoop)
    (hpos : s.dec.pos = s.inLen) : engineStep s = .next (endOfStream s) := by
  simp only [engineStep, hphase, hpos, Nat.lt_irrefl, if_false]

theorem endOfStream_doneEnd {s : State} (h : s.dec.outPos = s.dec.L) : DoneEnd s.dec.L s (endOfStream s) := by
  rw [endOfStream, if_pos h]
  exact ⟨rfl, rfl, rfl, rfl⟩

theorem endOfStream_failedEntry {s : State} (h : s.dec.outPos ≠ s.dec.L) :
    FailedEntry .outputUnderrun s (endOfStream s) := by
  rw [endOfStream, if_neg h]
  exact raise_failedEntry _ s

/-- Settles O26: with nothing pending the step is the engine's, which ends the stream by whether the output is
complete. (The name `endOfStream` is the model's.) -/
theorem endOfStreamEnds : Obligations.EndOfStream := by
  unfold Obligations.EndOfStream
  intro s hhost hphase hpos
  have hstep : step s = .next (endOfStream s) := by
    rw [step, hhost]
    exact engineStep_of_stream_exhausted hphase hpos
  refine ⟨fun hcomplete => ⟨_, hstep, endOfStream_doneEnd hcomplete⟩, fun hshort => ⟨_, hstep, ?_⟩⟩
  exact endOfStream_failedEntry fun heq => Nat.lt_irrefl _ (heq ▸ hshort)

end Sys2Proof.Machine
end

section
/-! SUPPORT. The host's writes to the register block (45_host_commands.md R125, R126): what a CTRL word does by BUSY,
which offset an address selects (20_memory.md R39), what each offset stores, and the two obligations on them. -/

namespace Sys2Proof.Machine

/-! ## CTRL words -/

theorem exec_ctrlSetop_of_idle {s : State} (hidle : s.status.busy = false) (op : Bool) (r : BitVec 30) :
    exec (.ctrlSetop op r) s = .next { s with ctrlOp := op } :=
  congrArg Host.Outcome.next (if_neg (by simp [hidle]))

/-- Settles O17: the instruction itself, and the one form a word with `START = 0` decodes to (R61). -/
theorem setopStoresOp : Obligations.SetopStoresOp := by
  unfold Obligations.SetopStoresOp
  refine ⟨fun s op r hidle => exec_ctrlSetop_of_idle hidle op r, fun s w hidle hstart => ?_⟩
  rcases decodeCommand_cases w with ⟨hset, -⟩ | ⟨hset, -⟩ | ⟨-, r, hdecode⟩
  · cases hset.symm.trans hstart
  · cases hset.symm.trans hstart
  · rw [hdecode, exec_ctrlSetop_of_idle hidle]

/-- Every CTRL word is ignored while `BUSY = 1` (R125). -/
theorem exec_decodeCommand_of_busy {s : State} (hbusy : s.status.busy = true) (w : Word) :
    exec (decodeCommand w) s = .next s := by
  rcases decodeCommand_cases w with ⟨-, -, r, hdecode⟩ | ⟨-, -, r, hdecode⟩ | ⟨-, r, hdecode⟩ <;> rw [hdecode] <;>
    exact congrArg Host.Outcome.next (if_pos hbusy)

/-! ## Register writes -/

/-- The register block is the first region `busTarget` tries, so no disjointness of the regions is needed (R39). -/
theorem busTarget_regBase_add (p : Platform) {o : Nat} (ho : o < 32) : busTarget p (p.regBase + o) = .reg o := by
  have hin : inRegion p.regBase 32 (p.regBase + o) = true := by simp [inRegion, ho]
  rw [busTarget, if_pos hin, Nat.add_sub_cancel_left]

theorem regWrite_of_busy {s : State} (hbusy : s.status.busy = true) (o : Nat) (w : Word) : regWrite o w s = s :=
  if_pos hbusy

theorem regWrite_inLen {s : State} (hidle : s.status.busy = false) (w : Word) :
    regWrite 0x08 w s = { s with inLen := w } := by
  simp [regWrite, hidle]

theorem regWrite_outCap {s : State} (hidle : s.status.busy = false) (w : Word) :
    regWrite 0x0C w s = { s with outCap := w } := by
  simp [regWrite, hidle]

/-- IN_LEN and OUT_CAP are the only registers a write other than to CTRL stores to (R125). -/
theorem regWrite_other {o : Nat} (hinLen : o ≠ 0x08) (houtCap : o ≠ 0x0C) (w : Word) (s : State) :
    regWrite o w s = s := by
  simp [regWrite, hinLen, houtCap]

/-- A 32-bit write at offset 0 runs the instruction of its word (R61). -/
theorem accessStep_write_ctrl (s : State) (w : Word) :
    accessStep (.write (s.platform.regBase + 0) 4 w) s = exec (decodeCommand w) s := by
  simp only [accessStep, ctrlWrite, busTarget_regBase_add s.platform (o := 0) (by decide), and_self, if_true]

/-- A 32-bit write at any other aligned offset is the register write there. -/
theorem accessStep_write_reg {o : Nat} (ho : o < 32) (haligned : o % 4 = 0) (hctrl : o ≠ 0) (s : State) (w : Word) :
    accessStep (.write (s.platform.regBase + o) 4 w) s = .next (regWrite o w s) := by
  have htarget := busTarget_regBase_add s.platform ho
  have hnotCtrl : ctrlWrite s.platform (.write (s.platform.regBase + o) 4 w) = none := by
    simp [ctrlWrite, htarget, hctrl]
  simp [accessStep, hnotCtrl, hostAccess, hostWrite, htarget, regAccessOk, haligned]

/-- Settles O21: offset 0 is the CTRL write, every other aligned offset is `regWrite`. -/
theorem registerWrites : Obligations.RegisterWrites := by
  unfold Obligations.RegisterWrites
  intro s o w ho haligned
  refine ⟨fun hbusy => ?_, fun hidle => ⟨?_, ?_, ?_, fun hignored => ?_⟩⟩
  · by_cases hctrl : o = 0
    · rw [hctrl, accessStep_write_ctrl, exec_decodeCommand_of_busy hbusy]
    · rw [accessStep_write_reg ho haligned hctrl, regWrite_of_busy hbusy]
  · rintro rfl
    exact accessStep_write_ctrl s w
  · rintro rfl
    rw [accessStep_write_reg ho haligned (by decide), regWrite_inLen hidle]
  · rintro rfl
    rw [accessStep_write_reg ho haligned (by decide), regWrite_outCap hidle]
  · rw [accessStep_write_reg ho haligned (by omega), regWrite_other (by omega) (by omega)]

end Sys2Proof.Machine
end

section
/-! SUPPORT. Decoding and encoding (30_encoding.md R48 to R61): each form's bytes as numbers, the two round trips
between bytes and instructions, what selects a form, and the obligations on them. -/

namespace Sys2Proof

/-! ## Bytes of a value -/

theorem leByte_toNat {w : Nat} (v : BitVec w) (j : Nat) : (leByte v j).toNat = v.toNat / 2 ^ (8 * j) % 2 ^ 8 :=
  toNat_extractLsb'_eq_div_mod v (8 * j) 8

theorem append_leByte_16 (v : BitVec 16) : leByte v 1 ++ leByte v 0 = v := by
  apply BitVec.eq_of_toNat_eq
  simp only [toNat_append_eq_add, leByte_toNat]
  omega

theorem append_leByte_24 (v : BitVec 24) : leByte v 2 ++ leByte v 1 ++ leByte v 0 = v := by
  apply BitVec.eq_of_toNat_eq
  simp only [toNat_append_eq_add, leByte_toNat]
  omega

theorem append_leByte_32 (v : BitVec 32) : leByte v 3 ++ leByte v 2 ++ leByte v 1 ++ leByte v 0 = v := by
  apply BitVec.eq_of_toNat_eq
  simp only [toNat_append_eq_add, leByte_toNat]
  omega

theorem leByte_append_16 (b1 b0 : Byte) : leByte (b1 ++ b0) 0 = b0 ∧ leByte (b1 ++ b0) 1 = b1 := by
  constructor <;>
  · apply BitVec.eq_of_toNat_eq
    simp only [toNat_append_eq_add, leByte_toNat]
    omega

theorem leByte_append_24 (b2 b1 b0 : Byte) :
    leByte (b2 ++ b1 ++ b0) 0 = b0 ∧ leByte (b2 ++ b1 ++ b0) 1 = b1 ∧ leByte (b2 ++ b1 ++ b0) 2 = b2 := by
  refine ⟨?_, ?_, ?_⟩ <;>
  · apply BitVec.eq_of_toNat_eq
    simp only [toNat_append_eq_add, leByte_toNat]
    omega

theorem leByte_append_32 (b3 b2 b1 b0 : Byte) :
    leByte (b3 ++ b2 ++ b1 ++ b0) 0 = b0 ∧ leByte (b3 ++ b2 ++ b1 ++ b0) 1 = b1 ∧
    leByte (b3 ++ b2 ++ b1 ++ b0) 2 = b2 ∧ leByte (b3 ++ b2 ++ b1 ++ b0) 3 = b3 := by
  refine ⟨?_, ?_, ?_, ?_⟩ <;>
  · apply BitVec.eq_of_toNat_eq
    simp only [toNat_append_eq_add, leByte_toNat]
    omega

/-! ## The tag of each form -/

/-- A tag is its field `tag[7:2]` above its form (R49). -/
theorem append_tag_fields (tag : Byte) : tag.extractLsb' 2 6 ++ tag.extractLsb' 0 2 = tag := by
  revert tag; decide

/-- The tag of COPY1 is its three fields (R52). -/
theorem append_copy1_fields (tag : Byte) :
    tag.extractLsb' 5 3 ++ tag.extractLsb' 2 3 ++ tag.extractLsb' 0 2 = tag := by
  revert tag; decide

theorem tag_form (field : BitVec 6) (form : BitVec 2) : (field ++ form).extractLsb' 0 2 = form := by
  revert field form; decide

theorem tag_field (field : BitVec 6) (form : BitVec 2) : (field ++ form).extractLsb' 2 6 = field := by
  revert field form; decide

theorem copy1_tag_fields (high len : BitVec 3) :
    (high ++ len ++ 1#2 : Byte).extractLsb' 0 2 = 1#2 ∧ (high ++ len ++ 1#2 : Byte).extractLsb' 2 3 = len ∧
    (high ++ len ++ 1#2 : Byte).extractLsb' 5 3 = high := by
  revert high len; decide

/-- A field of at most 59 with the form 0 is none of the four tags of the extended literals (R56). -/
theorem lit_tag_ne {field : BitVec 6} (h : field.toNat ≤ 59) :
    field ++ 0#2 ≠ 0xF0#8 ∧ field ++ 0#2 ≠ 0xF4#8 ∧ field ++ 0#2 ≠ 0xF8#8 ∧ field ++ 0#2 ≠ 0xFC#8 := by
  revert field; decide

theorem append_copy1_offset (offset : BitVec 11) : offset.extractLsb' 8 3 ++ leByte offset 0 = offset := by
  apply BitVec.eq_of_toNat_eq
  simp only [toNat_append_eq_add, leByte_toNat, toNat_extractLsb'_eq_div_mod]
  omega

theorem copy1_offset_parts (high : BitVec 3) (low : Byte) :
    (high ++ low).extractLsb' 8 3 = high ∧ leByte (high ++ low) 0 = low := by
  constructor <;>
  · apply BitVec.eq_of_toNat_eq
    simp only [toNat_append_eq_add, leByte_toNat, toNat_extractLsb'_eq_div_mod]
    omega

/-! ## Decoding an encoding -/

theorem encode_length (i : Instr) : (encode i).length = i.encodedBytes := by
  cases i <;> rfl

/-- An element whose bytes stand at the head of a list is decoded from it, whatever follows (R56). -/
theorem decodeElement_encode {i : Instr} (hi : i.context = .element) (hwf : i.wellFormed = true) (rest : List Byte) :
    decodeElement (byteAt (encode i ++ rest)) = i := by
  cases i with
  | copy1 len offset =>
    obtain ⟨hform, hlen, hhigh⟩ := copy1_tag_fields (offset.extractLsb' 8 3) len
    simp [decodeElement, encode, byteAt, hform, hlen, hhigh, append_copy1_offset]
  | copy2 len offset => simp [decodeElement, encode, byteAt, tag_form, tag_field, append_leByte_16]
  | copy4 len offset => simp [decodeElement, encode, byteAt, tag_form, tag_field, append_leByte_32]
  | litX1 len => simp [decodeElement, encode, byteAt]
  | litX2 len => simp [decodeElement, encode, byteAt, append_leByte_16]
  | litX3 len => simp [decodeElement, encode, byteAt, append_leByte_24]
  | litX4 len => simp [decodeElement, encode, byteAt, append_leByte_32]
  | lit len =>
    obtain ⟨h0, h4, h8, hC⟩ := lit_tag_ne (of_decide_eq_true hwf)
    simp [decodeElement, encode, byteAt, tag_form, tag_field, h0, h4, h8, hC]
  | varintCont g => cases hi
  | varintLast g => cases hi
  | cmdCompress r => cases hi
  | cmdDecompress r => cases hi
  | ctrlSetop o r => cases hi

/-- The group and the continuation bit are the whole header byte (R48). -/
theorem decodeHeader_append (c : BitVec 1) (group : BitVec 7) :
    decodeHeader (c ++ group) = if c = 1#1 then .varintCont group else .varintLast group := by
  revert c group; decide

/-- The three fields of a CTRL word (R61). -/
theorem commandWord_fields (ignored : BitVec 30) (op start : Bool) :
    (commandWord ignored op start).getLsbD 0 = start ∧ (commandWord ignored op start).getLsbD 1 = op ∧
    (commandWord ignored op start).extractLsb' 2 30 = ignored := by
  refine ⟨?_, ?_, ?_⟩
  · rw [commandWord, BitVec.getLsbD_append]
    simp
  · rw [commandWord, BitVec.getLsbD_append, BitVec.getLsbD_append]
    simp
  · apply BitVec.eq_of_toNat_eq
    have := op.toNat_lt
    have := start.toNat_lt
    simp only [commandWord, toNat_extractLsb'_eq_div_mod, toNat_append_eq_add, BitVec.toNat_ofBool]
    omega

theorem commandWord_of_fields (w : Word) :
    commandWord (w.extractLsb' 2 30) (w.getLsbD 1) (w.getLsbD 0) = w := by
  apply BitVec.eq_of_toNat_eq
  simp only [commandWord, toNat_extractLsb'_eq_div_mod, toNat_append_eq_add, BitVec.toNat_ofBool, BitVec.getLsbD,
    Nat.toNat_testBit]
  omega

theorem decodeCommand_commandWord (ignored : BitVec 30) (op start : Bool) :
    decodeCommand (commandWord ignored op start) =
      if start then if op then .cmdDecompress ignored else .cmdCompress ignored else .ctrlSetop op ignored := by
  obtain ⟨hstart, hop, hignored⟩ := commandWord_fields ignored op start
  rw [decodeCommand, hstart, hop, hignored]

/-- A CTRL word is decoded from its four bytes, whatever follows (R61). -/
theorem decode_commandBytes (w : Word) (rest : List Byte) :
    decode .command (commandBytes w ++ rest) = .ok (decodeCommand w, rest) := by
  have hword : wordOfBytes (byteAt (commandBytes w ++ rest)) = w := append_leByte_32 w
  rw [decode, hword]
  rfl

theorem encodedBytes_pos (i : Instr) : 0 < i.encodedBytes := by
  cases i <;> exact Nat.succ_pos _

/-- An element is decoded when all its bytes are there (R105, R112). -/
theorem decode_element_of_le {bytes : List Byte} (h : (decodeElement (byteAt bytes)).encodedBytes ≤ bytes.length) :
    decode .element bytes =
      .ok (decodeElement (byteAt bytes), bytes.drop (decodeElement (byteAt bytes)).encodedBytes) := by
  cases bytes with
  | nil => exact absurd (encodedBytes_pos _) (Nat.not_lt.2 h)
  | cons b bytes => exact if_pos h

theorem decode_element_encode {i : Instr} (hi : i.context = .element) (hwf : i.wellFormed = true)
    (rest : List Byte) : decode .element (encode i ++ rest) = .ok (i, rest) := by
  have hdecode := decodeElement_encode hi hwf rest
  rw [decode_element_of_le (by rw [hdecode]; simp [← encode_length]), hdecode, ← encode_length, List.drop_left]

/-- Settles O1: an element by its form, a header byte by its two fields, a CTRL write by its word. -/
theorem decodeOfEncode : Obligations.DecodeOfEncode := by
  unfold Obligations.DecodeOfEncode
  intro i rest hwf
  cases i with
  | copy1 | copy2 | copy4 | litX1 | litX2 | litX3 | litX4 | lit => exact decode_element_encode rfl hwf rest
  | varintCont group | varintLast group =>
    exact congrArg (fun i => Except.ok (i, rest)) (decodeHeader_append _ group)
  | cmdCompress ignored | cmdDecompress ignored | ctrlSetop op ignored =>
    exact (decode_commandBytes _ rest).trans (by rw [decodeCommand_commandWord]; rfl)

/-! ## Encoding what was decoded -/

/-- The encoding of the element read from a byte string is that string's first bytes (R56, R58). -/
theorem encode_decodeElement (b : Nat → Byte) :
    encode (decodeElement b) = (List.range (decodeElement b).encodedBytes).map b := by
  rcases decodeElement_cases b with ⟨ht, h⟩ | ⟨ht, h⟩ | ⟨ht, h⟩ | ⟨ht, h⟩ | ⟨ht, h⟩ | ⟨ht, h⟩ | ⟨ht, h⟩ |
    ⟨ht, hle, h⟩ <;> rw [h]
  · have htag := append_copy1_fields (b 0)
    rw [(tag_form_eq_iff _ 1#2).2 ht] at htag
    obtain ⟨hhigh, hlow⟩ := copy1_offset_parts ((b 0).extractLsb' 5 3) (b 1)
    simp [encode, Instr.encodedBytes, List.range_succ, hhigh, hlow, htag]
  · have htag := append_tag_fields (b 0)
    rw [(tag_form_eq_iff _ 2#2).2 ht] at htag
    simp [encode, Instr.encodedBytes, List.range_succ, leByte_append_16, htag]
  · have htag := append_tag_fields (b 0)
    rw [(tag_form_eq_iff _ 3#2).2 ht] at htag
    simp [encode, Instr.encodedBytes, List.range_succ, leByte_append_32, htag]
  · simp [encode, Instr.encodedBytes, List.range_succ, ht]
  · simp [encode, Instr.encodedBytes, List.range_succ, leByte_append_16, ht]
  · simp [encode, Instr.encodedBytes, List.range_succ, leByte_append_24, ht]
  · simp [encode, Instr.encodedBytes, List.range_succ, leByte_append_32, ht]
  · have htag := append_tag_fields (b 0)
    rw [(tag_form_eq_iff _ 0#2).2 ht] at htag
    simp [encode, Instr.encodedBytes, List.range_succ, htag]

theorem wellFormed_decodeElement (b : Nat → Byte) : (decodeElement b).wellFormed = true := by
  rcases decodeElement_cases b with ⟨-, h⟩ | ⟨-, h⟩ | ⟨-, h⟩ | ⟨-, h⟩ | ⟨-, h⟩ | ⟨-, h⟩ | ⟨-, h⟩ |
    ⟨-, hle, h⟩ <;> rw [h]
  on_goal 8 => exact decide_eq_true (by rwa [tag_field_toNat])
  all_goals rfl

/-- The first `n` bytes of a list, read one by one. -/
theorem map_byteAt_range {bytes : List Byte} {n : Nat} (h : n ≤ bytes.length) :
    (List.range n).map (byteAt bytes) = bytes.take n := by
  apply List.ext_getElem
  · simp [h]
  · intro j hj hj'
    have hlt : j < bytes.length := Nat.lt_of_lt_of_le (by simpa using hj) h
    simp [byteAt, List.getElem?_eq_getElem hlt]

theorem encode_decodeHeader (c : Byte) : encode (decodeHeader c) = [c] := by
  revert c; decide

/-- A CTRL word is the encoding of what it decodes to (R61). -/
theorem encode_decodeCommand (w : Word) : encode (decodeCommand w) = commandBytes w := by
  have hw := commandWord_of_fields w
  rw [decodeCommand]
  split_ifs with hstart hop
  · rw [hstart, hop] at hw
    exact congrArg commandBytes hw
  · rw [hstart, Bool.eq_false_iff.2 hop] at hw
    exact congrArg commandBytes hw
  · rw [Bool.eq_false_iff.2 hstart] at hw
    exact congrArg commandBytes hw

/-- The four bytes of a word put together are the word's bytes (R32). -/
theorem commandBytes_wordOfBytes (b : Nat → Byte) : commandBytes (wordOfBytes b) = (List.range 4).map b := by
  obtain ⟨h0, h1, h2, h3⟩ := leByte_append_32 (b 3) (b 2) (b 1) (b 0)
  simp [commandBytes, wordOfBytes, List.range_succ, h0, h1, h2, h3]

/-- Settles O2: in each context what is decoded has the bytes read as its encoding, and the rest is what follows. -/
theorem encodeOfDecode : Obligations.EncodeOfDecode := by
  unfold Obligations.EncodeOfDecode
  intro ctx bytes rest i h
  cases ctx with
  | element =>
    by_cases hle : (decodeElement (byteAt bytes)).encodedBytes ≤ bytes.length
    · rw [decode_element_of_le hle] at h
      obtain ⟨rfl, rfl⟩ := Prod.mk.inj (Except.ok.inj h)
      refine ⟨?_, wellFormed_decodeElement _, decodeElement_context _⟩
      rw [encode_decodeElement, map_byteAt_range hle, List.take_append_drop]
    · cases bytes with
      | nil => cases h
      | cons b bytes => rw [decode, if_neg hle] at h; cases h
  | header =>
    cases bytes with
    | nil => cases h
    | cons c bytes =>
      obtain ⟨rfl, rfl⟩ := Prod.mk.inj (Except.ok.inj h)
      refine ⟨by rw [encode_decodeHeader]; rfl, ?_, decodeHeader_context c⟩
      rcases decodeHeader_cases c with ⟨g, hg⟩ | ⟨g, hg⟩ <;> rw [hg] <;> rfl
  | command =>
    rw [decode] at h
    split_ifs at h with hle
    obtain ⟨rfl, rfl⟩ := Prod.mk.inj (Except.ok.inj h)
    refine ⟨?_, ?_, decodeCommand_context _⟩
    · rw [encode_decodeCommand, commandBytes_wordOfBytes, map_byteAt_range hle, List.take_append_drop]
    · rcases decodeCommand_cases (wordOfBytes (byteAt bytes)) with ⟨-, -, r, hr⟩ | ⟨-, -, r, hr⟩ | ⟨-, r, hr⟩ <;>
        rw [hr] <;> rfl

/-! ## The tag selects the form -/

/-- Settles O3: in each of the eight cases of the decoder the tag is in one of the eight ranges and in no other. -/
theorem tagByteSelectsForm : Obligations.TagByteSelectsForm := by
  unfold Obligations.TagByteSelectsForm
  intro b
  rcases decodeElement_cases b with ⟨ht, h⟩ | ⟨ht, h⟩ | ⟨ht, h⟩ | ⟨ht, h⟩ | ⟨ht, h⟩ | ⟨ht, h⟩ | ⟨ht, h⟩ |
    ⟨ht, hle, h⟩ <;> simp only [h, ht] <;> simp <;> omega

/-- Settles O5: each word by running the decoder on it. -/
theorem specWordsDecode : Obligations.SpecWordsDecode := by
  unfold Obligations.SpecWordsDecode
  exact ⟨rfl, rfl, rfl, rfl, rfl, rfl, rfl⟩

/-! ## What the tag encoder writes (42_tag_encoder.md R90, R92, R94) -/

namespace Machine

theorem leByte_ofNat_zero (w n : Nat) (hw : 8 ≤ w) : leByte (BitVec.ofNat w n) 0 = BitVec.ofNat 8 (n % 256) := by
  apply BitVec.eq_of_toNat_eq
  have hmod : n % 2 ^ w % 2 ^ 8 = n % 2 ^ 8 := Nat.mod_mod_of_dvd n (Nat.pow_dvd_pow 2 hw)
  simpa [leByte_toNat] using hmod

theorem leByte_ofNat_one {n : Nat} (h : n < 65536) : leByte (BitVec.ofNat 16 n) 1 = BitVec.ofNat 8 (n / 256) := by
  apply BitVec.eq_of_toNat_eq
  simp only [leByte_toNat, BitVec.toNat_ofNat]
  omega

/-- A length field above the form of its tag (R49), as the number the encoder writes. -/
theorem ofNat_append_form (n : Nat) (form : BitVec 2) :
    BitVec.ofNat 6 n ++ form = BitVec.ofNat 8 (form.toNat + n * 4) := by
  apply BitVec.eq_of_toNat_eq
  have := form.isLt
  simp only [toNat_append_eq_add, BitVec.toNat_ofNat]
  omega

theorem copy1_tag_ofNat {offset n : Nat} (hoffset : offset < 2048) (hn : n < 8) :
    (BitVec.ofNat 11 offset).extractLsb' 8 3 ++ BitVec.ofNat 3 n ++ 1#2 =
      BitVec.ofNat 8 (1 + n * 4 + offset / 256 * 32) := by
  apply BitVec.eq_of_toNat_eq
  simp only [toNat_append_eq_add, toNat_extractLsb'_eq_div_mod, BitVec.toNat_ofNat]
  omega

/-- R92 is the encoding of the pseudo-instruction's element (R63). -/
theorem copyElementBytes_eq_encode {offset len : Nat} (hoffset : offset < 65536) (hmin : 4 ≤ len) (hmax : len ≤ 64) :
    copyElementBytes offset len = encode (expandCopyElement offset len) := by
  by_cases hshort : len < 12 ∧ offset < 2048
  · obtain ⟨hlen, hlow⟩ := hshort
    rw [expandCopyElement, if_pos ⟨hlen, hlow⟩, encode, copy1_tag_ofNat hlow (by omega),
      leByte_ofNat_zero 11 _ (by decide)]
    exact if_pos ⟨hlen, hlow⟩
  · rw [expandCopyElement, if_neg hshort, encode, ofNat_append_form, leByte_ofNat_zero 16 _ (by decide),
      leByte_ofNat_one hoffset]
    exact if_neg hshort

/-- R90's header is the encoding of the pseudo-instruction (R63). -/
theorem literalHeader_eq_encode {len : Nat} (hmin : 1 ≤ len) (hmax : len ≤ 65536) :
    literalHeader len = encode (expandLiteral len) := by
  rcases Nat.lt_or_ge 60 len with hlo | hle
  · rcases Nat.lt_or_ge 255 len with hhi | hle255
    · rw [literalHeader_of_ge_256 hhi, expandLiteral, if_neg (by omega), if_neg (by omega), encode,
        leByte_ofNat_zero 16 _ (by decide), leByte_ofNat_one (by omega)]
    · rw [literalHeader_of_le_255 hlo hle255, expandLiteral, if_neg (by omega), if_pos hle255, encode]
  · rw [literalHeader_of_le_60 hle, expandLiteral, if_pos hle, encode, ofNat_append_form]
    simp

/-- A copy element is decoded from its bytes (R94). -/
theorem decode_copyElementBytes {offset len : Nat} (hoffset : offset < 65536) (hmin : 4 ≤ len) (hmax : len ≤ 64)
    (rest : List Byte) :
    decode .element (copyElementBytes offset len ++ rest) = .ok (expandCopyElement offset len, rest) := by
  rw [copyElementBytes_eq_encode hoffset hmin hmax]
  unfold expandCopyElement
  split <;> exact decode_element_encode rfl rfl rest

/-- A literal's header is decoded from its bytes (R94). -/
theorem decode_literalHeader {len : Nat} (hmin : 1 ≤ len) (hmax : len ≤ 65536) (rest : List Byte) :
    decode .element (literalHeader len ++ rest) = .ok (expandLiteral len, rest) := by
  rw [literalHeader_eq_encode hmin hmax]
  unfold expandLiteral
  split_ifs with hle
  · have hfield : (BitVec.ofNat 6 (len - 1)).toNat ≤ 59 := by
      rw [toNat_ofNat_of_lt (by omega)]
      omega
    exact decode_element_encode (i := .lit _) rfl (decide_eq_true hfield) rest
  · exact decode_element_encode rfl rfl rest
  · exact decode_element_encode rfl rfl rest

/-- The forms of a copy element (R92, R63), each with what its fields hold. -/
theorem expandCopyElement_cases {offset len : Nat} (hoffset : offset < 65536) (hmin : 4 ≤ len) (hmax : len ≤ 64) :
    (len < 12 ∧ offset < 2048 ∧
      ∃ f o, expandCopyElement offset len = .copy1 f o ∧ f.toNat + 4 = len ∧ o.toNat = offset) ∨
    (¬ (len < 12 ∧ offset < 2048) ∧
      ∃ f o, expandCopyElement offset len = .copy2 f o ∧ f.toNat + 1 = len ∧ o.toNat = offset) := by
  by_cases hshort : len < 12 ∧ offset < 2048
  · have hfield : (BitVec.ofNat 3 (len - 4)).toNat = len - 4 := toNat_ofNat_of_lt (by omega)
    exact .inl ⟨hshort.1, hshort.2, _, _, if_pos hshort, by omega, toNat_ofNat_of_lt hshort.2⟩
  · have hfield : (BitVec.ofNat 6 (len - 1)).toNat = len - 1 := toNat_ofNat_of_lt (by omega)
    exact .inr ⟨hshort, _, _, if_neg hshort, by omega, toNat_ofNat_of_lt hoffset⟩

/-- The forms of a literal (R90, R63), each with what its field holds. -/
theorem expandLiteral_cases {len : Nat} (hmin : 1 ≤ len) (hmax : len ≤ 65536) :
    (len ≤ 60 ∧ ∃ f, expandLiteral len = .lit f ∧ f.toNat + 1 = len) ∨
    (60 < len ∧ len < 256 ∧ ∃ f, expandLiteral len = .litX1 f ∧ f.toNat + 1 = len) ∨
    (256 ≤ len ∧ ∃ f, expandLiteral len = .litX2 f ∧ f.toNat + 1 = len) := by
  unfold expandLiteral
  split_ifs with h60 h255
  · have hfield : (BitVec.ofNat 6 (len - 1)).toNat = len - 1 := toNat_ofNat_of_lt (by omega)
    exact .inl ⟨h60, _, rfl, by omega⟩
  · have hfield : (BitVec.ofNat 8 (len - 1)).toNat = len - 1 := toNat_ofNat_of_lt (by omega)
    exact .inr (.inl ⟨by omega, by omega, _, rfl, by omega⟩)
  · have hfield : (BitVec.ofNat 16 (len - 1)).toNat = len - 1 := toNat_ofNat_of_lt (by omega)
    exact .inr (.inr ⟨by omega, _, rfl, by omega⟩)

/-- Settles O41: each element is an encoding, which decodes to its instruction (R94), and the instruction's fields hold
the offset and the length. -/
theorem encoderElementsDecode : Obligations.EncoderElementsDecode := by
  unfold Obligations.EncoderElementsDecode
  refine ⟨fun offset len rest hpos hoffset hmin hmax => ?_, fun len rest hmin hmax => ?_⟩
  · have hfits : offset < 65536 := by omega
    rw [decode_copyElementBytes hfits hmin hmax]
    refine ⟨copyElementBytes_eq_encode hfits hmin hmax, ?_⟩
    rcases expandCopyElement_cases hfits hmin hmax with ⟨hlen, hlow, f, o, hi, hf, ho⟩ | ⟨hlong, f, o, hi, hf, ho⟩
    · exact .inl ⟨hlen, hlow, f, o, by rw [hi], hf, ho⟩
    · exact .inr ⟨hlong, f, o, by rw [hi], hf, ho⟩
  · rw [decode_literalHeader hmin hmax]
    refine ⟨literalHeader_eq_encode hmin hmax, ?_⟩
    rcases expandLiteral_cases hmin hmax with ⟨hle, f, hi, hf⟩ | ⟨hlo, hhi, f, hi, hf⟩ | ⟨hge, f, hi, hf⟩
    · exact .inl ⟨hle, f, by rw [hi], hf⟩
    · exact .inr (.inl ⟨hlo, hhi, f, by rw [hi], hf⟩)
    · exact .inr (.inr ⟨hge, f, by rw [hi], hf⟩)

end Machine

end Sys2Proof
end

section
/-! SUPPORT. The host's accesses (45_host_commands.md R124 to R133; 20_memory.md R36 to R39) and reset: what each access
to a region answers, and the obligations on them. -/

namespace Sys2Proof.Machine

/-! ## CTRL writes -/

/-- Settles O16: `BUSY = 0` selects the acceptance (R127). -/
theorem startsAccepted : Obligations.StartsAccepted := by
  unfold Obligations.StartsAccepted
  intro s r hidle
  have hnotBusy : ¬ s.status.busy = true := by simp [hidle]
  exact ⟨congrArg Host.Outcome.next (if_neg hnotBusy), congrArg Host.Outcome.next (if_neg hnotBusy)⟩

/-- Settles O18: the rule of a CTRL word while `BUSY = 1`. -/
theorem ctrlIgnoredWhileBusy : Obligations.CtrlIgnoredWhileBusy := by
  unfold Obligations.CtrlIgnoredWhileBusy
  exact fun s w hbusy => exec_decodeCommand_of_busy hbusy w

/-! ## Reads of the register block -/

theorem accessStep_read (s : State) (addr width : Nat) : accessStep (.read addr width) s = hostRead addr width s := rfl

/-- A read at an aligned offset is the register read there, unless it is one of OUT_LEN that R133 forbids. -/
theorem accessStep_read_reg {o : Nat} (ho : o < 32) (haligned : o % 4 = 0) (s : State) :
    accessStep (.read (s.platform.regBase + o) 4) s =
      if o = 0x10 ∧ resultUnseen s then .refused (.resultBeforeStatus (s.platform.regBase + o))
      else .next (regRead o s) := by
  rw [accessStep_read, hostRead, busTarget_regBase_add _ ho]
  simp only [regReadRefusal, regAccessOk, haligned]
  split_ifs <;> simp_all

theorem ctrlReadWord_toNat (op : Bool) : (ctrlReadWord op).toNat = 2 * op.toNat := by
  cases op <;> rfl

theorem statusWord_toNat (r : StatusReg) :
    (statusWord r).toNat = r.busy.toNat + 2 * r.done.toNat + 4 * r.err.toNat + 16 * r.errCode.toNat := by
  simp only [statusWord, toNat_append_eq_add, BitVec.toNat_ofBool, BitVec.toNat_ofNat]
  omega

theorem regValue_reserved {o : Nat} (ho : 0x14 ≤ o) (s : State) : regValue s o = 0 := by
  rw [regValue, if_neg (by omega), if_neg (by omega), if_neg (by omega), if_neg (by omega), if_neg (by omega)]

/-- Settles O20: the value by the offset; a read of OUT_LEN draws a free value only while `BUSY = 1`, and a read of
STATUS alone records that the end was seen. -/
theorem registerReads : Obligations.RegisterReads := by
  unfold Obligations.RegisterReads
  intro s o ho haligned
  rw [accessStep_read_reg ho haligned]
  refine ⟨fun h10 hidle hunseen => if_pos ⟨h10, by simp [resultUnseen, hidle, hunseen]⟩, fun hallowed => ?_⟩
  have hserved : ¬ (o = 0x10 ∧ resultUnseen s = true) := by
    rintro ⟨h10, hunseen⟩
    rcases hallowed h10 with h | h <;> simp [resultUnseen, h] at hunseen
  refine ⟨regRead o s, if_neg hserved, rfl, ?_, ?_, ?_, ?_, ?_, ?_, ?_, ?_, ?_⟩
  · rintro rfl; exact ctrlReadWord_toNat _
  · rintro rfl; exact statusWord_toNat _
  · rintro rfl; rfl
  · rintro rfl; rfl
  · rintro rfl hidle; simp [regValue, hidle]
  · exact fun hreserved => regValue_reserved hreserved s
  · exact fun hkept => if_neg (by rintro ⟨h10, hbusy⟩; rcases hkept with h | h <;> simp_all)
  · rintro rfl hidle; simp [hidle]
  · intro hkept; rcases hkept with h | h <;> simp [h]

/-! ## The map's other two regions -/

theorem inRegion_iff {base size addr : Nat} : inRegion base size addr = true ↔ base ≤ addr ∧ addr < base + size := by
  simp [inRegion]

theorem busTarget_inBase_add {p : Platform} (hp : platformLegal p) {a : Nat} (ha : a < p.inSize.toNat) :
    busTarget p (p.inBase + a) = .inByteAt a := by
  obtain ⟨-, -, hreg, -, -⟩ := hp
  rw [busTarget, if_neg (by rw [inRegion_iff]; omega), if_pos (by rw [inRegion_iff]; omega), Nat.add_sub_cancel_left]

theorem busTarget_outBase_add {p : Platform} (hp : platformLegal p) {a : Nat} (ha : a < p.outSize.toNat) :
    busTarget p (p.outBase + a) = .outByteAt a := by
  obtain ⟨-, -, -, hreg, hin⟩ := hp
  rw [busTarget, if_neg (by rw [inRegion_iff]; omega), if_neg (by rw [inRegion_iff]; omega),
    if_pos (by rw [inRegion_iff]; omega), Nat.add_sub_cancel_left]

/-- A write that is no CTRL write is served by the bus. -/
theorem accessStep_write_of_not_ctrl {s : State} {addr width : Nat} {w : Word}
    (h : busTarget s.platform addr = .reg 0 → width ≠ 4) :
    accessStep (.write addr width w) s = hostWrite addr width w s := by
  have hnot : ctrlWrite s.platform (.write addr width w) = none := if_neg fun hctrl => h hctrl.1 hctrl.2
  rw [accessStep, hnot]
  rfl

/-! ## Refused accesses -/

theorem memAccessRefusal_wide {width : Nat} (h : width ≠ 1) (s : State) (addr : Nat) :
    memAccessRefusal s addr width = some (.memAccessWide addr width) :=
  if_pos h

theorem memAccessRefusal_busy {s : State} (h : s.status.busy = true) (addr : Nat) :
    memAccessRefusal s addr 1 = some (.memAccessWhileBusy addr) := by
  simp [memAccessRefusal, h]

theorem memAccessRefusal_idle {s : State} (h : s.status.busy = false) (addr : Nat) :
    memAccessRefusal s addr 1 = none := by
  simp [memAccessRefusal, h]

/-- A register access of another width or alignment is refused (R36, U12). -/
theorem regAccess_refused {o width : Nat} (ho : o < 32) (hbad : width ≠ 4 ∨ o % 4 ≠ 0) (s : State) (w : Word) :
    accessStep (.read (s.platform.regBase + o) width) s = .refused (.regAccessOther o width) ∧
    accessStep (.write (s.platform.regBase + o) width w) s = .refused (.regAccessOther o width) := by
  have htarget := busTarget_regBase_add s.platform ho
  have hnotOk : regAccessOk o width = false := by
    rcases hbad with h | h <;> simp [regAccessOk, h]
  constructor
  · rw [accessStep_read, hostRead, htarget]
    simp [regReadRefusal, hnotOk]
  · rw [accessStep_write_of_not_ctrl fun h => by cases htarget.symm.trans h; omega, hostWrite, htarget]
    simp [hnotOk]

/-- An access to a byte of IN that its width or BUSY forbids is refused, with that reason (R36, R133). -/
theorem inAccess_refused {s : State} {addr a width : Nat} {r : Refusal}
    (htarget : busTarget s.platform addr = .inByteAt a) (hr : memAccessRefusal s addr width = some r) (w : Word) :
    accessStep (.read addr width) s = .refused r ∧ accessStep (.write addr width w) s = .refused r := by
  constructor
  · rw [accessStep_read, hostRead, htarget]
    simp only [hr]
  · rw [accessStep_write_of_not_ctrl (by simp [htarget]), hostWrite, htarget]
    simp only [hr]

/-- An access to a byte of OUT that its width or BUSY forbids is refused, with that reason (R36, R133). -/
theorem outAccess_refused {s : State} {addr a width : Nat} {r : Refusal}
    (htarget : busTarget s.platform addr = .outByteAt a) (hr : memAccessRefusal s addr width = some r) (w : Word) :
    accessStep (.read addr width) s = .refused r ∧ accessStep (.write addr width w) s = .refused r := by
  constructor
  · rw [accessStep_read, hostRead, htarget]
    simp only [outReadRefusal, hr]
  · rw [accessStep_write_of_not_ctrl (by simp [htarget]), hostWrite, htarget]
    simp only [hr]

/-- A byte read of OUT while `BUSY = 0`: refused until the operation's end was seen (R133). -/
theorem accessStep_read_out {s : State} {addr a : Nat} (htarget : busTarget s.platform addr = .outByteAt a)
    (hidle : s.status.busy = false) :
    accessStep (.read addr 1) s =
      if s.resultSeen then .next { s with readData := (outByte s a).setWidth 32 }
      else .refused (.resultBeforeStatus addr) := by
  rw [accessStep_read, hostRead, htarget]
  cases hseen : s.resultSeen <;> simp [outReadRefusal, memAccessRefusal_idle hidle, resultUnseen, hidle, hseen]

/-- Settles O22: each region by its place in the map, the width before BUSY. -/
theorem refusedAccesses : Obligations.RefusedAccesses := by
  unfold Obligations.RefusedAccesses
  intro s o a width w hp
  refine ⟨fun ho hbad => regAccess_refused ho hbad s w, fun ha => ?_, fun ha => ?_⟩
  · have htarget := busTarget_inBase_add hp ha
    refine ⟨fun hwide => inAccess_refused htarget (memAccessRefusal_wide hwide s _) w, ?_⟩
    rintro rfl hbusy
    exact inAccess_refused htarget (memAccessRefusal_busy hbusy _) w
  · have htarget := busTarget_outBase_add hp ha
    refine ⟨fun hwide => outAccess_refused htarget (memAccessRefusal_wide hwide s _) w, ?_, ?_⟩
    · rintro rfl hbusy
      exact outAccess_refused htarget (memAccessRefusal_busy hbusy _) w
    · rintro rfl hidle hunseen
      rw [accessStep_read_out htarget hidle, hunseen]
      rfl

/-! ## Byte accesses while idle -/

theorem inByte_write (s : State) (a x : Nat) (v : Byte) :
    inByte { s with inMem := Table.write s.inMem a v } x = if x = a then v else inByte s x := by
  rw [inByte, Table.lookup_write]
  split <;> rfl

/-- Settles O23: the access the map sends to the byte's memory, which changes or returns that byte. -/
theorem memoryAccessesWhileIdle : Obligations.MemoryAccessesWhileIdle := by
  unfold Obligations.MemoryAccessesWhileIdle
  intro s a w hp hidle
  have hserved := memAccessRefusal_idle hidle
  have hlow : (w.setWidth 8).toNat = w.toNat % 256 := BitVec.toNat_setWidth ..
  have hwiden (b : Byte) : (b.setWidth 32).toNat = b.toNat := BitVec.toNat_setWidth_of_le (by decide)
  refine ⟨fun ha => ⟨?_, ?_⟩, fun ha => ⟨?_, fun hseen => ?_⟩⟩
  · have htarget := busTarget_inBase_add hp ha
    refine ⟨{ s with inMem := Table.write s.inMem a (w.setWidth 8) }, ?_, ?_, fun x hx => ?_, rfl⟩
    · rw [accessStep_write_of_not_ctrl (by simp [htarget]), hostWrite, htarget]
      simp only [hserved]
    · rw [inByte_write, if_pos rfl, hlow]
    · rw [inByte_write, if_neg hx]
  · have htarget := busTarget_inBase_add hp ha
    refine ⟨{ s with readData := (inByte s a).setWidth 32 }, ?_, hwiden _, rfl⟩
    rw [accessStep_read, hostRead, htarget]
    simp only [hserved]
  · have htarget := busTarget_outBase_add hp ha
    refine ⟨writeOut s a (w.setWidth 8), ?_, ?_, fun x hx => ?_, rfl⟩
    · rw [accessStep_write_of_not_ctrl (by simp [htarget]), hostWrite, htarget]
      simp only [hserved]
    · rw [outByte_writeOut, if_pos rfl, hlow]
    · rw [outByte_writeOut, if_neg hx]
  · refine ⟨{ s with readData := (outByte s a).setWidth 32 }, ?_, hwiden _, rfl⟩
    rw [accessStep_read_out (busTarget_outBase_add hp ha) hidle, hseen]
    rfl

/-! ## Idle, poll and reset -/

theorem step_of_host_nil {s : State} (h : s.host = []) : step s = engineStep s := by
  rw [step, h]

/-- Settles O27: the idle engine's step, and the end of the poll. -/
theorem idleAndPoll : Obligations.IdleAndPoll := by
  unfold Obligations.IdleAndPoll
  refine ⟨fun s hhost hidle => (step_of_host_nil hhost).trans (engineStep_idle hidle), fun s later hhost hbusy => ?_⟩
  refine ⟨pollDone { s with host := later }, ?_, ?_, rfl⟩
  · rw [step, hhost]
    exact if_neg (by simp [hbusy])
  · exact (statusWord_toNat s.status).trans (by simp [hbusy])

/-- Every register reads 0 where reset has left it (R147). -/
theorem regValue_eq_zero {s : State} (hop : s.ctrlOp = false) (hstatus : s.status = State.reset.status)
    (hin : s.inLen = 0) (hcap : s.outCap = 0) (hout : s.outLen = 0) (o : Nat) : regValue s o = 0 := by
  have hctrl : ctrlReadWord false = 0 := rfl
  have hword : statusWord State.reset.status = 0 := rfl
  have hbusy : State.reset.status.busy = false := rfl
  simp [regValue, hop, hstatus, hin, hcap, hout, hctrl, hword, hbusy]

/-- Settles O28: reset is the reset state with the platform, the host's actions and the model's counters kept. -/
theorem resetValues : Obligations.ResetValues := by
  unfold Obligations.ResetValues
  refine ⟨⟨rfl, statusWord_toNat _, rfl, rfl, rfl, rfl, fun o _ _ => regValue_eq_zero rfl rfl rfl rfl rfl o⟩,
    fun s later hhost => ?_⟩
  refine ⟨resetNow { s with host := later }, by rw [step, hhost], rfl, statusWord_toNat _, rfl, rfl, rfl, rfl,
    fun o _ _ => regValue_eq_zero rfl rfl rfl rfl rfl o, rfl, rfl⟩

/-! ## A step runs the decoded instruction -/

/-- The window is empty only at the end of the input. -/
theorem fetchWindow_length (s : State) : (fetchWindow s).length = min 5 (s.inLen.toNat - s.dec.pos.toNat) := by
  simp [fetchWindow]

theorem byteAt_fetchWindow {s : State} {j : Nat} (hj : j < (fetchWindow s).length) :
    byteAt (fetchWindow s) j = inByte s (s.dec.pos.toNat + j) := by
  rw [fetchWindow_length] at hj
  simp [byteAt, fetchWindow, hj]

/-- Bytes that decode are there: the cursor is below IN_LEN (R103). -/
theorem pos_lt_of_fetchWindow_ne_nil {s : State} (h : fetchWindow s ≠ []) : s.dec.pos.toNat < s.inLen.toNat := by
  have hlen := List.length_pos_iff.2 h
  rw [fetchWindow_length] at hlen
  omega

theorem engineStep_element {s : State} (hphase : s.phase = .dcmp .decodeLoop)
    (hpos : s.dec.pos.toNat < s.inLen.toNat) : engineStep s = exec (fetchedElement s) s := by
  simp only [engineStep, hphase, if_pos hpos]

theorem engineStep_header {s : State} (hphase : s.phase = .dcmp .readHeader)
    (hpos : s.dec.pos.toNat < s.inLen.toNat) : engineStep s = exec (fetchedHeader s) s := by
  simp only [engineStep, hphase, if_pos hpos]

theorem engineStep_headerExhausted {s : State} (hphase : s.phase = .dcmp .readHeader)
    (hend : s.inLen.toNat ≤ s.dec.pos.toNat) : engineStep s = .next (headerExhausted s) := by
  simp only [engineStep, hphase, if_neg (Nat.not_lt.2 hend)]

theorem engineStep_endOfStream {s : State} (hphase : s.phase = .dcmp .decodeLoop)
    (hend : s.inLen.toNat ≤ s.dec.pos.toNat) : engineStep s = .next (endOfStream s) := by
  simp only [engineStep, hphase, if_neg (Nat.not_lt.2 hend)]

/-- What a nonempty window decodes to is the fetched element, when its bytes are all there. -/
theorem decode_element_fetchWindow {s : State} {i : Instr} {rest : List Byte}
    (h : decode .element (fetchWindow s) = .ok (i, rest)) :
    s.dec.pos.toNat < s.inLen.toNat ∧ fetchedElement s = i := by
  have hne : fetchWindow s ≠ [] := by
    intro hnil
    rw [hnil] at h
    cases h
  refine ⟨pos_lt_of_fetchWindow_ne_nil hne, ?_⟩
  obtain ⟨b, bytes, hcons⟩ := List.exists_cons_of_ne_nil hne
  rw [hcons, decode] at h
  split_ifs at h
  rw [fetchedElement, hcons]
  exact (Prod.mk.inj (Except.ok.inj h)).1

/-- Settles O24: what decodes is what the engine fetches, and the word of a CTRL write is read back from its bytes. -/
theorem stepRunsDecoded : Obligations.StepRunsDecoded := by
  unfold Obligations.StepRunsDecoded
  refine ⟨fun s i rest hhost hphase h => ?_, fun s i rest hhost hphase h => ?_, fun s i w rest later hhost h => ?_⟩
  · obtain ⟨hpos, hi⟩ := decode_element_fetchWindow h
    rw [step_of_host_nil hhost, engineStep_element hphase hpos, hi]
  · have hne : fetchWindow s ≠ [] := by
      intro hnil
      rw [hnil] at h
      cases h
    obtain ⟨c, bytes, hcons⟩ := List.exists_cons_of_ne_nil hne
    have hfirst : byteAt (fetchWindow s) 0 = inByte s (s.dec.pos.toNat + 0) :=
      byteAt_fetchWindow (List.length_pos_iff.2 hne)
    rw [hcons] at h hfirst
    obtain ⟨rfl, -⟩ := Prod.mk.inj (Except.ok.inj h)
    rw [step_of_host_nil hhost, engineStep_header hphase (pos_lt_of_fetchWindow_ne_nil hne), fetchedHeader]
    exact congrArg (fun b => exec (decodeHeader b) s) hfirst.symm
  · rw [← List.append_nil (commandBytes w), decode_commandBytes] at h
    obtain ⟨rfl, -⟩ := Prod.mk.inj (Except.ok.inj h)
    rw [step, hhost]
    exact accessStep_write_ctrl { s with host := later } w

end Sys2Proof.Machine
end

section
/-! SUPPORT. The literal forms that complete (44_tag_parser.md R105 to R111) and a stream that ends inside an
element. -/

namespace Sys2Proof.Machine

/-! ## A literal whose checks pass -/

theorem literalVerdict_eq_none_iff {k len : Nat} {s : State} :
    literalVerdict k len s = none ↔
      s.dec.pos.toNat + 1 + k + len ≤ s.inLen.toNat ∧ s.dec.outPos.toNat + len ≤ s.dec.L.toNat := by
  unfold literalVerdict
  split_ifs <;> simp <;> omega

/-- A literal whose payload checks pass is moved (R105, R106). -/
theorem literalPayload_of_checks_pass {len : Nat} {s : State} (hin : s.dec.pos.toNat + len ≤ s.inLen.toNat)
    (hout : s.dec.outPos.toNat + len ≤ s.dec.L.toNat) : literalPayload len s = literalMove len s := by
  rw [literalPayload, if_neg (Nat.not_lt.2 hin), if_neg (Nat.not_lt.2 hout)]

/-- The parser registers at a literal's payload, with what its form has written (R107 to R111). -/
def payloadRegs (pos : Word) (len : BitVec 33) (k : BitVec 3) (s : State) : DecRegs :=
  { (fetchTag s).dec with pos := pos, len := len, k := k }

/-- R106 from the parser registers at the payload: the literal is complete. -/
theorem literalPayload_literalDone {k len : Nat} {s : State} {pos : Word} {lenReg : BitVec 33} {kReg : BitVec 3}
    (hpos : pos.toNat = s.dec.pos.toNat + 1 + k) (hlen : lenReg.toNat = len)
    (hk : kReg = if k = 0 then s.dec.k else BitVec.ofNat 3 k) (h : literalVerdict k len s = none) :
    LiteralDone k len s (literalPayload len { s with dec := payloadRegs pos lenReg kReg s }) := by
  obtain ⟨hin, hout⟩ := literalVerdict_eq_none_iff.1 h
  have hmove : literalPayload len { s with dec := payloadRegs pos lenReg kReg s } = _ :=
    literalPayload_of_checks_pass (hpos ▸ hin) hout
  rw [hmove]
  have hread (x : Nat) : outByte (literalMove len { s with dec := payloadRegs pos lenReg kReg s }) x = _ :=
    outByteOf_moveBytes s.epoch (inByte s) len pos.toNat s.dec.outPos.toNat s.outMem x
  rw [hpos] at hread
  refine ⟨fun i hi => ?_, fun a ha => ?_, ?_, toNat_ofNat_of_lt (Nat.lt_of_le_of_lt hout s.dec.L.isLt), rfl, hlen, hk,
    rfl, rfl, rfl, rfl, rfl⟩
  · rw [hread, if_pos (by omega), Nat.add_sub_cancel_left]
  · rw [hread, if_neg (by omega)]
    rfl
  · show (BitVec.ofNat 32 (pos.toNat + len)).toNat = _
    rw [hpos]
    exact toNat_ofNat_of_lt (Nat.lt_of_le_of_lt hin s.inLen.isLt)

/-- LIT: no extension byte, and `k` as it was (R107; log entry 29). -/
theorem execLit_literalDone {f : BitVec 6} {s : State} (hpos : s.dec.pos.toNat < s.inLen.toNat)
    (h : literalVerdict 0 (f.toNat + 1) s = none) :
    ∃ t, exec (.lit f) s = .next t ∧ LiteralDone 0 (f.toNat + 1) s t :=
  ⟨_, rfl, literalPayload_literalDone (fetchTag_pos_toNat hpos) (toNat_ofNat_of_lt (n := f.toNat + 1) (by omega)) rfl h⟩

/-- An extended literal: its length is read past the tag (R108 to R111). -/
theorem literalExtended_literalDone {k len : Nat} {s : State} (hk : k ≠ 0) (hlen : len < 2 ^ 33)
    (hpos : s.dec.pos.toNat < s.inLen.toNat) (h : literalVerdict k len s = none) :
    LiteralDone k len s (literalExtended k len (fetchTag s)) := by
  have hin := (literalVerdict_eq_none_iff.1 h).1
  have hfetch := fetchTag_pos_toNat hpos
  have hfits : ¬ (fetchTag s).dec.pos.toNat + k > (fetchTag s).inLen.toNat := by
    rw [hfetch, fetchTag_inLen]
    omega
  rw [literalExtended, if_neg hfits]
  refine literalPayload_literalDone ?_ (toNat_ofNat_of_lt hlen) (if_neg hk).symm h
  rw [hfetch]
  exact toNat_ofNat_of_lt (by omega)

/-- Settles O8: LIT after its fetch, and each extended form with its own extension bytes. -/
theorem literalFormsComplete : Obligations.LiteralFormsComplete := by
  unfold Obligations.LiteralFormsComplete
  intro s hpos
  refine ⟨fun f h => execLit_literalDone hpos h,
    fun f h => ⟨_, rfl, literalExtended_literalDone (by decide) ?_ hpos h⟩,
    fun f h => ⟨_, rfl, literalExtended_literalDone (by decide) ?_ hpos h⟩,
    fun f h => ⟨_, rfl, literalExtended_literalDone (by decide) ?_ hpos h⟩,
    fun f h => ⟨_, rfl, literalExtended_literalDone (by decide) ?_ hpos h⟩⟩ <;> omega

/-! ## A stream that ends inside an element -/

theorem encodedBytes_le_five {i : Instr} : i.encodedBytes ≤ 5 := by
  cases i <;> simp [Instr.encodedBytes]

/-- An element whose bytes are not all there fails by its tag: a literal's extension bytes, or a copy's operand bytes
(R105 check 1, R112). -/
theorem exec_truncated_element {s : State} (hpos : s.dec.pos.toNat < s.inLen.toNat)
    (hshort : s.inLen.toNat < s.dec.pos.toNat + (fetchedElement s).encodedBytes) :
    ∃ t, exec (fetchedElement s) s = .next t ∧
      FailedEntry (if (inByte s s.dec.pos.toNat).toNat % 4 = 0 then .truncatedLiteral else .truncatedCopyOperand)
        s t := by
  have htag : byteAt (fetchWindow s) 0 = inByte s s.dec.pos.toNat :=
    byteAt_fetchWindow (by rw [fetchWindow_length]; omega)
  have hcopy {k len offset : Nat} (h : s.inLen.toNat < s.dec.pos.toNat + (k + 1)) :
      FailedEntry .truncatedCopyOperand s (copyElement k len offset (fetchTag s)) :=
    copyElement_failedEntry hpos (if_pos (by omega))
  have hliteral {k len : Nat} (h : s.inLen.toNat < s.dec.pos.toNat + (k + 1)) :
      FailedEntry .truncatedLiteral s (literalExtended k len (fetchTag s)) :=
    literalExtended_failedEntry hpos (if_pos (by omega))
  rw [← htag]
  unfold fetchedElement at hshort ⊢
  rcases decodeElement_cases (byteAt (fetchWindow s)) with ⟨ht, h⟩ | ⟨ht, h⟩ | ⟨ht, h⟩ | ⟨ht, h⟩ | ⟨ht, h⟩ |
    ⟨ht, h⟩ | ⟨ht, h⟩ | ⟨ht, -, h⟩ <;> rw [h] at hshort ⊢
  · exact ⟨_, rfl, by rw [if_neg (by omega)]; exact hcopy hshort⟩
  · exact ⟨_, rfl, by rw [if_neg (by omega)]; exact hcopy hshort⟩
  · exact ⟨_, rfl, by rw [if_neg (by omega)]; exact hcopy hshort⟩
  · exact ⟨_, rfl, by rw [ht]; exact hliteral hshort⟩
  · exact ⟨_, rfl, by rw [ht]; exact hliteral hshort⟩
  · exact ⟨_, rfl, by rw [ht]; exact hliteral hshort⟩
  · exact ⟨_, rfl, by rw [ht]; exact hliteral hshort⟩
  · exact absurd hshort (Nat.not_lt.2 hpos)

/-- Bytes that are too few for their element: some are there, and the element wants more than IN holds. -/
theorem decode_element_truncated {s : State} {needed : Nat}
    (h : decode .element (fetchWindow s) = .error (.truncatedOperand needed)) :
    s.dec.pos.toNat < s.inLen.toNat ∧ s.inLen.toNat < s.dec.pos.toNat + (fetchedElement s).encodedBytes := by
  have hne : fetchWindow s ≠ [] := by
    intro hnil
    rw [hnil] at h
    cases h
  have hshort : ¬ (fetchedElement s).encodedBytes ≤ (fetchWindow s).length := by
    intro hle
    rw [decode_element_of_le hle] at h
    cases h
  have hpos := pos_lt_of_fetchWindow_ne_nil hne
  have hfive := encodedBytes_le_five (i := fetchedElement s)
  rw [fetchWindow_length] at hshort
  omega

/-- Settles O25: the step is the engine's, with no header byte left or with too few bytes for the element. -/
theorem truncatedStreamRaises : Obligations.TruncatedStreamRaises := by
  unfold Obligations.TruncatedStreamRaises
  intro s hhost
  rw [step_of_host_nil hhost]
  refine ⟨fun hphase hend => ?_, fun hphase needed h => ?_⟩
  · exact ⟨_, engineStep_headerExhausted hphase hend, raise_failedEntry _ s⟩
  · obtain ⟨hpos, hshort⟩ := decode_element_truncated h
    rw [engineStep_element hphase hpos]
    exact exec_truncated_element hpos hshort

end Sys2Proof.Machine
end

section
/-! SUPPORT. The varint header (40_varint.md R64 to R70): the round-trip check as a bound, what a header byte does when
its checks pass or fail, the shape of a varint, and that reading one returns its value. -/

namespace Sys2Proof.Machine

/-! ## A header byte -/

/-- The round-trip check passes exactly when the shifted group loses no bit (R68). -/
theorem groupFits_iff (g : BitVec 7) (shift : Nat) : groupFits g shift = true ↔ g.toNat * 2 ^ shift < 2 ^ 32 := by
  have hg : (g.setWidth 32).toNat = g.toNat := BitVec.toNat_setWidth_of_le (by decide)
  rw [groupFits, beq_iff_eq, ← BitVec.toNat_inj, BitVec.toNat_ushiftRight, BitVec.toNat_shiftLeft, hg,
    Nat.shiftLeft_eq, Nat.shiftRight_eq_div_pow]
  constructor
  · intro h
    by_contra hge
    have : g.toNat * 2 ^ shift % 2 ^ 32 < g.toNat * 2 ^ shift :=
      Nat.lt_of_lt_of_le (Nat.mod_lt _ (by decide)) (Nat.not_lt.1 hge)
    have := (Nat.div_lt_iff_lt_mul (Nat.two_pow_pos shift)).2 this
    omega
  · intro h
    rw [Nat.mod_eq_of_lt h, Nat.mul_div_cancel _ (Nat.two_pow_pos shift)]

/-- Settles O12: the bound of the check at each shift, for a group below 128. -/
theorem roundTripCheck : Obligations.RoundTripCheck := by
  unfold Obligations.RoundTripCheck
  intro g
  simp only [groupFits_iff]
  omega

/-- The registers once a group is taken (R67): the group added at `vshift`, and the cursor past its byte. -/
def groupRegs (g : BitVec 7) (s : State) : DecRegs :=
  { s.dec with
    pos  := BitVec.ofNat 32 (s.dec.pos.toNat + 1)
    vres := s.dec.vres ||| BitVec.ofNat 32 (g.toNat * 2 ^ s.dec.vshift.toNat) }

theorem shiftLeft_group (g : BitVec 7) (shift : Nat) :
    g.setWidth 32 <<< shift = BitVec.ofNat 32 (g.toNat * 2 ^ shift) := by
  apply BitVec.eq_of_toNat_eq
  rw [BitVec.toNat_shiftLeft, BitVec.toNat_setWidth_of_le (by decide), BitVec.toNat_ofNat, Nat.shiftLeft_eq]

theorem ofNat_toNat_add {w : Nat} (v : BitVec w) (n : Nat) : BitVec.ofNat w (v.toNat + n) = v + BitVec.ofNat w n := by
  rw [BitVec.ofNat_add, BitVec.ofNat_toNat, BitVec.setWidth_eq]

/-- A group whose three checks pass is taken (R67). -/
theorem takeGroup_of_checks_pass {g : BitVec 7} {s : State} (hshift : s.dec.vshift.toNat < 32)
    (hpos : s.dec.pos.toNat < s.inLen.toNat) (hfits : g.toNat * 2 ^ s.dec.vshift.toNat < 2 ^ 32) :
    takeGroup g s = some { s with dec := groupRegs g s } := by
  rw [takeGroup, if_neg (Nat.not_le.2 hshift), if_neg (Nat.not_le.2 hpos), if_pos ((groupFits_iff _ _).2 hfits),
    shiftLeft_group, groupRegs, ofNat_toNat_add]
  rfl

theorem takeGroup_eq_none_iff {g : BitVec 7} {s : State} :
    takeGroup g s = none ↔ 32 ≤ s.dec.vshift.toNat ∨ s.inLen.toNat ≤ s.dec.pos.toNat ∨
      2 ^ 32 ≤ g.toNat * 2 ^ s.dec.vshift.toNat := by
  unfold takeGroup
  split_ifs with h1 h2 h3
  · simp [h1]
  · simp [h2]
  · rw [groupFits_iff] at h3
    simp only [false_iff]
    omega
  · rw [groupFits_iff] at h3
    simp only [true_iff]
    omega

/-- A byte with `C = 1` whose group is taken: another follows (R67). -/
theorem exec_varintCont_of_takeGroup {g : BitVec 7} {s u : State} (h : takeGroup g s = some u) :
    exec (.varintCont g) s = .next { u with dec := { u.dec with vshift := u.dec.vshift + 7 } } := by
  simp only [exec, execVarintCont, h]

/-- A byte with `C = 0` whose group is taken ends the header (R67). -/
theorem exec_varintLast_of_takeGroup {g : BitVec 7} {s u : State} (h : takeGroup g s = some u) :
    exec (.varintLast g) s = .next (enterDecodeLoop u) := by
  simp only [exec, execVarintLast, h]

theorem enterDecodeLoop_of_fits {s : State} (h : s.dec.vres.toNat ≤ s.outCap.toNat) :
    enterDecodeLoop s =
      { s with dec := { s.dec with L := s.dec.vres, outPos := 0 }, phase := .dcmp .decodeLoop } :=
  if_neg (Nat.not_lt.2 h)

/-- The declared length does not fit: a failure before the first OUT write (R102), of any state with other parser
registers too. -/
theorem enterDecodeLoop_failedEntry {s : State} {d : DecRegs} (h : s.outCap.toNat < d.vres.toNat) :
    FailedEntry .lengthExceedsCapacity s (enterDecodeLoop { s with dec := d }) := by
  rw [enterDecodeLoop, if_pos h]
  exact raise_dec_failedEntry_of_not_inDecodeLoop rfl s _

/-- Settles O10: the group is taken, and the byte's kind says what follows. -/
theorem headerBytesComplete : Obligations.HeaderBytesComplete := by
  unfold Obligations.HeaderBytesComplete
  intro s g hshift hpos hfits
  have htake := takeGroup_of_checks_pass hshift hpos hfits
  refine ⟨?_, fun hcap => ?_⟩
  · rw [exec_varintCont_of_takeGroup htake, ofNat_toNat_add s.dec.vshift]
    rfl
  · rw [exec_varintLast_of_takeGroup htake, enterDecodeLoop_of_fits hcap]
    rfl

/-- Settles O11: no group is taken when a check fails, and a length that does not fit is raised at the last byte. -/
theorem headerBytesRaise : Obligations.HeaderBytesRaise := by
  unfold Obligations.HeaderBytesRaise
  intro s g
  refine ⟨fun hfail => ?_, fun hshift hpos hfits hcap => ?_⟩
  · have hnone := takeGroup_eq_none_iff.2 hfail
    exact ⟨⟨_, by simp only [exec, execVarintCont, hnone], raise_failedEntry _ s⟩,
      ⟨_, by simp only [exec, execVarintLast, hnone], raise_failedEntry _ s⟩⟩
  · exact ⟨_, exec_varintLast_of_takeGroup (takeGroup_of_checks_pass hshift hpos hfits),
      enterDecodeLoop_failedEntry hcap⟩

/-! ## The shape of a varint -/

/-- The loop of R64 as an induction: what holds of a value of one group, and of a longer one when it holds of the bits
above its first group, holds of every 32-bit value. -/
theorem varintBytes_induction {P : Nat → List Byte → Prop} (last : ∀ v, v < 128 → P v [BitVec.ofNat 8 v])
    (more : ∀ v, 128 ≤ v → v < 2 ^ 32 → P (v / 128) (varintBytes (v / 128)) →
      P v (BitVec.ofNat 8 (v % 128 + 128) :: varintBytes (v / 128))) :
    ∀ {v : Nat}, v < 2 ^ 32 → P v (varintBytes v) := by
  intro v
  induction v using Nat.strong_induction_on with
  | _ v ih =>
    intro hv
    rcases Nat.lt_or_ge v 128 with hlt | hle
    · rw [varintBytes_of_lt hlt]
      exact last v hlt
    · rw [varintBytes_of_le hle hv]
      exact more v hle hv (ih (v / 128) (by omega) (by omega))

/-- R65: the length of a varint. -/
theorem varintBytes_length {v : Nat} (hv : v < 2 ^ 32) :
    (varintBytes v).length =
      if v < 2 ^ 7 then 1 else if v < 2 ^ 14 then 2 else if v < 2 ^ 21 then 3 else if v < 2 ^ 28 then 4 else 5 := by
  refine varintBytes_induction (P := fun v bytes => bytes.length = if v < 2 ^ 7 then 1 else if v < 2 ^ 14 then 2 else
    if v < 2 ^ 21 then 3 else if v < 2 ^ 28 then 4 else 5) (fun v hlt => ?_) (fun v hle hv ih => ?_) hv
  · exact (if_pos hlt).symm
  · rw [List.length_cons, ih]
    split_ifs <;> omega

theorem varintBytes_length_pos {v : Nat} (hv : v < 2 ^ 32) : 0 < (varintBytes v).length := by
  rw [varintBytes_length hv]
  split_ifs <;> decide

/-- R64: every byte but the last carries the continuation bit. -/
theorem varintBytes_continues {v : Nat} (hv : v < 2 ^ 32) :
    ∀ j, j + 1 < (varintBytes v).length → 0x80 ≤ (byteAt (varintBytes v) j).toNat := by
  refine varintBytes_induction (P := fun _ bytes => ∀ j, j + 1 < bytes.length → 0x80 ≤ (byteAt bytes j).toNat)
    (fun v _ j hj => ?_) (fun v _ _ ih j hj => ?_) hv
  · simp at hj
  · cases j with
    | zero =>
      rw [byteAt_cons_zero, BitVec.toNat_ofNat]
      omega
    | succ j => exact ih j (Nat.lt_of_succ_lt_succ hj)

/-- R64: the last byte is the value's highest group. -/
theorem varintBytes_last {v : Nat} (hv : v < 2 ^ 32) :
    (byteAt (varintBytes v) ((varintBytes v).length - 1)).toNat = v / 128 ^ ((varintBytes v).length - 1) ∧
    v / 128 ^ ((varintBytes v).length - 1) < 128 ∧ (v ≠ 0 → v / 128 ^ ((varintBytes v).length - 1) ≠ 0) := by
  refine varintBytes_induction (P := fun v bytes =>
    (byteAt bytes (bytes.length - 1)).toNat = v / 128 ^ (bytes.length - 1) ∧
    v / 128 ^ (bytes.length - 1) < 128 ∧ (v ≠ 0 → v / 128 ^ (bytes.length - 1) ≠ 0)) (fun v hlt => ?_)
    (fun v hle hv ih => ?_) hv
  · have hvalue : (BitVec.ofNat 8 v).toNat = v := toNat_ofNat_of_lt (by omega)
    simp [hvalue, hlt]
  · obtain ⟨n, hn⟩ : ∃ n, (varintBytes (v / 128)).length = n + 1 :=
      Nat.exists_eq_succ_of_ne_zero (varintBytes_length_pos (by omega)).ne'
    obtain ⟨hbyte, hlt, hne⟩ := ih
    rw [hn, Nat.add_sub_cancel, Nat.div_div_eq_div_mul, ← Nat.pow_succ'] at hbyte hlt hne
    rw [List.length_cons, hn, Nat.add_sub_cancel, byteAt_cons_succ]
    exact ⟨hbyte, hlt, fun _ => hne (by omega)⟩

/-- Settles O13: the length by value, and the last byte as the highest group. -/
theorem varintShape : Obligations.VarintShape := by
  unfold Obligations.VarintShape
  intro v hv
  obtain ⟨hlast, hlt, hne⟩ := varintBytes_last hv
  refine ⟨varintBytes_length hv, varintBytes_continues hv, hlast ▸ hlt, fun h0 => hlast ▸ hne h0, fun h5 => ?_⟩
  rw [h5] at hlast
  rw [hlast]
  omega

/-! ## Reading a varint -/

/-- A first step, then the rest of the run. -/
theorem core_run_succ {s t : State} (h : step s = .next t) (n : Nat) :
    Host.Core.run Sys2Proof.core (n + 1) s = Host.Core.run Sys2Proof.core n t := by
  have hstep : Sys2Proof.core.step s = .next t := h
  simp only [Host.Core.run, hstep]

/-- The continuation bit above a group of 7 bits (R48). -/
theorem decodeHeader_continue {n : Nat} (hn : n < 128) :
    decodeHeader (BitVec.ofNat 8 (n + 128)) = .varintCont (BitVec.ofNat 7 n) := by
  have hbyte : BitVec.ofNat 8 (n + 128) = 1#1 ++ BitVec.ofNat 7 n := by
    apply BitVec.eq_of_toNat_eq
    simp only [toNat_append_eq_add, BitVec.toNat_ofNat]
    omega
  rw [hbyte]
  exact decodeHeader_append 1#1 _

theorem decodeHeader_last {n : Nat} (hn : n < 128) :
    decodeHeader (BitVec.ofNat 8 n) = .varintLast (BitVec.ofNat 7 n) := by
  have hbyte : BitVec.ofNat 8 n = 0#1 ++ BitVec.ofNat 7 n := by
    apply BitVec.eq_of_toNat_eq
    simp only [toNat_append_eq_add, BitVec.toNat_ofNat]
    omega
  rw [hbyte]
  exact decodeHeader_append 0#1 _

/-- A group put above the bits read so far is added to them (R67). -/
theorem or_group_toNat {vres : Word} {n shift : Nat} (hvres : vres.toNat < 2 ^ shift) (hfits : n * 2 ^ shift < 2 ^ 32) :
    (vres ||| BitVec.ofNat 32 (n * 2 ^ shift)).toNat = vres.toNat + n * 2 ^ shift := by
  rw [BitVec.toNat_or, toNat_ofNat_of_lt hfits, ← Nat.shiftLeft_eq, Nat.or_comm,
    ← Nat.shiftLeft_add_eq_or_of_lt hvres, Nat.add_comm]

/-- A step at the last byte of a header (R67). -/
theorem step_varintLast {s : State} {v : Nat} (hphase : s.phase = .dcmp .readHeader) (hhost : s.host = [])
    (hpos : s.dec.pos.toNat < s.inLen.toNat) (hbyte : inByte s s.dec.pos.toNat = BitVec.ofNat 8 v) (hv : v < 128)
    (hshift : s.dec.vshift.toNat < 32) (hfits : v * 2 ^ s.dec.vshift.toNat < 2 ^ 32) :
    step s = .next (enterDecodeLoop { s with dec := groupRegs (BitVec.ofNat 7 v) s }) := by
  rw [step_of_host_nil hhost, engineStep_header hphase hpos, fetchedHeader, hbyte, decodeHeader_last hv]
  refine exec_varintLast_of_takeGroup (takeGroup_of_checks_pass hshift hpos ?_)
  rwa [toNat_ofNat_of_lt hv]

/-- The registers after a byte of the header that another follows (R67). -/
def continueRegs (g : BitVec 7) (s : State) : DecRegs :=
  { groupRegs g s with vshift := s.dec.vshift + 7 }

/-- The shift after a byte of the header that another follows (R67). -/
theorem continueRegs_vshift_toNat (g : BitVec 7) {s : State} (hshift : s.dec.vshift.toNat < 32) :
    (continueRegs g s).vshift.toNat = s.dec.vshift.toNat + 7 :=
  BitVec.toNat_add_of_lt (show s.dec.vshift.toNat + 7 < 2 ^ 6 by omega)

/-- A step at a byte of a header that another follows (R67). -/
theorem step_varintCont {s : State} {v : Nat} (hphase : s.phase = .dcmp .readHeader) (hhost : s.host = [])
    (hpos : s.dec.pos.toNat < s.inLen.toNat) (hbyte : inByte s s.dec.pos.toNat = BitVec.ofNat 8 (v + 128))
    (hv : v < 128) (hshift : s.dec.vshift.toNat < 32) (hfits : v * 2 ^ s.dec.vshift.toNat < 2 ^ 32) :
    step s = .next { s with dec := continueRegs (BitVec.ofNat 7 v) s } := by
  rw [step_of_host_nil hhost, engineStep_header hphase hpos, fetchedHeader, hbyte, decodeHeader_continue hv]
  refine exec_varintCont_of_takeGroup (takeGroup_of_checks_pass hshift hpos ?_)
  rwa [toNat_ofNat_of_lt hv]

/-- The cursor past a header byte (R67). -/
theorem groupRegs_pos_toNat (g : BitVec 7) {s : State} (hpos : s.dec.pos.toNat < s.inLen.toNat) :
    (groupRegs g s).pos.toNat = s.dec.pos.toNat + 1 :=
  toNat_ofNat_of_lt (Nat.lt_of_le_of_lt hpos s.inLen.isLt)

/-- The value once a group is taken (R67). -/
theorem groupRegs_vres_toNat {g : BitVec 7} {s : State} (hvres : s.dec.vres.toNat < 2 ^ s.dec.vshift.toNat)
    (hfits : g.toNat * 2 ^ s.dec.vshift.toNat < 2 ^ 32) :
    (groupRegs g s).vres.toNat = s.dec.vres.toNat + g.toNat * 2 ^ s.dec.vshift.toNat :=
  or_group_toNat hvres hfits

/-- ReadHeader stands at the given bytes of IN, which hold `v` above the bits read so far (R67). -/
def AtVarint (bytes : List Byte) (v : Nat) (s : State) : Prop :=
  s.phase = .dcmp .readHeader ∧ s.host = [] ∧ s.dec.vres.toNat < 2 ^ s.dec.vshift.toNat ∧
  v * 2 ^ s.dec.vshift.toNat < 2 ^ 32 ∧ s.dec.pos.toNat + bytes.length ≤ s.inLen.toNat ∧
  ∀ j, j < bytes.length → inByte s (s.dec.pos.toNat + j) = byteAt bytes j

/-- As many steps as there are bytes end the header, with `v` put above the bits read before and the cursor past the
bytes (R70). -/
def ReadsVarint (bytes : List Byte) (v : Nat) (s : State) : Prop :=
  ∃ d : DecRegs, Host.Core.run Sys2Proof.core bytes.length s = .next (enterDecodeLoop { s with dec := d }) ∧
    d.vres.toNat = s.dec.vres.toNat + v * 2 ^ s.dec.vshift.toNat ∧
    d.pos.toNat = s.dec.pos.toNat + bytes.length

/-- The highest group ends the header. -/
theorem readsVarint_last {v : Nat} {s : State} (hv : v < 128) (hshift : s.dec.vshift.toNat < 32)
    (h : AtVarint [BitVec.ofNat 8 v] v s) : ReadsVarint [BitVec.ofNat 8 v] v s := by
  obtain ⟨hphase, hhost, hvres, hfits, hpos, hbytes⟩ := h
  have hend := groupRegs_pos_toNat (BitVec.ofNat 7 v) hpos
  have hg : (BitVec.ofNat 7 v).toNat = v := toNat_ofNat_of_lt hv
  have hvalue := groupRegs_vres_toNat (g := BitVec.ofNat 7 v) hvres (hg.symm ▸ hfits)
  rw [hg] at hvalue
  exact ⟨_, core_run_succ (step_varintLast hphase hhost hpos (hbytes 0 Nat.one_pos) hv hshift hfits) 0, hvalue, hend⟩

/-- A group with others above it: reading the bytes after it from the next state reads the whole. -/
theorem readsVarint_more {v : Nat} {bytes : List Byte} {s : State} (hshift : s.dec.vshift.toNat + 7 ≤ 28)
    (h : AtVarint (BitVec.ofNat 8 (v % 128 + 128) :: bytes) v s)
    (hrest : ∀ t, t.dec.vshift.toNat = s.dec.vshift.toNat + 7 → AtVarint bytes (v / 128) t →
      ReadsVarint bytes (v / 128) t) :
    ReadsVarint (BitVec.ofNat 8 (v % 128 + 128) :: bytes) v s := by
  obtain ⟨hphase, hhost, hvres, hfits, hlen, hbytes⟩ := h
  rw [List.length_cons] at hlen hbytes
  have hpos : s.dec.pos.toNat < s.inLen.toNat := by omega
  have hv : v % 128 < 128 := Nat.mod_lt _ (by decide)
  have hgroup : v % 128 * 2 ^ s.dec.vshift.toNat < 2 ^ 32 :=
    Nat.lt_of_le_of_lt (Nat.mul_le_mul_right _ (Nat.mod_le v 128)) hfits
  have hstep := step_varintCont hphase hhost hpos (hbytes 0 (Nat.succ_pos _)) hv (by omega) hgroup
  have hend := groupRegs_pos_toNat (BitVec.ofNat 7 (v % 128)) hpos
  have hg : (BitVec.ofNat 7 (v % 128)).toNat = v % 128 := toNat_ofNat_of_lt hv
  have hvalue := groupRegs_vres_toNat (g := BitVec.ofNat 7 (v % 128)) hvres (hg.symm ▸ hgroup)
  rw [hg] at hvalue
  have hnext : (continueRegs (BitVec.ofNat 7 (v % 128)) s).vshift.toNat = s.dec.vshift.toNat + 7 :=
    continueRegs_vshift_toNat _ (by omega)
  have hsplit : v % 128 * 2 ^ s.dec.vshift.toNat + v / 128 * 2 ^ (s.dec.vshift.toNat + 7) =
      v * 2 ^ s.dec.vshift.toNat := by
    rw [Nat.pow_add]
    linear_combination 2 ^ s.dec.vshift.toNat * Nat.mod_add_div v 128
  let u : State := { s with dec := continueRegs (BitVec.ofNat 7 (v % 128)) s }
  have hvres' : u.dec.vres.toNat = s.dec.vres.toNat + v % 128 * 2 ^ s.dec.vshift.toNat := hvalue
  have hpos' : u.dec.pos.toNat = s.dec.pos.toNat + 1 := hend
  have hat : AtVarint bytes (v / 128) u := by
    refine ⟨hphase, hhost, ?_, ?_, ?_, fun j hj => ?_⟩
    · rw [hvres', hnext, Nat.pow_add]
      nlinarith
    · rw [hnext]
      omega
    · rw [hpos']
      exact (by omega : s.dec.pos.toNat + 1 + bytes.length ≤ s.inLen.toNat)
    · rw [hpos', Nat.add_assoc, Nat.add_comm 1 j]
      exact hbytes (j + 1) (Nat.succ_lt_succ hj)
  obtain ⟨d, hrun, hvalueEnd, hposEnd⟩ := hrest u hnext hat
  refine ⟨d, (core_run_succ hstep _).trans hrun, ?_, ?_⟩
  · rw [hvalueEnd, hvres', hnext, Nat.add_assoc, hsplit]
  · rw [hposEnd, hpos', List.length_cons, Nat.add_assoc, Nat.add_comm 1]

/-- Reading what is left of a varint, with `28 - 7 * fuel` bits read before. -/
theorem readsVarint_varintLoop (fuel : Nat) :
    ∀ (v : Nat) (s : State), s.dec.vshift.toNat + 7 * fuel = 28 → AtVarint (varintLoop fuel v) v s →
      ReadsVarint (varintLoop fuel v) v s := by
  induction fuel with
  | zero =>
    intro v s hshift h
    have hv : v < 128 := by
      obtain ⟨-, -, -, hfits, -⟩ := h
      rw [show s.dec.vshift.toNat = 28 by omega] at hfits
      omega
    rw [varintLoop_of_lt 0 hv] at h ⊢
    exact readsVarint_last hv (by omega) h
  | succ fuel ih =>
    intro v s hshift h
    rcases Nat.lt_or_ge v 128 with hv | hle
    · rw [varintLoop_of_lt _ hv] at h ⊢
      exact readsVarint_last hv (by omega) h
    · rw [varintLoop_succ_of_le fuel hle] at h ⊢
      exact readsVarint_more (by omega) h fun t ht => ih _ t (by omega)

/-- Settles O15: the whole varint is read from no bits read, and the header ends by whether the value fits. -/
theorem varintRoundTrip : Obligations.VarintRoundTrip := by
  unfold Obligations.VarintRoundTrip
  intro s v hv hphase hhost hpos hvres hshift hlen hbytes
  have hpos0 : s.dec.pos.toNat = 0 := by rw [hpos]; rfl
  have hvres0 : s.dec.vres.toNat = 0 := by rw [hvres]; rfl
  have hshift0 : s.dec.vshift.toNat = 0 := by rw [hshift]; rfl
  have hat : AtVarint (varintBytes v) v s := by
    refine ⟨hphase, hhost, ?_, ?_, ?_, fun j hj => ?_⟩
    · rw [hvres0, hshift0]; decide
    · rwa [hshift0, Nat.pow_zero, Nat.mul_one]
    · rwa [hpos0, Nat.zero_add]
    · rw [hpos0, Nat.zero_add]; exact hbytes j hj
  obtain ⟨d, hrun, hvalue, hend⟩ := readsVarint_varintLoop 4 v s (by rw [hshift0]) hat
  rw [hvres0, hshift0, Nat.zero_add, Nat.pow_zero, Nat.mul_one] at hvalue
  rw [hpos0, Nat.zero_add] at hend
  refine ⟨_, hrun, fun hcap => ?_, fun hcap => enterDecodeLoop_failedEntry (by rwa [hvalue])⟩
  have henter : enterDecodeLoop { s with dec := d } = _ := enterDecodeLoop_of_fits (hvalue.trans_le hcap)
  rw [henter]
  exact ⟨rfl, hvalue, hend, rfl, rfl⟩

end Sys2Proof.Machine
end

section
/-! SUPPORT. What one engine step can do, said once for each unit: a DECOMPRESS step by its stage (44_tag_parser.md), a
COMPRESS step by its end (43_block_compressor.md), what both leave as it was, and the obligations that follow. -/

namespace Sys2Proof.Machine

/-! ## Entries of a table outside what an operation writes -/

theorem lookup_moveBytes_other (source : Nat → Byte) (n : Nat) :
    ∀ (src dst : Nat) (m : Memory) (x : Nat), (x < dst ∨ dst + n ≤ x) →
      Table.lookup (moveBytes source src dst n m) x = Table.lookup m x := by
  induction n with
  | zero => exact fun _ _ _ _ _ => rfl
  | succ n ih =>
    intro src dst m x hx
    rw [moveBytes, ih _ _ _ _ (by omega), Table.lookup_write_other _ _ (by omega)]

theorem lookup_selfCopy_other (epoch offset n : Nat) :
    ∀ (dst : Nat) (m : Memory) (x : Nat), (x < dst ∨ dst + n ≤ x) →
      Table.lookup (selfCopy epoch offset dst n m) x = Table.lookup m x := by
  induction n with
  | zero => exact fun _ _ _ _ => rfl
  | succ n ih =>
    intro dst m x hx
    rw [selfCopy, ih _ _ _ (by omega), Table.lookup_write_other _ _ (by omega)]

/-! ## DECOMPRESS -/

/-- A tag element has been executed (R106, R115): OUT and the parser registers have changed and nothing else, `pos` is
past the element and within IN_LEN, the output cursor is within `L`, which is as before, and OUT is canonical still,
with every entry at `L` or above as it was. -/
def ElementMoved (s t : State) : Prop :=
  t = { s with outMem := t.outMem, dec := t.dec } ∧
  s.dec.pos.toNat < t.dec.pos.toNat ∧ t.dec.pos.toNat ≤ s.inLen.toNat ∧
  t.dec.outPos.toNat ≤ s.dec.L.toNat ∧ t.dec.L = s.dec.L ∧
  (Memory.wf s.outMem → Memory.wf t.outMem) ∧
  ∀ a, s.dec.L.toNat ≤ a → Table.lookup t.outMem a = Table.lookup s.outMem a

/-- The step ends in the Failed entry from parser registers whose `L` is that of `s` (R135). -/
def FailsWithL (s t : State) : Prop :=
  ∃ (e : ErrKind) (d : DecRegs), d.L = s.dec.L ∧ t = raise e { s with dec := d }

/-- R105 and R106 from any parser registers past the tag and within IN_LEN. -/
theorem literalPayload_cases (len : Nat) {s : State} {d : DecRegs} (hpos : s.dec.pos.toNat < d.pos.toNat)
    (hL : d.L = s.dec.L) :
    FailsWithL s (literalPayload len { s with dec := d }) ∨
    ElementMoved s (literalPayload len { s with dec := d }) := by
  unfold literalPayload
  split_ifs with hin hout
  · exact .inl ⟨_, d, hL, rfl⟩
  · exact .inl ⟨_, d, hL, rfl⟩
  · right
    have hin' : d.pos.toNat + len ≤ s.inLen.toNat := Nat.not_lt.1 hin
    have hout' : d.outPos.toNat + len ≤ s.dec.L.toNat := hL ▸ Nat.not_lt.1 hout
    have hposEnd : (BitVec.ofNat 32 (d.pos.toNat + len)).toNat = d.pos.toNat + len :=
      toNat_ofNat_of_lt (Nat.lt_of_le_of_lt hin' s.inLen.isLt)
    have houtEnd : (BitVec.ofNat 32 (d.outPos.toNat + len)).toNat = d.outPos.toNat + len :=
      toNat_ofNat_of_lt (Nat.lt_of_le_of_lt hout' s.dec.L.isLt)
    refine ⟨rfl, ?_, ?_, ?_, hL, Memory.wf_moveBytes _ _ _ _, fun a ha => ?_⟩
    · show _ < (BitVec.ofNat 32 (d.pos.toNat + len)).toNat
      omega
    · exact hposEnd.trans_le hin'
    · exact houtEnd.trans_le hout'
    · exact lookup_moveBytes_other _ _ _ _ _ _ (.inr (Nat.le_trans hout' ha))

/-- R113 to R115 from any parser registers past the tag and within IN_LEN. -/
theorem copyChecked_cases (offset len : Nat) {s : State} {d : DecRegs} (hpos : s.dec.pos.toNat < d.pos.toNat)
    (hin : d.pos.toNat ≤ s.inLen.toNat) (hL : d.L = s.dec.L) :
    FailsWithL s (copyChecked offset len { s with dec := d }) ∨
    ElementMoved s (copyChecked offset len { s with dec := d }) := by
  unfold copyChecked
  split_ifs with hback hout
  · exact .inl ⟨_, d, hL, rfl⟩
  · exact .inl ⟨_, d, hL, rfl⟩
  · have hout' : d.outPos.toNat + len ≤ s.dec.L.toNat := hL ▸ Nat.not_lt.1 hout
    have houtEnd : (BitVec.ofNat 32 (d.outPos.toNat + len)).toNat = d.outPos.toNat + len :=
      toNat_ofNat_of_lt (Nat.lt_of_le_of_lt hout' s.dec.L.isLt)
    exact .inr ⟨rfl, hpos, hin, houtEnd.trans_le hout', hL, Memory.wf_selfCopy _ _ _ _,
      fun a ha => lookup_selfCopy_other _ _ _ _ _ _ (.inr (Nat.le_trans hout' ha))⟩

/-- The cursor past `k` operand or extension bytes that IN still holds. -/
theorem operands_end {k : Nat} {s : State} (hpos : s.dec.pos.toNat < s.inLen.toNat)
    (h : ¬ (fetchTag s).dec.pos.toNat + k > (fetchTag s).inLen.toNat) :
    (BitVec.ofNat 32 ((fetchTag s).dec.pos.toNat + k)).toNat = s.dec.pos.toNat + 1 + k ∧
    s.dec.pos.toNat + 1 + k ≤ s.inLen.toNat := by
  rw [fetchTag_pos_toNat hpos, fetchTag_inLen] at h
  rw [fetchTag_pos_toNat hpos]
  have hin : s.dec.pos.toNat + 1 + k ≤ s.inLen.toNat := Nat.not_lt.1 h
  exact ⟨toNat_ofNat_of_lt (Nat.lt_of_le_of_lt hin s.inLen.isLt), hin⟩

/-- A tag element fails or is executed (R103 to R118). -/
theorem exec_element_moves {i : Instr} (hi : i.context = .element) {s t : State}
    (hpos : s.dec.pos.toNat < s.inLen.toNat) (h : exec i s = .next t) : FailsWithL s t ∨ ElementMoved s t := by
  obtain ⟨u, hu, hcases⟩ := exec_element_cases hi s
  obtain rfl : u = t := Host.Outcome.next.inj (hu.symm.trans h)
  have hfetch := fetchTag_pos_toNat hpos
  rcases hcases with ⟨len, rfl⟩ | ⟨k, len, -, rfl⟩ | ⟨k, len, offset, -, rfl⟩
  · exact literalPayload_cases len (hfetch ▸ Nat.lt_succ_self _) rfl
  · unfold literalExtended
    split_ifs with hk
    · exact .inl ⟨_, _, rfl, rfl⟩
    · obtain ⟨hend, hin⟩ := operands_end hpos hk
      exact literalPayload_cases len (by show _ < BitVec.toNat (BitVec.ofNat 32 _); omega) rfl
  · unfold copyElement
    split_ifs with hk
    · exact .inl ⟨_, _, rfl, rfl⟩
    · obtain ⟨hend, hin⟩ := operands_end hpos hk
      exact copyChecked_cases offset len (by show _ < BitVec.toNat (BitVec.ofNat 32 _); omega)
        (by show BitVec.toNat (BitVec.ofNat 32 _) ≤ _; omega) rfl

/-- The step ends in the Failed entry of a kind that comes before the first OUT write (R120, R135). -/
def FailsBeforeWrite (s t : State) : Prop :=
  ∃ (e : ErrKind) (d : DecRegs), e.inDecodeLoop = false ∧ t = raise e { s with dec := d }

/-- The registers at the start of DecodeLoop, once the last group is taken (R101). -/
def decodeLoopRegs (g : BitVec 7) (s : State) : DecRegs :=
  { groupRegs g s with L := (groupRegs g s).vres, outPos := 0 }

/-- The start checks of DECOMPRESS fail, or its first assignments are made (R101, R128). -/
theorem startDecompress_cases (s : State) :
    FailsBeforeWrite s (startDecompress s) ∨
    (lengthsFit s ∧ startDecompress s =
      { s with dec := { s.dec with pos := 0, vres := 0, vshift := 0 }, phase := .dcmp .readHeader }) := by
  unfold startDecompress
  split_ifs with hbad
  · exact .inl ⟨_, s.dec, rfl, rfl⟩
  · simp only [badConfig, Bool.or_eq_true, decide_eq_true_eq] at hbad
    exact .inr ⟨by unfold lengthsFit; omega, rfl⟩

/-- A step of ReadHeader fails before the first write, or takes a group whose checks pass: another byte follows, or
DecodeLoop starts with a length that fits OUT_CAP (R67, R101, R102). -/
theorem readHeader_cases {s t : State} (hphase : s.phase = .dcmp .readHeader) (h : engineStep s = .next t) :
    FailsBeforeWrite s t ∨
    ∃ g : BitVec 7, s.dec.pos.toNat < s.inLen.toNat ∧ s.dec.vshift.toNat < 32 ∧
      g.toNat * 2 ^ s.dec.vshift.toNat < 2 ^ 32 ∧
      (t = { s with dec := continueRegs g s } ∨
       ((groupRegs g s).vres.toNat ≤ s.outCap.toNat ∧
        t = { s with dec := decodeLoopRegs g s, phase := .dcmp .decodeLoop })) := by
  rcases Nat.lt_or_ge s.dec.pos.toNat s.inLen.toNat with hpos | hend
  · rw [engineStep_header hphase hpos] at h
    obtain ⟨t', ht', hcases⟩ := exec_decodeHeader_cases (inByte s s.dec.pos.toNat) s
    obtain rfl : t' = t := Host.Outcome.next.inj (ht'.symm.trans h)
    rcases hcases with rfl | ⟨g, u, hu, hnext⟩
    · exact .inl ⟨_, s.dec, rfl, rfl⟩
    · have hnone := takeGroup_eq_none_iff (g := g) (s := s)
      simp only [hu, reduceCtorEq, false_iff, not_or, Nat.not_le] at hnone
      obtain ⟨hshift, -, hfits⟩ := hnone
      rw [takeGroup_of_checks_pass hshift hpos hfits] at hu
      obtain rfl := Option.some.inj hu
      rcases hnext with rfl | rfl
      · exact .inr ⟨g, hpos, hshift, hfits, .inl rfl⟩
      · unfold enterDecodeLoop
        split_ifs with hcap
        · exact .inl ⟨_, _, rfl, rfl⟩
        · exact .inr ⟨g, hpos, hshift, hfits, .inr ⟨Nat.not_lt.1 hcap, rfl⟩⟩
  · rw [engineStep_headerExhausted hphase hend] at h
    exact .inl ⟨_, s.dec, rfl, (Host.Outcome.next.inj h).symm⟩

/-- A step of DecodeLoop ends in Done with the output complete, fails, or executes a tag element (R103, R119). -/
theorem decodeLoop_cases {s t : State} (hphase : s.phase = .dcmp .decodeLoop) (h : engineStep s = .next t) :
    (s.dec.outPos = s.dec.L ∧ t = endDone { s with outLen := s.dec.L }) ∨ FailsWithL s t ∨ ElementMoved s t := by
  rcases Nat.lt_or_ge s.dec.pos.toNat s.inLen.toNat with hpos | hend
  · rw [engineStep_element hphase hpos] at h
    exact .inr (exec_element_moves (decodeElement_context _) hpos h)
  · obtain rfl := Host.Outcome.next.inj ((engineStep_endOfStream hphase hend).symm.trans h)
    unfold endOfStream
    split_ifs with hcomplete
    · exact .inl ⟨hcomplete, rfl⟩
    · exact .inr (.inl ⟨_, s.dec, rfl, rfl⟩)

/-- A stage of DECOMPRESS has gone on (R101): OUT, canonical still, the parser registers and the phase have changed, and
nothing else. -/
def ParserMoved (s t : State) : Prop :=
  (∃ next, t.phase = .dcmp next) ∧ (Memory.wf s.outMem → Memory.wf t.outMem) ∧
  t = { s with outMem := t.outMem, dec := t.dec, phase := t.phase }

theorem engineStep_startDecompress {s : State} (hphase : s.phase = .dcmp .startChecks) :
    engineStep s = .next (startDecompress s) := by
  simp only [engineStep, hphase]

/-- A DECOMPRESS step fails, ends in Done with `OUT_LEN = L`, or goes on (R101). -/
theorem decompress_cases {s t : State} {stage : DcmpStage} (hphase : s.phase = .dcmp stage)
    (h : engineStep s = .next t) :
    (∃ (e : ErrKind) (d : DecRegs), t = raise e { s with dec := d }) ∨
    t = endDone { s with outLen := s.dec.L } ∨ ParserMoved s t := by
  cases stage with
  | startChecks =>
    obtain rfl := Host.Outcome.next.inj ((engineStep_startDecompress hphase).symm.trans h)
    rcases startDecompress_cases s with ⟨e, d, -, hfail⟩ | ⟨-, hstart⟩
    · exact .inl ⟨e, d, hfail⟩
    · exact .inr (.inr (by rw [hstart]; exact ⟨⟨_, rfl⟩, id, rfl⟩))
  | readHeader =>
    rcases readHeader_cases hphase h with ⟨e, d, -, hfail⟩ | ⟨g, -, -, -, rfl | ⟨-, rfl⟩⟩
    · exact .inl ⟨e, d, hfail⟩
    · exact .inr (.inr ⟨⟨_, hphase⟩, id, rfl⟩)
    · exact .inr (.inr ⟨⟨_, rfl⟩, id, rfl⟩)
  | decodeLoop =>
    rcases decodeLoop_cases hphase h with ⟨-, hend⟩ | ⟨e, d, -, hfail⟩ | ⟨hmoved, -, -, -, -, hwf, -⟩
    · exact .inr (.inl hend)
    · exact .inl ⟨e, d, hfail⟩
    · refine .inr (.inr ⟨⟨.decodeLoop, by rw [hmoved]; exact hphase⟩, hwf, ?_⟩)
      rw [hmoved]

/-! ## COMPRESS -/

/-- A stage of COMPRESS has gone on to another (R95): OUT and HT, canonical still, the compressor registers and the
phase have changed, and nothing else. -/
def StageMoved (s t : State) : Prop :=
  (∃ next, t.phase = .cmp next) ∧
  (Memory.wf s.outMem → Memory.wf t.outMem) ∧ (Table.wf s.ht → Table.wf t.ht) ∧
  t = { s with outMem := t.outMem, ht := t.ht, cmp := t.cmp, phase := t.phase }

theorem startCompress_cases (s : State) :
    FailsBeforeWrite s (startCompress s) ∨
    (lengthsFit s ∧ outBound s.inLen.toNat ≤ s.outCap.toNat ∧
      startCompress s = { s with cmp := { s.cmp with N := s.inLen, op := 0 }, phase := .cmp .header }) := by
  unfold startCompress
  split_ifs with hbad hshort
  · exact .inl ⟨_, s.dec, rfl, rfl⟩
  · exact .inl ⟨_, s.dec, rfl, rfl⟩
  · simp only [badConfig, Bool.or_eq_true, decide_eq_true_eq] at hbad
    simp only [capacityShort, decide_eq_true_eq, Nat.not_lt] at hshort
    exact .inr ⟨by unfold lengthsFit; omega, hshort, rfl⟩

theorem beginBlock_stageMoved (size : Nat) (s : State) : StageMoved s (beginBlock size s) := by
  unfold beginBlock
  dsimp only
  split_ifs <;> exact ⟨⟨_, rfl⟩, id, fun h => Table.wf_fill h _ _, rfl⟩

theorem probe_stageMoved {s : State} (hphase : s.phase = .cmp .probe) : StageMoved s (probe s) := by
  unfold probe
  dsimp only
  split_ifs
  · exact ⟨⟨_, rfl⟩, id, id, rfl⟩
  · exact ⟨⟨_, rfl⟩, id, fun h => Table.wf_write h _ _, rfl⟩
  · exact ⟨⟨_, hphase⟩, id, fun h => Table.wf_write h _ _, rfl⟩

theorem adjacent_stageMoved (s : State) : StageMoved s (adjacent s) := by
  unfold adjacent
  dsimp only
  split_ifs
  · exact ⟨⟨_, rfl⟩, id, id, rfl⟩
  · exact ⟨⟨_, rfl⟩, id, fun h => Table.wf_write (Table.wf_write h _ _) _ _, rfl⟩
  · exact ⟨⟨_, rfl⟩, id, fun h => Table.wf_write (Table.wf_write h _ _) _ _, rfl⟩

theorem Memory.wf_emitLiteral (src len : Nat) {s : State} (h : Memory.wf s.outMem) :
    Memory.wf (emitLiteral src len s).outMem :=
  Memory.wf_moveBytes _ _ _ _ (Memory.wf_emitBytes _ h)

theorem Memory.wf_tailEmission {s : State} (h : Memory.wf s.outMem) : Memory.wf (tailEmission s).outMem := by
  unfold tailEmission
  split_ifs
  · exact Memory.wf_emitLiteral _ _ h
  · exact h

/-- A COMPRESS step fails its start checks, ends in Done with `OUT_LEN = op`, or goes on to another stage (R95). -/
theorem compress_cases {s t : State} {stage : CmpStage} (hphase : s.phase = .cmp stage) (h : engineStep s = .next t) :
    (stage = .startChecks ∧ FailsBeforeWrite s t) ∨
    (stage = .nextBlock ∧ s.cmp.N.toNat ≤ s.cmp.bs.toNat ∧ t = endDone { s with outLen := s.cmp.op }) ∨
    StageMoved s t := by
  obtain rfl : compressStep stage s = t := Host.Outcome.next.inj ((engineStep_cmp hphase).symm.trans h)
  cases stage with
  | startChecks =>
    rcases startCompress_cases s with hfail | ⟨-, -, hstart⟩
    · exact .inl ⟨rfl, hfail⟩
    · exact .inr (.inr (by rw [compressStep, hstart]; exact ⟨⟨_, rfl⟩, id, id, rfl⟩))
  | header =>
    rw [compressStep, writeHeader_eq]
    exact .inr (.inr ⟨⟨_, rfl⟩, Memory.wf_emitBytes _, id, rfl⟩)
  | nextBlock =>
    rw [compressStep, nextBlock]
    split_ifs with hbs
    · exact .inr (.inr (beginBlock_stageMoved _ s))
    · exact .inr (.inl ⟨rfl, Nat.not_lt.1 hbs, rfl⟩)
  | probe => exact .inr (.inr (probe_stageMoved hphase))
  | accept =>
    rw [compressStep, acceptMatch_eq]
    exact .inr (.inr ⟨⟨_, rfl⟩, Memory.wf_emitLiteral _ _, id, rfl⟩)
  | extend =>
    rw [compressStep, extendAndEmit_eq]
    exact .inr (.inr ⟨⟨_, rfl⟩, Memory.wf_emitBytes _, id, rfl⟩)
  | adjacent => exact .inr (.inr (adjacent_stageMoved s))
  | tail =>
    rw [compressStep, blockTail_eq]
    exact .inr (.inr ⟨⟨_, rfl⟩, Memory.wf_tailEmission, id, rfl⟩)

/-! ## What an engine step leaves as it was -/

/-- An engine step writes STATUS, OUT_LEN, OUT, HT, the phase, the internal registers and the draw counter alone. -/
theorem engineStep_frame {s t : State} (h : engineStep s = .next t) :
    t = { s with status := t.status, outLen := t.outLen, outMem := t.outMem, ht := t.ht, phase := t.phase,
                 cmp := t.cmp, dec := t.dec, draws := t.draws } := by
  cases hphase : s.phase with
  | idle =>
    obtain rfl : s = t := Host.Outcome.next.inj ((engineStep_idle hphase).symm.trans h)
    rfl
  | cmp stage =>
    rcases compress_cases hphase h with ⟨-, e, d, -, rfl⟩ | ⟨-, -, rfl⟩ | ⟨-, -, -, hmoved⟩
    · rfl
    · rfl
    · rw [hmoved]
  | dcmp stage =>
    rcases decompress_cases hphase h with ⟨e, d, rfl⟩ | rfl | ⟨-, -, hmoved⟩
    · rfl
    · rfl
    · rw [hmoved]

/-- Settles O33: each field is one the frame of an engine step keeps. -/
theorem engineLeavesHostState : Obligations.EngineLeavesHostState := by
  unfold Obligations.EngineLeavesHostState
  intro s t h
  rw [engineStep_frame h]
  exact ⟨rfl, rfl, rfl, rfl, rfl, rfl, rfl, rfl, rfl⟩

/-- Settles O35: each unit's step fails, ends, or changes its own registers alone. -/
theorem unitsStayApart : Obligations.UnitsStayApart := by
  unfold Obligations.UnitsStayApart
  refine ⟨fun s t stage hphase h => ?_, fun s t stage hphase h hrun => ?_, fun s t stage hphase h hrun => ?_⟩
  · rcases decompress_cases hphase h with ⟨e, d, rfl⟩ | rfl | ⟨-, -, hmoved⟩
    · rfl
    · rfl
    · rw [hmoved]
  · rcases decompress_cases hphase h with ⟨e, d, rfl⟩ | rfl | ⟨-, -, hmoved⟩
    · exact absurd rfl hrun
    · exact absurd rfl hrun
    · rw [hmoved]
  · rcases compress_cases hphase h with ⟨-, e, d, -, rfl⟩ | ⟨-, -, rfl⟩ | ⟨-, -, -, hmoved⟩
    · exact absurd rfl hrun
    · exact absurd rfl hrun
    · rw [hmoved]

/-- Settles O36: a header byte moves the cursor by one, and an element past its own bytes. -/
theorem parserAdvances : Obligations.ParserAdvances := by
  unfold Obligations.ParserAdvances
  intro s t hphase h
  rcases hphase with hphase | hphase
  · rcases readHeader_cases hphase h with ⟨e, d, -, rfl⟩ | ⟨g, hpos, -, -, hnext⟩
    · exact .inl rfl
    · have hmoved := groupRegs_pos_toNat g hpos
      rcases hnext with rfl | ⟨-, rfl⟩
      · exact .inr (by show _ < (groupRegs g s).pos.toNat ∧ (groupRegs g s).pos.toNat ≤ _; omega)
      · exact .inr (by show _ < (groupRegs g s).pos.toNat ∧ (groupRegs g s).pos.toNat ≤ _; omega)
  · rcases decodeLoop_cases hphase h with ⟨-, rfl⟩ | ⟨e, d, -, rfl⟩ | ⟨-, hmoved, hin, -⟩
    · exact .inl rfl
    · exact .inl rfl
    · exact .inr ⟨hmoved, hin⟩

/-! ## How an operation ends -/

/-- Settles O30: STATUS is kept, is that of Done, or is the Failed entry's. -/
theorem errOnlyByFailedEntry : Obligations.ErrOnlyByFailedEntry := by
  unfold Obligations.ErrOnlyByFailedEntry
  intro s t h hclear hset
  rcases engineStep_status_cases h with hkept | ⟨n, hdone, -⟩ | hfail
  · rw [hkept, hclear] at hset
    cases hset
  · rw [hdone] at hset
    cases hset
  · exact hfail

/-- Settles O32: only the start checks fail. -/
theorem compressNeverFails : Obligations.CompressNeverFails := by
  unfold Obligations.CompressNeverFails
  intro s t stage hphase hpast h
  obtain rfl : compressStep stage s = t := Host.Outcome.next.inj ((engineStep_cmp hphase).symm.trans h)
  rcases compressStep_status_cases stage s with hkept | ⟨n, hdone, -⟩ | ⟨hstart, -⟩
  · exact .inl hkept
  · exact .inr hdone
  · exact absurd hstart hpast

/-- With `ERR = 1` the block is IDLE (R18, R26). -/
theorem Wf.idle_of_err {s : State} (h : Wf s) (herr : s.status.err = true) : s.phase = .idle := by
  obtain ⟨⟨hbusy, -⟩, hmatch, -⟩ := h
  by_contra hrun
  rw [hmatch.2 hrun, herr] at hbusy
  simp at hbusy

/-- Settles O31: in Failed the engine is idle, so STATUS changes by the host's start or by reset alone. -/
theorem leavingFailed : Obligations.LeavingFailed := by
  unfold Obligations.LeavingFailed
  intro s t hwf herr h
  have hidle := hwf.idle_of_err herr
  rcases statusWrittenOnlyBy s t h with hkept | ⟨-, hstatus, a, later, w, hhost, hw, hstart, -, hphase⟩ |
    ⟨hrun, -⟩ | ⟨hrun, -⟩ | ⟨hreset, hstatus⟩
  · exact .inl hkept
  · exact .inr (.inl ⟨hstatus, a, later, w, hhost, hw, hstart, hphase⟩)
  · exact absurd hidle hrun
  · exact absurd hidle hrun
  · exact .inr (.inr ⟨hstatus, hreset⟩)

/-! ## Host accesses -/

/-- A host access to the block while `BUSY = 0` that is neither a read nor a start: it changes OP, a length register, or
one byte of IN or OUT inside its capacity (R125, R133). -/
def HostWrote (s t : State) : Prop :=
  t = { s with ctrlOp := t.ctrlOp, inLen := t.inLen, outCap := t.outCap, inMem := t.inMem, outMem := t.outMem } ∧
  (t.inMem = s.inMem ∨ ∃ x v, x < s.platform.inSize.toNat ∧ t.inMem = Table.write s.inMem x v) ∧
  (t.outMem = s.outMem ∨ ∃ x v, x < s.platform.outSize.toNat ∧ t.outMem = Table.write s.outMem x v)

/-- What a served bus access does: it changes the model's own fields alone, or it is made while `BUSY = 0` and starts an
operation or writes. -/
theorem accessStep_effects {a : HostAccess} {s t : State} (h : accessStep a s = .next t) :
    (t = { s with readData := t.readData, resultSeen := t.resultSeen, draws := t.draws }) ∨
    (s.status.busy = false ∧ ((∃ op, t = acceptStart op s) ∨ HostWrote s t)) := by
  rcases accessStep_cases h with ⟨w, -, hexec⟩ | ⟨-, haccess⟩
  · rcases exec_decodeCommand_cases hexec with ⟨-, rfl⟩ | ⟨hidle, -, rfl⟩ | ⟨hidle, -, rfl⟩
    · exact .inl rfl
    · exact .inr ⟨hidle, .inl ⟨_, rfl⟩⟩
    · exact .inr ⟨hidle, .inr ⟨rfl, .inl rfl, .inl rfl⟩⟩
  · rcases hostAccess_cases haccess with ⟨o, rfl⟩ | ⟨o, w, rfl⟩ | ⟨-, v, rfl⟩ | ⟨hidle, x, v, hx, rfl⟩ |
      ⟨hidle, x, v, hx, rfl⟩
    · exact .inl rfl
    · unfold regWrite
      split_ifs with hbusy
      · exact .inl rfl
      · exact .inr ⟨Bool.eq_false_iff.2 hbusy, .inr ⟨rfl, .inl rfl, .inl rfl⟩⟩
      · exact .inr ⟨Bool.eq_false_iff.2 hbusy, .inr ⟨rfl, .inl rfl, .inl rfl⟩⟩
      · exact .inl rfl
    · exact .inl rfl
    · exact .inr ⟨hidle, .inr ⟨rfl, .inr ⟨x, v, hx, rfl⟩, .inl rfl⟩⟩
    · exact .inr ⟨hidle, .inr ⟨rfl, .inl rfl, .inr ⟨x, v, hx, rfl⟩⟩⟩

/-- Settles O34: the engine leaves the four as they are, and while `BUSY = 1` a host access changes the model's own
fields alone. -/
theorem runningOperationShielded : Obligations.RunningOperationShielded := by
  unfold Obligations.RunningOperationShielded
  intro s t hbusy hnoReset h
  rcases step_cases h with ⟨-, hengine⟩ | ⟨rest, -, hengine⟩ | ⟨rest, -, -, hengine⟩ | ⟨rest, -, -, rfl⟩ |
    ⟨a, rest, -, haccess⟩ | ⟨rest, hreset, -⟩
  · rw [engineStep_frame hengine]
    exact ⟨rfl, rfl, rfl, rfl⟩
  · rw [engineStep_frame hengine]
    exact ⟨rfl, rfl, rfl, rfl⟩
  · rw [engineStep_frame hengine]
    exact ⟨rfl, rfl, rfl, rfl⟩
  · exact ⟨rfl, rfl, rfl, rfl⟩
  · rcases accessStep_effects haccess with hmodel | ⟨hidle, -⟩
    · rw [hmodel]
      exact ⟨rfl, rfl, rfl, rfl⟩
    · exact absurd hbusy (Bool.eq_false_iff.1 hidle)
  · exact absurd hreset (hnoReset rest)

/-! ## What every step keeps -/

/-- An invariant that says nothing of the model's own fields is kept by every step if the engine, an accepted start, the
host's writes while `BUSY = 0` and reset keep it. -/
theorem step_keeps {P : State → Prop}
    (model : ∀ (u : State) (host : List HostAction) (v : Word) (seen : Bool) (n : Nat), P u →
      P { u with host := host, readData := v, resultSeen := seen, draws := n })
    (engine : ∀ u v, P u → engineStep u = .next v → P v)
    (start : ∀ u op, P u → u.status.busy = false → P (acceptStart op u))
    (wrote : ∀ u v, P u → u.status.busy = false → HostWrote u v → P v)
    (reset : ∀ u, P u → P (resetNow u)) {s t : State} (hs : P s) (h : step s = .next t) : P t := by
  have popped (rest : List HostAction) : P { s with host := rest } := model s rest _ _ _ hs
  rcases step_cases h with ⟨-, hengine⟩ | ⟨rest, -, hengine⟩ | ⟨rest, -, -, hengine⟩ | ⟨rest, -, -, rfl⟩ |
    ⟨a, rest, -, haccess⟩ | ⟨rest, -, rfl⟩
  · exact engine _ _ hs hengine
  · exact engine _ _ (popped rest) hengine
  · exact engine _ _ hs hengine
  · exact model s rest _ _ _ hs
  · rcases accessStep_effects haccess with hmodel | ⟨hidle, ⟨op, rfl⟩ | hwrote⟩
    · rw [hmodel]
      exact model _ _ _ _ _ (popped rest)
    · exact start _ op (popped rest) hidle
    · exact wrote _ _ (popped rest) hidle hwrote
  · exact reset _ (popped rest)

end Sys2Proof.Machine
end

section
/-! SUPPORT. The two invariants that need no other: the legal state (10_state.md R18, R26) and the parser's cursors
(R29, 44_tag_parser.md). -/

namespace Sys2Proof.Machine

/-! ## Wf -/

theorem Wf.outMem {s : State} (h : Wf s) : Memory.wf s.outMem := by
  obtain ⟨-, -, -, -, hout, -⟩ := h
  exact hout

theorem Wf.platform {s : State} (h : Wf s) : platformLegal s.platform := by
  obtain ⟨-, -, hplatform, -⟩ := h
  exact hplatform

/-- With `BUSY = 0` the engine is IDLE (R26). -/
theorem Wf.idle_of_not_busy {s : State} (h : Wf s) (hidle : s.status.busy = false) : s.phase = .idle := by
  obtain ⟨-, hmatch, -⟩ := h
  by_contra hrun
  rw [hmatch.2 hrun] at hidle
  cases hidle

/-- Idle with a legal STATUS and canonical memories. -/
theorem Wf.idle {s t : State} (h : Wf s) (hstatus : statusLegal t.status) (hbusy : t.status.busy = false)
    (hphase : t.phase = .idle) (hplatform : t.platform = s.platform) (hin : t.inMem = s.inMem)
    (hout : Memory.wf t.outMem) (hht : t.ht = s.ht) : Wf t := by
  obtain ⟨-, -, hlegal, hinWf, -, hhtWf, hbelow⟩ := h
  refine ⟨hstatus, ?_, ?_, ?_, hout, ?_, ?_⟩
  · simp [busyMatchesPhase, hbusy, hphase]
  · rwa [hplatform]
  · rwa [hin]
  · rwa [hht]
  · rwa [hin, hplatform]

theorem statusLegal_failed (e : ErrKind) : statusLegal (statusFailed e) := by
  cases e <;> simp [statusLegal, statusFailed, ErrKind.code]

theorem statusLegal_done : statusLegal statusDone := by
  simp [statusLegal, statusDone]

theorem statusLegal_accepted : statusLegal statusAccepted := by
  simp [statusLegal, statusAccepted]

theorem wf_raise {s : State} (h : Wf s) (e : ErrKind) (d : DecRegs) : Wf (raise e { s with dec := d }) :=
  h.idle (statusLegal_failed e) rfl rfl rfl rfl
    (Memory.wf_outAfterFailure (s := { s with dec := d }) e h.outMem) rfl

theorem wf_endDone {s : State} (h : Wf s) (n : Word) : Wf (endDone { s with outLen := n }) :=
  h.idle statusLegal_done rfl rfl rfl rfl h.outMem rfl

/-- A running operation that goes on keeps STATUS and the canonical memories. -/
theorem Wf.moved {s t : State} (h : Wf s) (hrun : s.phase ≠ .idle) (hrun' : t.phase ≠ .idle)
    (hstatus : t.status = s.status) (hplatform : t.platform = s.platform) (hin : t.inMem = s.inMem)
    (hout : Memory.wf s.outMem → Memory.wf t.outMem) (hht : Table.wf s.ht → Table.wf t.ht) : Wf t := by
  obtain ⟨hlegal, hbusy, hplatformLegal, hinWf, houtWf, hhtWf, hbelow⟩ := h
  refine ⟨?_, ?_, ?_, ?_, hout houtWf, hht hhtWf, ?_⟩
  · rwa [hstatus]
  · simp [busyMatchesPhase, hstatus, hbusy.2 hrun, hrun']
  · rwa [hplatform]
  · rwa [hin]
  · rwa [hin, hplatform]

theorem wf_engineStep {s t : State} (h : Wf s) (hstep : engineStep s = .next t) : Wf t := by
  cases hphase : s.phase with
  | idle =>
    obtain rfl : s = t := Host.Outcome.next.inj ((engineStep_idle hphase).symm.trans hstep)
    exact h
  | cmp stage =>
    rcases compress_cases hphase hstep with ⟨-, e, d, -, rfl⟩ | ⟨-, -, rfl⟩ | ⟨⟨next, hnext⟩, hout, hht, hmoved⟩
    · exact wf_raise h e d
    · exact wf_endDone h _
    · refine h.moved (by simp [hphase]) (by simp [hnext]) ?_ ?_ ?_ hout hht <;> rw [hmoved]
  | dcmp stage =>
    rcases decompress_cases hphase hstep with ⟨e, d, rfl⟩ | rfl | ⟨⟨next, hnext⟩, hout, hmoved⟩
    · exact wf_raise h e d
    · exact wf_endDone h _
    · refine h.moved (by simp [hphase]) (by simp [hnext]) ?_ ?_ ?_ hout ?_ <;> rw [hmoved]
      exact id

theorem wf_acceptStart {s : State} (h : Wf s) (op : Bool) : Wf (acceptStart op s) := by
  obtain ⟨-, -, hplatform, hin, hout, hht, hbelow⟩ := h
  refine ⟨statusLegal_accepted, ?_, hplatform, hin, hout, hht, hbelow⟩
  cases op <;> simp [busyMatchesPhase, statusAccepted]

theorem Table.below_write {α : Type} {m : Table α} {n a : Nat} (h : Table.below m n) (ha : a < n) (v : α) :
    Table.below (Table.write m a v) n := by
  intro c hc
  rcases Table.mem_write hc with rfl | hc
  · exact ha
  · exact h c hc

theorem wf_hostWrote {s t : State} (h : Wf s) (hwrote : HostWrote s t) : Wf t := by
  obtain ⟨hlegal, hbusy, hplatform, hinWf, houtWf, hht, hbelow⟩ := h
  obtain ⟨hframe, hin, hout⟩ := hwrote
  have hin' : Memory.wf t.inMem ∧ Table.below t.inMem s.platform.inSize.toNat := by
    rcases hin with hin | ⟨x, v, hx, hin⟩ <;> rw [hin]
    · exact ⟨hinWf, hbelow⟩
    · exact ⟨Memory.wf_write hinWf x v, Table.below_write hbelow hx v⟩
  have hout' : Memory.wf t.outMem := by
    rcases hout with hout | ⟨x, v, -, hout⟩ <;> rw [hout]
    · exact houtWf
    · exact Memory.wf_write houtWf x v
  rw [hframe]
  exact ⟨hlegal, hbusy, hplatform, hin'.1, hout', hht, hin'.2⟩

theorem wf_resetNow {s : State} (h : Wf s) : Wf (resetNow s) :=
  ⟨by simp [statusLegal, resetNow, State.reset], by simp [busyMatchesPhase, resetNow, State.reset], h.platform,
    Table.wf_nil, Table.wf_nil, Table.wf_nil, fun _ hc => by cases hc⟩

/-- Settles O49: the engine, the host's start, its writes and reset each keep the legal state. -/
theorem wfKept : Obligations.WfKept := by
  unfold Obligations.WfKept
  intro s t hs h
  exact step_keeps (P := Wf) (fun _ _ _ _ _ hu => hu) (fun _ _ hu hstep => wf_engineStep hu hstep)
    (fun _ op hu _ => wf_acceptStart hu op) (fun _ _ hu _ hwrote => wf_hostWrote hu hwrote)
    (fun _ hu => wf_resetNow hu) hs h

/-! ## ParserInv -/

theorem parserInv_startChecks {s : State} (h : s.phase = .dcmp .startChecks) : ParserInv s := by
  simp only [ParserInv, h]

/-- A header byte that another follows keeps the groups counted (R67): at most five are taken. -/
theorem parserInv_continueRegs {s : State} {g : BitVec 7} (hphase : s.phase = .dcmp .readHeader) (h : ParserInv s)
    (hpos : s.dec.pos.toNat < s.inLen.toNat) (hshift : s.dec.vshift.toNat < 32)
    (hfits : g.toNat * 2 ^ s.dec.vshift.toNat < 2 ^ 32) : ParserInv { s with dec := continueRegs g s } := by
  obtain ⟨hlengths, -, -, hgroups, hvres⟩ := (parserInv_readHeader hphase).1 h
  have hnextPos : (continueRegs g s).pos.toNat = s.dec.pos.toNat + 1 := groupRegs_pos_toNat g hpos
  have hnextShift := continueRegs_vshift_toNat g hshift
  have hnextVres : (continueRegs g s).vres.toNat = _ := groupRegs_vres_toNat hvres hfits
  refine (parserInv_readHeader (s := { s with dec := continueRegs g s }) hphase).2 ⟨hlengths, ?_, ?_, ?_, ?_⟩
  · rw [hnextPos]; exact hpos
  · rw [hnextPos]; omega
  · rw [hnextPos, hnextShift]; omega
  · rw [hnextVres, hnextShift, Nat.pow_add]
    have := g.isLt
    nlinarith

theorem parserInv_engineStep {s t : State} (h : ParserInv s) (hstep : engineStep s = .next t) : ParserInv t := by
  cases hphase : s.phase with
  | idle =>
    obtain rfl : s = t := Host.Outcome.next.inj ((engineStep_idle hphase).symm.trans hstep)
    exact h
  | cmp stage =>
    rcases compress_cases hphase hstep with ⟨-, e, d, -, rfl⟩ | ⟨-, -, rfl⟩ | ⟨⟨next, hnext⟩, -⟩
    · exact parserInv_idle rfl
    · exact parserInv_idle rfl
    · exact parserInv_cmp hnext
  | dcmp stage =>
    cases stage with
    | startChecks =>
      obtain rfl := Host.Outcome.next.inj ((engineStep_startDecompress hphase).symm.trans hstep)
      rcases startDecompress_cases s with ⟨e, d, -, hfail⟩ | ⟨hlengths, hstart⟩
      · rw [hfail]
        exact parserInv_idle rfl
      · rw [hstart, parserInv_readHeader rfl]
        exact ⟨hlengths, Nat.zero_le _, Nat.zero_le _, rfl, Nat.one_pos⟩
    | readHeader =>
      rcases readHeader_cases hphase hstep with ⟨e, d, -, rfl⟩ | ⟨g, hpos, hshift, hfits, rfl | ⟨hcap, rfl⟩⟩
      · exact parserInv_idle rfl
      · exact parserInv_continueRegs hphase h hpos hshift hfits
      · obtain ⟨hlengths, -⟩ := (parserInv_readHeader hphase).1 h
        exact (parserInv_decodeLoop rfl).2
          ⟨hlengths, (groupRegs_pos_toNat g hpos).trans_le hpos, Nat.zero_le _, hcap⟩
    | decodeLoop =>
      obtain ⟨hlengths, -, -, hL⟩ := (parserInv_decodeLoop hphase).1 h
      rcases decodeLoop_cases hphase hstep with ⟨-, rfl⟩ | ⟨e, d, -, rfl⟩ | ⟨hframe, -, hin, hout, hkept, -⟩
      · exact parserInv_idle rfl
      · exact parserInv_idle rfl
      · rw [← hkept] at hout hL
        rw [hframe]
        exact (parserInv_decodeLoop (by exact hphase)).2 ⟨hlengths, hin, hout, hL⟩

/-- Settles O50: the engine keeps the cursors in their bounds; a start, a write of the idle host and reset leave no
parser stage under way. -/
theorem parserInvKept : Obligations.ParserInvKept := by
  unfold Obligations.ParserInvKept
  intro s t hwf hs h
  refine (step_keeps (P := fun s => Wf s ∧ ParserInv s) (fun _ _ _ _ _ hu => hu)
    (fun u v ⟨hu, hinv⟩ hstep => ⟨wf_engineStep hu hstep, parserInv_engineStep hinv hstep⟩)
    (fun u op ⟨hu, _⟩ _ => ⟨wf_acceptStart hu op, ?_⟩) (fun u v ⟨hu, _⟩ hidle hwrote => ⟨wf_hostWrote hu hwrote, ?_⟩)
    (fun u ⟨hu, _⟩ => ⟨wf_resetNow hu, parserInv_idle rfl⟩) ⟨hwf, hs⟩ h).2
  · cases op
    · exact parserInv_cmp rfl
    · exact parserInv_startChecks rfl
  · refine parserInv_idle ?_
    rw [hwrote.1]
    exact hu.idle_of_not_busy hidle

end Sys2Proof.Machine
end

section
/-! SUPPORT. The start checks (45_host_commands.md R128), the number of elements of a copy (42_tag_encoder.md R93), the
start of a block (41_match_finder.md R71 to R77) and one probe (R78), and the obligations on them. -/

namespace Sys2Proof.Machine

/-! ## The start checks -/

theorem badConfig_iff (s : State) :
    badConfig s = true ↔
      s.platform.inSize.toNat < s.inLen.toNat ∨ s.platform.outSize.toNat < s.outCap.toNat := by
  simp [badConfig]

theorem capacityShort_iff (s : State) : capacityShort s = true ↔ s.outCap.toNat < outBound s.inLen.toNat := by
  simp [capacityShort]

/-- Settles O19: the first check is common, the second is that of COMPRESS, and past them the assignments are made. -/
theorem startChecksInOrder : Obligations.StartChecksInOrder := by
  unfold Obligations.StartChecksInOrder
  intro s
  refine ⟨fun hbad hphase => ?_, fun hin hout => ?_⟩
  · have hbad' := (badConfig_iff s).2 hbad
    refine ⟨raise .badConfig s, ?_, raise_failedEntry _ s⟩
    rcases hphase with hphase | hphase
    · rw [engineStep_cmp hphase]
      exact congrArg Host.Outcome.next (if_pos hbad')
    · rw [engineStep_startDecompress hphase]
      exact congrArg Host.Outcome.next (if_pos hbad')
  · have hok : ¬ badConfig s = true := by
      rw [badConfig_iff]
      omega
    refine ⟨fun hphase => ?_, fun hphase hshort => ?_, fun hphase hroom => ?_⟩
    · rw [engineStep_startDecompress hphase]
      exact congrArg Host.Outcome.next (if_neg hok)
    · refine ⟨raise .compressCapacity s, ?_, raise_failedEntry _ s⟩
      rw [engineStep_cmp hphase, compressStep, startCompress, if_neg hok, if_pos ((capacityShort_iff s).2 hshort)]
    · rw [engineStep_cmp hphase, compressStep, startCompress, if_neg hok,
        if_neg (mt (capacityShort_iff s).1 (Nat.not_lt.2 hroom))]

/-! ## The number of elements of a copy -/

/-- R93: the number of chunks of a copy. -/
theorem copyChunks_length {len : Nat} (h : 4 ≤ len) :
    (copyChunks len).length = (len - 4) / 64 + 1 + (if 64 < len - 64 * ((len - 4) / 64) then 1 else 0) := by
  refine copyChunks_induction (P := fun len chunks => chunks.length =
    (len - 4) / 64 + 1 + (if 64 < len - 64 * ((len - 4) / 64) then 1 else 0)) (fun len hmin hle => ?_)
    (fun len hgt hlt => ?_) (fun len hge ih => ?_) h
  · have hzero : (len - 4) / 64 = 0 := by omega
    rw [hzero, if_neg (by omega), List.length_singleton]
  · have hzero : (len - 4) / 64 = 0 := by omega
    rw [hzero, if_pos (by omega)]
    rfl
  · have hone : (len - 4) / 64 = (len - 64 - 4) / 64 + 1 := by omega
    have hrest : len - 64 * ((len - 64 - 4) / 64 + 1) = len - 64 - 64 * ((len - 64 - 4) / 64) := by omega
    rw [List.length_cons, ih, hone, hrest]
    omega

/-- Each element of a copy takes 2 or 3 bytes (R92). -/
theorem copyBytes_length_bounds (offset len : Nat) :
    2 * (copyChunks len).length ≤ (copyBytes offset len).length ∧
    (copyBytes offset len).length ≤ 3 * (copyChunks len).length := by
  rw [copyBytes]
  induction copyChunks len with
  | nil => simp
  | cons c chunks ih =>
    have := copyElementBytes_length offset c
    rw [List.flatMap_cons, List.length_append, List.length_cons]
    omega

/-- A copy takes fewer bytes than it covers (R93, R97). -/
theorem copyBytes_length_lt (offset : Nat) {len : Nat} (h : 4 ≤ len) : (copyBytes offset len).length < len := by
  have hcount := copyChunks_length h
  have hbytes := (copyBytes_length_bounds offset len).2
  split_ifs at hcount <;> omega

/-- Settles O40: the count by the recursion of the chunks; the bytes by the two lengths of an element. -/
theorem copyElementCount : Obligations.CopyElementCount := by
  unfold Obligations.CopyElementCount
  intro offset len hmin
  exact ⟨copyChunks_length hmin, copyElementBytes_length offset len, (copyBytes_length_bounds offset len).1,
    (copyBytes_length_bounds offset len).2, copyBytes_length_lt offset hmin⟩

/-! ## The start of a block -/

/-- The registers of a new block (R71, R72, R76). -/
def blockRegs (size : Nat) (s : State) : CmpRegs :=
  { s.cmp with
    S        := BitVec.ofNat 17 size
    be       := BitVec.ofNat 32 (s.cmp.bs.toNat + size)
    bits     := BitVec.ofNat 4 (tableBits size)
    nextEmit := s.cmp.bs }

/-- The registers of a block's first search round (R75 to R77). -/
def searchRegs (size : Nat) (s : State) : CmpRegs :=
  { blockRegs size s with
    ipLimit := BitVec.ofNat 32 (s.cmp.bs.toNat + size - INPUT_MARGIN)
    ip      := s.cmp.bs + 1
    skip    := BitVec.ofNat 32 SKIP_INIT }

/-- HT with the part a block uses cleared (R73). -/
def clearedHt (size : Nat) (s : State) : HashTable := Table.fill s.ht (2 ^ tableBits size) fun _ => 0

theorem beginBlock_of_margin {size : Nat} (h : 15 ≤ size) (s : State) :
    beginBlock size s = { s with ht := clearedHt size s, cmp := searchRegs size s, phase := .cmp .probe } :=
  if_pos h

theorem beginBlock_of_short {size : Nat} (h : size < 15) (s : State) :
    beginBlock size s = { s with ht := clearedHt size s, cmp := blockRegs size s, phase := .cmp .tail } :=
  if_neg (Nat.not_le.2 h)

/-- The size of the next block (R95, R96). -/
def nextSize (s : State) : Nat := min 65536 (s.cmp.N.toNat - s.cmp.bs.toNat)

theorem nextBlock_of_lt {s : State} (h : s.cmp.bs.toNat < s.cmp.N.toNat) : nextBlock s = beginBlock (nextSize s) s :=
  if_pos h

/-- The registers of a new block hold what R71 and R72 give them: no value leaves its width. -/
theorem blockRegs_toNat {s : State} (h : s.cmp.bs.toNat < s.cmp.N.toNat) :
    (blockRegs (nextSize s) s).S.toNat = nextSize s ∧
    (blockRegs (nextSize s) s).be.toNat = s.cmp.bs.toNat + nextSize s ∧
    (blockRegs (nextSize s) s).bits.toNat = tableBits (nextSize s) := by
  have hsize : 1 ≤ nextSize s ∧ nextSize s ≤ 65536 ∧ s.cmp.bs.toNat + nextSize s ≤ s.cmp.N.toNat := by
    unfold nextSize
    omega
  have hbits := tableBits_le hsize.1
  have hN := s.cmp.N.isLt
  exact ⟨toNat_ofNat_of_lt (by omega), toNat_ofNat_of_lt (by omega), toNat_ofNat_of_lt (by omega)⟩

/-- The registers of the first search round (R75 to R77). -/
theorem searchRegs_toNat {s : State} (h : s.cmp.bs.toNat < s.cmp.N.toNat) :
    (searchRegs (nextSize s) s).ip.toNat = s.cmp.bs.toNat + 1 ∧
    (searchRegs (nextSize s) s).ipLimit.toNat = s.cmp.bs.toNat + nextSize s - 15 ∧
    (searchRegs (nextSize s) s).skip.toNat = 32 := by
  have hN := s.cmp.N.isLt
  have hsize : s.cmp.bs.toNat + nextSize s ≤ s.cmp.N.toNat := by
    unfold nextSize
    omega
  refine ⟨BitVec.toNat_add_of_lt (show s.cmp.bs.toNat + 1 < 2 ^ 32 by omega), toNat_ofNat_of_lt ?_, rfl⟩
  exact Nat.lt_of_le_of_lt (Nat.sub_le _ _) (Nat.lt_of_le_of_lt hsize hN)

theorem lookup_clearedHt (size : Nat) (s : State) (i : Nat) :
    Table.lookup (clearedHt size s) i = if i < 2 ^ tableBits size then some 0 else Table.lookup s.ht i :=
  Table.lookup_fill _ _ _ i

theorem htEntry_clearedHt (size : Nat) (s : State) (i : Nat) :
    htEntry { s with ht := clearedHt size s } i = if i < 2 ^ tableBits size then 0 else htEntry s i := by
  rw [htEntry, lookup_clearedHt]
  split <;> rfl

/-- Settles O44: a block long enough to be searched starts at its first probe, a shorter one at its tail. -/
theorem blockStart : Obligations.BlockStart := by
  unfold Obligations.BlockStart
  intro s hphase hbs
  obtain ⟨hS, hbe, hbits⟩ := blockRegs_toNat hbs
  have hht := htEntry_clearedHt (nextSize s) s
  have hstep : engineStep s = .next (beginBlock (nextSize s) s) := by
    rw [engineStep_cmp hphase, compressStep, nextBlock_of_lt hbs]
  refine ⟨_, hstep, ?_⟩
  rcases Nat.lt_or_ge (nextSize s) 15 with hshort | hmargin
  · rw [beginBlock_of_short hshort]
    refine ⟨hS, by rw [hS, hbe], by rw [hS, hbits], fun i hi => ?_, fun i hi => ?_, rfl, rfl, rfl, rfl,
      fun _ => rfl, fun h15 => absurd h15 (by rw [hS]; omega), rfl⟩
    · rw [hbits] at hi
      exact (hht i).trans (if_pos hi)
    · rw [hbits] at hi
      exact (hht i).trans (if_neg (Nat.not_lt.2 hi))
  · obtain ⟨hip, hlimit, hskip⟩ := searchRegs_toNat hbs
    rw [beginBlock_of_margin hmargin]
    have hS' : (searchRegs (nextSize s) s).S.toNat = nextSize s := hS
    have hbe' : (searchRegs (nextSize s) s).be.toNat = s.cmp.bs.toNat + nextSize s := hbe
    have hbits' : (searchRegs (nextSize s) s).bits.toNat = tableBits (nextSize s) := hbits
    refine ⟨hS', by rw [hS', hbe'], by rw [hS', hbits'], fun i hi => ?_, fun i hi => ?_, rfl, rfl, rfl, rfl,
      fun h15 => absurd h15 (by rw [hS']; omega), fun _ => ⟨rfl, hip, by rw [hbe', hlimit], hskip⟩, rfl⟩
    · rw [hbits'] at hi
      exact (hht i).trans (if_pos hi)
    · rw [hbits'] at hi
      exact (hht i).trans (if_neg (Nat.not_lt.2 hi))

/-! ## One probe -/

/-- The candidate of a probe (R78): what the slot of `ip` names. -/
def probeCand (s : State) : Nat := s.cmp.bs.toNat + (htEntry s (fingerprint s s.cmp.ip.toNat)).toNat

/-- The record of a probe leaves IN as it was: its test compares the four bytes at `ip` and at its candidate. -/
theorem candidateMatches_probe (s : State) :
    candidateMatches (lookupAndRecord s) = eq32 s s.cmp.ip.toNat (BitVec.ofNat 32 (probeCand s)).toNat := by
  rw [candidateMatches, eq32_lookupAndRecord, lookupAndRecord_cmp]
  rfl

theorem probe_of_gt {s : State} (h : s.cmp.ipLimit.toNat < s.cmp.ip.toNat) :
    probe s = { s with phase := .cmp .tail } :=
  if_pos h

/-- A record writes its slot of HT and the two registers `h` and `cand`, and nothing else (R78, R83). The two are named
apart from the state, so that no comparison of states computes a fingerprint. -/
theorem lookupAndRecord_eq (s : State) :
    ∃ (h : BitVec 14) (cand : Word), h = BitVec.ofNat 14 (fingerprint s s.cmp.ip.toNat) ∧
      cand = BitVec.ofNat 32 (probeCand s) ∧
      lookupAndRecord s = { s with ht := (lookupAndRecord s).ht, cmp := { s.cmp with h := h, cand := cand } } :=
  ⟨_, _, rfl, rfl, rfl⟩

/-- Within the limit, the candidate matches: it is accepted (R78). -/
theorem probe_of_match {s : State} (hle : s.cmp.ip.toNat ≤ s.cmp.ipLimit.toNat)
    (hmatch : eq32 s s.cmp.ip.toNat (BitVec.ofNat 32 (probeCand s)).toNat = true) :
    probe s = { lookupAndRecord s with phase := .cmp .accept } := by
  rw [← candidateMatches_probe] at hmatch
  exact (if_neg (Nat.not_lt.2 hle)).trans (if_pos hmatch)

theorem scanStep_lookupAndRecord (s : State) : scanStep (lookupAndRecord s) = scanStep s := by
  rw [scanStep, lookupAndRecord_cmp, scanStep]

/-- Where a failed probe takes `ip` (R78, R79). -/
theorem satWord_scanStep_toNat (s : State) :
    (satWord (scanStep s)).toNat = min (s.cmp.ip.toNat + s.cmp.skip.toNat / 32) (2 ^ 32 - 1) := by
  simp only [satWord_toNat, scanStep, SKIP_SHIFT, Nat.reducePow]

/-- Within the limit, the candidate does not match: `ip` goes on by the skip, and the skip by one (R78, R79). -/
theorem probe_of_no_match {s : State} (hle : s.cmp.ip.toNat ≤ s.cmp.ipLimit.toNat)
    (hmiss : eq32 s s.cmp.ip.toNat (BitVec.ofNat 32 (probeCand s)).toNat = false) :
    ∃ ip skip : Word, ip.toNat = min (s.cmp.ip.toNat + s.cmp.skip.toNat / 32) (2 ^ 32 - 1) ∧
      skip = s.cmp.skip + 1 ∧
      probe s = { lookupAndRecord s with cmp := { (lookupAndRecord s).cmp with ip := ip, skip := skip } } := by
  refine ⟨satWord (scanStep s), s.cmp.skip + 1, satWord_scanStep_toNat s, rfl, ?_⟩
  rw [← candidateMatches_probe] at hmiss
  rw [probe, if_neg (Nat.not_lt.2 hle)]
  dsimp only
  rw [if_neg (Bool.eq_false_iff.1 hmiss), scanStep_lookupAndRecord, lookupAndRecord_cmp]

theorem SearchInv.ipLimit_lt_be {bound : Nat} {s : State} (h : SearchInv bound s) :
    s.cmp.ipLimit.toNat < s.cmp.be.toNat := by
  obtain ⟨hblock, hmargin, hlimit, -⟩ := h
  obtain ⟨-, hbe, -⟩ := hblock.bounds
  omega

/-- What the invariant says of a probe within its limit: the candidate lies in the block below `ip`, and neither it nor
the next skip leaves its register (R79, R86). -/
theorem probe_bounds {s : State} (hinv : CompressInv s) (hphase : s.phase = .cmp .probe)
    (h : s.cmp.ip.toNat ≤ s.cmp.ipLimit.toNat) :
    (BitVec.ofNat 32 (probeCand s)).toNat = probeCand s ∧ probeCand s < s.cmp.ip.toNat ∧
    (s.cmp.skip + 1).toNat = s.cmp.skip.toNat + 1 := by
  obtain ⟨hsearch, -, -, -, hskip⟩ := (compressInv_probe hphase).1 hinv
  have hcand : probeCand s < s.cmp.ip.toNat := by
    obtain ⟨-, -, -, hentries⟩ := hsearch
    exact (hentries _ (fingerprint_lt s _)).2.2
  have hend := hsearch.ipLimit_le_be
  obtain ⟨hS, hbe, -⟩ := hsearch.1.bounds
  have hip := s.cmp.ip.isLt
  exact ⟨toNat_ofNat_of_lt (by omega), hcand, BitVec.toNat_add_of_lt (show s.cmp.skip.toNat + 1 < 2 ^ 32 by omega)⟩

/-- A read of HT depends on HT and the epoch alone. -/
theorem htEntry_congr {s t : State} (hht : t.ht = s.ht) (hepoch : t.epoch = s.epoch) (i : Nat) :
    htEntry t i = htEntry s i := by
  rw [htEntry, hht, hepoch, htEntry]

/-- Settles O45: past the limit by the first test; otherwise the record is common, and the candidate decides. -/
theorem probeStep : Obligations.ProbeStep := by
  unfold Obligations.ProbeStep
  intro s hinv hphase
  have hstep : engineStep s = .next (probe s) := engineStep_cmp hphase
  refine ⟨fun hgt => by rw [hstep, probe_of_gt hgt], fun hle => ⟨probe s, hstep, ?_⟩⟩
  obtain ⟨hsearch, -⟩ := (compressInv_probe hphase).1 hinv
  obtain ⟨hcandNat, hcand, hskip⟩ := probe_bounds hinv hphase hle
  obtain ⟨h, cand, hh, hcandWord, hrecord⟩ := lookupAndRecord_eq s
  rw [← hcandWord] at hcandNat
  have hhNat : h.toNat = fingerprint s s.cmp.ip.toNat := by
    rw [hh]
    exact toNat_ofNat_of_lt (hsearch.fingerprint_fits _)
  have hslot {t : State} (hht : t.ht = (lookupAndRecord s).ht) (hepoch : t.epoch = s.epoch) :
      (htEntry t (fingerprint s s.cmp.ip.toNat)).toNat = s.cmp.ip.toNat - s.cmp.bs.toNat := by
    rw [htEntry_congr (s := lookupAndRecord s) hht hepoch, htEntry_lookupAndRecord, if_pos rfl,
      hsearch.1.offset_toNat (Nat.lt_of_le_of_lt hle hsearch.ipLimit_lt_be)]
  have hother {t : State} (hht : t.ht = (lookupAndRecord s).ht) (hepoch : t.epoch = s.epoch) (i : Nat)
      (hi : i ≠ fingerprint s s.cmp.ip.toNat) : htEntry t i = htEntry s i := by
    rw [htEntry_congr (s := lookupAndRecord s) hht hepoch, htEntry_lookupAndRecord, if_neg hi]
  cases hmatches : eq32 s s.cmp.ip.toNat (BitVec.ofNat 32 (probeCand s)).toNat with
  | true =>
    rw [probe_of_match hle hmatches, hrecord]
    rw [← hcandWord] at hmatches
    exact ⟨hhNat, hcandNat, hcandNat.trans_lt hcand, hslot rfl rfl, hother rfl rfl,
      fun _ => ⟨rfl, rfl⟩, fun hmiss => absurd (hmatches.symm.trans hmiss) (by decide), rfl⟩
  | false =>
    obtain ⟨ip, skip, hip, hskipWord, hprobe⟩ := probe_of_no_match hle hmatches
    rw [hprobe, hrecord]
    rw [← hcandWord] at hmatches
    rw [← hskipWord] at hskip
    exact ⟨hhNat, hcandNat, hcandNat.trans_lt hcand, hslot rfl rfl, hother rfl rfl,
      fun hmatch => absurd (hmatches.symm.trans hmatch) (by decide), fun _ => ⟨hphase, hip, hskip, rfl⟩, rfl⟩

end Sys2Proof.Machine
end

section
/-! SUPPORT. The compressor's invariant (41_match_finder.md R86, R87; 43_block_compressor.md R95, R96): each stage keeps
it, and with it every step; and the scan it bounds (R29, R78, R79). -/

namespace Sys2Proof.Machine

/-! ## What the invariants depend on -/

/-- The fields that describe the block under way, but for `nextEmit`, are the same in both states. -/
def SameBlock (s t : State) : Prop :=
  t.inLen = s.inLen ∧ t.epoch = s.epoch ∧ t.cmp.N = s.cmp.N ∧ t.cmp.bs = s.cmp.bs ∧ t.cmp.S = s.cmp.S ∧
  t.cmp.be = s.cmp.be ∧ t.cmp.bits = s.cmp.bits

theorem BlockInv.nextEmit_bounds {s : State} (h : BlockInv s) :
    s.cmp.bs.toNat ≤ s.cmp.nextEmit.toNat ∧ s.cmp.nextEmit.toNat ≤ s.cmp.be.toNat := by
  obtain ⟨-, -, -, -, -, -, hlow, hhigh⟩ := h
  exact ⟨hlow, hhigh⟩

theorem BlockInv.of_same {s t : State} (h : BlockInv s) (hsame : SameBlock s t)
    (hemit : s.cmp.bs.toNat ≤ t.cmp.nextEmit.toNat ∧ t.cmp.nextEmit.toNat ≤ s.cmp.be.toNat) : BlockInv t := by
  obtain ⟨hin, -, hN, hbs, hS, hbe, hbits⟩ := hsame
  obtain ⟨h1, h2, h3, h4, h5, h6, -⟩ := h
  unfold BlockInv
  rw [hin, hN, hbs, hS, hbe, hbits]
  exact ⟨h1, h2, h3, h4, h5, h6, hemit⟩

theorem SearchInv.of_same {bound : Nat} {s t : State} (h : SearchInv bound s) (hsame : SameBlock s t)
    (hemit : s.cmp.bs.toNat ≤ t.cmp.nextEmit.toNat ∧ t.cmp.nextEmit.toNat ≤ s.cmp.be.toNat)
    (hlim : t.cmp.ipLimit = s.cmp.ipLimit) (hht : t.ht = s.ht) : SearchInv bound t := by
  obtain ⟨hblock, hmargin, hlimit, hentries⟩ := h
  refine ⟨hblock.of_same hsame hemit, ?_⟩
  obtain ⟨-, hepoch, -, hbs, hS, hbe, hbits⟩ := hsame
  have hentry := htEntry_congr hht hepoch
  rw [hS, hbe, hlim, hbits]
  refine ⟨hmargin, hlimit, fun i hi => ?_⟩
  rw [hentry, hht, hbs]
  exact hentries i hi

theorem htEntry_of_lookup {s : State} {i : Nat} {v : BitVec 16} (h : Table.lookup s.ht i = some v) :
    htEntry s i = v := by
  rw [htEntry, h]
  rfl

theorem SearchInv.mono {bound bound' : Nat} {s : State} (h : SearchInv bound s) (hle : bound ≤ bound') :
    SearchInv bound' s := by
  obtain ⟨hblock, hmargin, hlimit, hentries⟩ := h
  refine ⟨hblock, hmargin, hlimit, fun i hi => ?_⟩
  obtain ⟨hlisted, hentry, hbelow⟩ := hentries i hi
  exact ⟨hlisted, hentry, Nat.lt_of_lt_of_le hbelow hle⟩

/-- A position within the scan's limit may be recorded at any slot (R87). -/
theorem searchInv_writeHt {bound : Nat} {s : State} (h : SearchInv bound s) {a : Nat} (hlow : s.cmp.bs.toNat ≤ a)
    (hlimit : a ≤ s.cmp.ipLimit.toNat) (hbound : a < bound) (slot : Nat) :
    SearchInv bound (writeHt s slot (a - s.cmp.bs.toNat)) := by
  have hoffset := h.1.offset_toNat (Nat.lt_of_le_of_lt hlimit h.ipLimit_lt_be)
  obtain ⟨hblock, hmargin, hlim, hentries⟩ := h
  obtain ⟨-, hbe, -⟩ := hblock.bounds
  refine ⟨hblock, hmargin, hlim, fun i hi => ?_⟩
  obtain ⟨hlisted, hentry, hbelow⟩ := hentries i hi
  rw [writeHt_ht, htEntry_writeHt, Table.lookup_write, writeHt_cmp]
  split_ifs
  · rw [hoffset]
    exact ⟨rfl, by omega, by omega⟩
  · exact ⟨hlisted, hentry, hbelow⟩

/-- The record of a lookup at `ip` (R78, R83). -/
theorem searchInv_lookupAndRecord {bound : Nat} {s : State} (h : SearchInv bound s)
    (hlow : s.cmp.bs.toNat ≤ s.cmp.ip.toNat) (hlimit : s.cmp.ip.toNat ≤ s.cmp.ipLimit.toNat)
    (hbound : s.cmp.ip.toNat < bound) : SearchInv bound (lookupAndRecord s) := by
  obtain ⟨slot, cand, -, -, hrecord⟩ := lookupAndRecord_eq s
  have hwritten := searchInv_writeHt h hlow hlimit hbound (fingerprint s s.cmp.ip.toNat)
  have hht := lookupAndRecord_ht s
  rw [← writeHt_ht] at hht
  rw [hrecord]
  exact hwritten.of_same ⟨rfl, rfl, rfl, rfl, rfl, rfl, rfl⟩ hwritten.1.nextEmit_bounds rfl hht

/-! ## The invariant across each stage -/

/-- The head of the block loop: a block whose registers describe it, with every used entry naming its start (R71 to
R77), or the end. -/
theorem compressInv_nextBlock_step {s : State} (hphase : s.phase = .cmp .nextBlock) (h : CompressInv s) :
    CompressInv (nextBlock s) := by
  obtain ⟨hN, hle, haligned⟩ := (compressInv_nextBlock hphase).1 h
  rcases Nat.lt_or_ge s.cmp.bs.toNat s.cmp.N.toNat with hbs | hend
  · obtain ⟨hS, hbe, hbits⟩ := blockRegs_toNat hbs
    have hzero : s.cmp.bs.toNat % 65536 = 0 := haligned.resolve_right fun heq => by rw [heq] at hbs; omega
    have hblock : BlockInv { s with ht := clearedHt (nextSize s) s, cmp := blockRegs (nextSize s) s } :=
      ⟨hN, hbs, hzero, hS, by rw [hbe, hS]; rfl, by rw [hbits, hS], Nat.le_refl _,
        by rw [hbe]; exact Nat.le_add_right _ _⟩
    rw [nextBlock_of_lt hbs]
    rcases Nat.lt_or_ge (nextSize s) 15 with hshort | hmargin
    · rw [beginBlock_of_short hshort, compressInv_tail rfl]
      exact hblock.of_same ⟨rfl, rfl, rfl, rfl, rfl, rfl, rfl⟩ hblock.nextEmit_bounds
    · obtain ⟨hip, hlimit, hskip⟩ := searchRegs_toNat hbs
      rw [beginBlock_of_margin hmargin, compressInv_probe rfl, hip, hlimit, hskip]
      have hsearch : SearchInv (s.cmp.bs.toNat + 1)
          { s with ht := clearedHt (nextSize s) s, cmp := searchRegs (nextSize s) s, phase := .cmp .probe } := by
        refine ⟨hblock.of_same ⟨rfl, rfl, rfl, rfl, rfl, rfl, rfl⟩ hblock.nextEmit_bounds, ?_, ?_, fun i hi => ?_⟩
        · exact hS.symm ▸ hmargin
        · exact hlimit.trans (congrArg (· - 15) hbe.symm)
        · have hlisted : Table.lookup (clearedHt (nextSize s) s) i = some 0 :=
            (lookup_clearedHt _ s i).trans (if_pos (hbits ▸ hi))
          have hentry := congrArg BitVec.toNat
            (htEntry_of_lookup (s := { s with ht := clearedHt (nextSize s) s }) hlisted)
          exact ⟨congrArg Option.isSome hlisted, hentry.trans_le (Nat.zero_le _),
            Nat.lt_succ_of_le (hentry ▸ Nat.le_refl _)⟩
      exact ⟨hsearch, Nat.lt_succ_self _, by omega, Nat.le_refl _, by show 32 + s.cmp.bs.toNat ≤ _; omega⟩
  · rw [nextBlock, if_neg (Nat.not_lt.2 hend)]
    exact compressInv_idle rfl

/-- A candidate that matches is accepted (R78, R83): it lies in the block below `ip`, its four bytes verified. -/
theorem matchInv_of_match {s : State} {phase : Phase} (hsearch : SearchInv (s.cmp.ip.toNat + 1) (lookupAndRecord s))
    (hlimit : s.cmp.ip.toNat ≤ s.cmp.ipLimit.toNat) (hcand : probeCand s < s.cmp.ip.toNat)
    (hmatch : eq32 s s.cmp.ip.toNat (BitVec.ofNat 32 (probeCand s)).toNat = true) :
    MatchInv { lookupAndRecord s with phase := phase } := by
  obtain ⟨slot, cand, -, hcandWord, hrecord⟩ := lookupAndRecord_eq s
  have hcandNat : cand.toNat = probeCand s := by
    have := s.cmp.ip.isLt
    rw [hcandWord]
    exact toNat_ofNat_of_lt (by omega)
  rw [← hcandWord] at hmatch
  rw [hrecord] at hsearch ⊢
  refine ⟨hsearch.of_same ⟨rfl, rfl, rfl, rfl, rfl, rfl, rfl⟩ hsearch.1.nextEmit_bounds rfl rfl, hlimit, ?_, ?_, hmatch⟩
  · rw [hcandNat]
    exact Nat.le_add_right _ _
  · rwa [hcandNat]

theorem compressInv_probe_step {s : State} (hphase : s.phase = .cmp .probe) (h : CompressInv s) :
    CompressInv (probe s) := by
  obtain ⟨hsearch, hemit, hpast, hskip, hgrown⟩ := (compressInv_probe hphase).1 h
  rcases Nat.lt_or_ge s.cmp.ipLimit.toNat s.cmp.ip.toNat with hgt | hle
  · rw [probe_of_gt hgt, compressInv_tail rfl]
    exact hsearch.1
  · obtain ⟨-, hcand, hskipNext⟩ := probe_bounds h hphase hle
    have hlow := hsearch.1.nextEmit_bounds.1
    have hrecorded : SearchInv (s.cmp.ip.toNat + 1) (lookupAndRecord s) :=
      searchInv_lookupAndRecord (hsearch.mono (Nat.le_succ _)) (by omega) hle (Nat.lt_succ_self _)
    cases hmatches : eq32 s s.cmp.ip.toNat (BitVec.ofNat 32 (probeCand s)).toNat with
    | true =>
      have haccepted := matchInv_of_match (phase := .cmp .accept) hrecorded hle hcand hmatches
      obtain ⟨slot, cand, -, -, hrecord⟩ := lookupAndRecord_eq s
      rw [probe_of_match hle hmatches, compressInv_accept rfl]
      refine ⟨haccepted, ?_⟩
      rw [hrecord]
      exact hemit
    | false =>
      obtain ⟨ip, skip, hip, hskipWord, hprobe⟩ := probe_of_no_match hle hmatches
      obtain ⟨slot, cand, -, -, hrecord⟩ := lookupAndRecord_eq s
      have hipLt := s.cmp.ip.isLt
      have hlimitLt := s.cmp.ipLimit.isLt
      have hend := hsearch.ipLimit_lt_be
      have hbeLt := s.cmp.be.isLt
      rw [← hskipWord] at hskipNext
      rw [hprobe]
      rw [hrecord] at hrecorded ⊢
      refine (compressInv_probe (by exact hphase)).2 ⟨?_, ?_, ?_, ?_, ?_⟩
      · exact (hrecorded.mono (show s.cmp.ip.toNat + 1 ≤ ip.toNat by omega)).of_same
          ⟨rfl, rfl, rfl, rfl, rfl, rfl, rfl⟩ hrecorded.1.nextEmit_bounds rfl rfl
      · show s.cmp.nextEmit.toNat < ip.toNat
        omega
      · show ip.toNat ≤ s.cmp.ipLimit.toNat + skip.toNat / 32
        omega
      · show 32 ≤ skip.toNat
        omega
      · show skip.toNat + s.cmp.bs.toNat ≤ 32 + ip.toNat
        omega

/-- The literal before a match leaves the match as it is (R80). -/
theorem compressInv_accept_step {s : State} (hphase : s.phase = .cmp .accept) (h : CompressInv s) :
    CompressInv (acceptMatch s) := by
  obtain ⟨hmatch, hemit⟩ := (compressInv_accept hphase).1 h
  rw [acceptMatch_eq, compressInv_extend rfl]
  exact ⟨hmatch, Nat.le_of_lt hemit⟩

/-- A match ends in the block, so the next positions to emit and to search are in it (R81, R82). -/
theorem compressInv_extend_step {s : State} (hphase : s.phase = .cmp .extend) (h : CompressInv s) :
    CompressInv (extendAndEmit s) := by
  obtain ⟨hmatch, -⟩ := (compressInv_extend hphase).1 h
  obtain ⟨m, -, hmin, -, hip, hend, -⟩ := extendIsMaximal s hmatch
  obtain ⟨hsearch, -, hlow, hbelow, -⟩ := hmatch
  rw [extendAndEmit_eq, compressInv_adjacent rfl]
  have hsearch' := hsearch.mono (show s.cmp.ip.toNat + 1 ≤ (extendMatch s).cmp.ip.toNat by omega)
  refine ⟨hsearch'.of_same ⟨rfl, rfl, rfl, rfl, rfl, rfl, rfl⟩ ?_ rfl rfl, rfl, ?_, ?_⟩
  · show _ ≤ (extendMatch s).cmp.ip.toNat ∧ (extendMatch s).cmp.ip.toNat ≤ _
    omega
  · show s.cmp.bs.toNat < (extendMatch s).cmp.ip.toNat
    omega
  · show (extendMatch s).cmp.ip.toNat ≤ s.cmp.be.toNat
    omega

/-- The candidate of ADJACENT lies below `ip` (R83, R86). -/
theorem adjacentCand_lt_ip {s : State} (h : SearchInv s.cmp.ip.toNat s) (hlow : s.cmp.bs.toNat < s.cmp.ip.toNat)
    (hend : s.cmp.ip.toNat ≤ s.cmp.be.toNat) : adjacentCand s < s.cmp.ip.toNat := by
  by_cases heq : fingerprint s (s.cmp.ip.toNat - 1) = fingerprint s s.cmp.ip.toNat
  · rw [adjacentCand_of_eq h.1 hlow hend heq]
    omega
  · rw [adjacentCand_of_ne heq]
    obtain ⟨-, -, -, hentries⟩ := h
    exact (hentries _ (fingerprint_lt s _)).2.2

/-- Both records of ADJACENT keep the entries (R83, R87). -/
theorem searchInv_adjacent {s : State} (h : SearchInv s.cmp.ip.toNat s) (hlow : s.cmp.bs.toNat < s.cmp.ip.toNat)
    (hlimit : s.cmp.ip.toNat < s.cmp.ipLimit.toNat) :
    SearchInv (s.cmp.ip.toNat + 1) (lookupAndRecord (recordPrevious s)) := by
  have hprevious : SearchInv (s.cmp.ip.toNat + 1) (recordPrevious s) :=
    searchInv_writeHt (h.mono (Nat.le_succ _)) (by omega) (by omega) (by omega) _
  exact searchInv_lookupAndRecord hprevious (Nat.le_of_lt hlow) (Nat.le_of_lt hlimit) (Nat.lt_succ_self _)

/-- Short of the limit, the candidate matches (R83). -/
theorem adjacent_eq_of_match {s : State} (hlt : s.cmp.ip.toNat < s.cmp.ipLimit.toNat)
    (hmatch : eq32 s s.cmp.ip.toNat (BitVec.ofNat 32 (adjacentCand s)).toNat = true) :
    adjacent s = { lookupAndRecord (recordPrevious s) with phase := .cmp .extend } := by
  rw [← candidateMatches_adjacent] at hmatch
  exact (adjacent_of_lt hlt).trans (if_pos hmatch)

/-- Short of the limit, the candidate does not match: a search round starts at `ip + 1` (R77, R84). -/
theorem adjacent_eq_of_no_match {s : State} (hlt : s.cmp.ip.toNat < s.cmp.ipLimit.toNat)
    (hmiss : eq32 s s.cmp.ip.toNat (BitVec.ofNat 32 (adjacentCand s)).toNat = false) :
    ∃ ip : Word, ip.toNat = s.cmp.ip.toNat + 1 ∧
      adjacent s = { lookupAndRecord (recordPrevious s) with
        cmp := { (lookupAndRecord (recordPrevious s)).cmp with ip := ip, skip := 32#32 }
        phase := .cmp .probe } := by
  have hlimit := s.cmp.ipLimit.isLt
  rw [← candidateMatches_adjacent] at hmiss
  refine ⟨s.cmp.ip + 1, BitVec.toNat_add_of_lt (show s.cmp.ip.toNat + 1 < 2 ^ 32 by omega), ?_⟩
  have hip : (lookupAndRecord (recordPrevious s)).cmp.ip = s.cmp.ip := by
    obtain ⟨slot, cand, -, -, hrecord⟩ := lookupAndRecord_eq (recordPrevious s)
    rw [hrecord]
    rfl
  rw [adjacent_of_lt hlt]
  dsimp only
  rw [if_neg (Bool.eq_false_iff.1 hmiss), hip, SKIP_INIT]

theorem compressInv_adjacent_step {s : State} (hphase : s.phase = .cmp .adjacent) (h : CompressInv s) :
    CompressInv (adjacent s) := by
  obtain ⟨hsearch, hemit, hlow, hend⟩ := (compressInv_adjacent hphase).1 h
  rcases Nat.lt_or_ge s.cmp.ip.toNat s.cmp.ipLimit.toNat with hlt | hge
  · have hrecorded := searchInv_adjacent hsearch hlow hlt
    have hcand : probeCand (recordPrevious s) < s.cmp.ip.toNat := adjacentCand_lt_ip hsearch hlow hend
    obtain ⟨slot, cand, -, -, hrecord⟩ := lookupAndRecord_eq (recordPrevious s)
    cases hmatches : eq32 s s.cmp.ip.toNat (BitVec.ofNat 32 (adjacentCand s)).toNat with
    | true =>
      have haccepted := matchInv_of_match (s := recordPrevious s) (phase := .cmp .extend) hrecorded
        (Nat.le_of_lt hlt) hcand hmatches
      rw [adjacent_eq_of_match hlt hmatches, compressInv_extend rfl]
      refine ⟨haccepted, ?_⟩
      rw [hrecord]
      exact hemit ▸ Nat.le_refl _
    | false =>
      obtain ⟨ip, hip, hround⟩ := adjacent_eq_of_no_match hlt hmatches
      rw [hround, compressInv_probe rfl]
      rw [hrecord] at hrecorded ⊢
      refine ⟨?_, ?_, ?_, Nat.le_refl _, ?_⟩
      · exact (hrecorded.mono hip.ge).of_same ⟨rfl, rfl, rfl, rfl, rfl, rfl, rfl⟩ hrecorded.1.nextEmit_bounds rfl rfl
      · show s.cmp.nextEmit.toNat < ip.toNat
        rw [hemit]
        omega
      · show ip.toNat ≤ s.cmp.ipLimit.toNat + (32#32).toNat / 32
        rw [BitVec.toNat_ofNat]
        omega
      · show 32 + s.cmp.bs.toNat ≤ 32 + ip.toNat
        omega
  · rw [adjacent_of_ge hge, compressInv_tail rfl]
    exact hsearch.1

/-- The next block starts at the end of this one (R95). -/
theorem BlockInv.next_start_toNat {s : State} (h : BlockInv s) :
    (s.cmp.bs + s.cmp.S.setWidth 32).toNat = s.cmp.be.toNat := by
  obtain ⟨-, hbe, hN⟩ := h.bounds
  have hNLt := s.cmp.N.isLt
  rw [BitVec.toNat_add, BitVec.toNat_setWidth_of_le (by decide), Nat.mod_eq_of_lt (by omega), hbe]

theorem compressInv_tail_step {s : State} (hphase : s.phase = .cmp .tail) (h : CompressInv s) :
    CompressInv (blockTail s) := by
  have hblock := (compressInv_tail hphase).1 h
  have hnext := hblock.next_start_toNat
  obtain ⟨hN, hbs, haligned, hS, hbe, -⟩ := hblock
  rw [blockTail_eq, compressInv_nextBlock rfl]
  refine ⟨hN, ?_, ?_⟩
  · show (s.cmp.bs + s.cmp.S.setWidth 32).toNat ≤ s.cmp.N.toNat
    omega
  · show (s.cmp.bs + s.cmp.S.setWidth 32).toNat % 65536 = 0 ∨ s.cmp.bs + s.cmp.S.setWidth 32 = s.cmp.N
    rw [← BitVec.toNat_inj, hnext]
    omega

theorem compressInv_startChecks {s : State} (h : s.phase = .cmp .startChecks) : CompressInv s := by
  simp only [CompressInv, h]

theorem compressInv_compressStep {s : State} {stage : CmpStage} (hphase : s.phase = .cmp stage) (h : CompressInv s) :
    CompressInv (compressStep stage s) := by
  cases stage with
  | startChecks =>
    rcases startCompress_cases s with ⟨e, d, -, hfail⟩ | ⟨-, -, hstart⟩
    · rw [compressStep, hfail]
      exact compressInv_idle rfl
    · rw [compressStep, hstart]
      exact (compressInv_header rfl).2 ⟨rfl, rfl⟩
  | header =>
    obtain ⟨hN, -⟩ := (compressInv_header hphase).1 h
    rw [compressStep, writeHeader_eq, compressInv_nextBlock rfl]
    exact ⟨hN, Nat.zero_le _, .inl rfl⟩
  | nextBlock => exact compressInv_nextBlock_step hphase h
  | probe => exact compressInv_probe_step hphase h
  | accept => exact compressInv_accept_step hphase h
  | extend => exact compressInv_extend_step hphase h
  | adjacent => exact compressInv_adjacent_step hphase h
  | tail => exact compressInv_tail_step hphase h

theorem compressInv_engineStep {s t : State} (h : CompressInv s) (hstep : engineStep s = .next t) : CompressInv t := by
  cases hphase : s.phase with
  | idle =>
    obtain rfl : s = t := Host.Outcome.next.inj ((engineStep_idle hphase).symm.trans hstep)
    exact h
  | cmp stage =>
    obtain rfl := Host.Outcome.next.inj ((engineStep_cmp hphase).symm.trans hstep)
    exact compressInv_compressStep hphase h
  | dcmp stage =>
    rcases decompress_cases hphase hstep with ⟨e, d, rfl⟩ | rfl | ⟨⟨next, hnext⟩, -⟩
    · exact compressInv_idle rfl
    · exact compressInv_idle rfl
    · exact compressInv_dcmp hnext

/-- A start leaves no stage past the start checks. -/
theorem compressInv_acceptStart (op : Bool) (s : State) : CompressInv (acceptStart op s) := by
  cases op
  · exact compressInv_startChecks rfl
  · exact compressInv_dcmp rfl

/-- A write of the host leaves the idle block idle. -/
theorem HostWrote.idle {s t : State} (h : HostWrote s t) (hidle : s.phase = .idle) : t.phase = .idle := by
  rw [h.1]
  exact hidle

/-- Settles O51: each stage keeps its registers' description of the block; a start, a write of the idle host and reset
leave no block under way. -/
theorem compressInvKept : Obligations.CompressInvKept := by
  unfold Obligations.CompressInvKept
  intro s t hwf hs h
  exact (step_keeps (P := fun s => Wf s ∧ CompressInv s) (fun _ _ _ _ _ hu => hu)
    (fun u v ⟨hu, hinv⟩ hstep => ⟨wf_engineStep hu hstep, compressInv_engineStep hinv hstep⟩)
    (fun u op ⟨hu, _⟩ _ => ⟨wf_acceptStart hu op, compressInv_acceptStart op u⟩)
    (fun u v ⟨hu, _⟩ hidle hwrote =>
      ⟨wf_hostWrote hu hwrote, compressInv_idle (hwrote.idle (hu.idle_of_not_busy hidle))⟩)
    (fun u ⟨hu, _⟩ => ⟨wf_resetNow hu, compressInv_idle rfl⟩) ⟨hwf, hs⟩ h).2

/-! ## Where each stage of a search goes -/

/-- A probe goes to the tail past its limit, or stays at `ip` to accept, or moves on by the skip (R78). -/
theorem probe_cases {s : State} (h : CompressInv s) (hphase : s.phase = .cmp .probe) :
    (s.cmp.ipLimit.toNat < s.cmp.ip.toNat ∧ (probe s).phase = .cmp .tail ∧ (probe s).cmp = s.cmp) ∨
    (s.cmp.ip.toNat ≤ s.cmp.ipLimit.toNat ∧ (probe s).phase = .cmp .accept ∧
      ∃ h' cand, (probe s).cmp = { s.cmp with h := h', cand := cand }) ∨
    (s.cmp.ip.toNat ≤ s.cmp.ipLimit.toNat ∧ (probe s).phase = .cmp .probe ∧
      ∃ h' cand ip skip, (probe s).cmp = { s.cmp with h := h', cand := cand, ip := ip, skip := skip } ∧
        s.cmp.ip.toNat < ip.toNat ∧ ip.toNat ≤ s.cmp.ip.toNat + s.cmp.skip.toNat / 32) := by
  obtain ⟨hsearch, -, -, hskip, -⟩ := (compressInv_probe hphase).1 h
  rcases Nat.lt_or_ge s.cmp.ipLimit.toNat s.cmp.ip.toNat with hgt | hle
  · rw [probe_of_gt hgt]
    exact .inl ⟨hgt, rfl, rfl⟩
  · obtain ⟨slot, cand, -, -, hrecord⟩ := lookupAndRecord_eq s
    cases hmatches : eq32 s s.cmp.ip.toNat (BitVec.ofNat 32 (probeCand s)).toNat with
    | true =>
      rw [probe_of_match hle hmatches, hrecord]
      exact .inr (.inl ⟨hle, rfl, slot, cand, rfl⟩)
    | false =>
      obtain ⟨ip, skip, hip, -, hprobe⟩ := probe_of_no_match hle hmatches
      have hend := hsearch.ipLimit_lt_be
      have hbe := s.cmp.be.isLt
      rw [hprobe, hrecord]
      exact .inr (.inr ⟨hle, hphase, slot, cand, ip, skip, rfl, by omega, by omega⟩)

/-- ADJACENT goes to the tail at its limit, or stays at `ip` to extend, or moves on by one (R83, R84). -/
theorem adjacent_cases (s : State) :
    (s.cmp.ipLimit.toNat ≤ s.cmp.ip.toNat ∧ (adjacent s).phase = .cmp .tail ∧ (adjacent s).cmp = s.cmp) ∨
    (s.cmp.ip.toNat < s.cmp.ipLimit.toNat ∧ (adjacent s).phase = .cmp .extend ∧
      ∃ h' cand, (adjacent s).cmp = { s.cmp with h := h', cand := cand }) ∨
    (s.cmp.ip.toNat < s.cmp.ipLimit.toNat ∧ (adjacent s).phase = .cmp .probe ∧
      ∃ h' cand ip skip, (adjacent s).cmp = { s.cmp with h := h', cand := cand, ip := ip, skip := skip } ∧
        ip.toNat = s.cmp.ip.toNat + 1) := by
  rcases Nat.lt_or_ge s.cmp.ip.toNat s.cmp.ipLimit.toNat with hlt | hge
  · obtain ⟨slot, cand, -, -, hrecord⟩ := lookupAndRecord_eq (recordPrevious s)
    cases hmatches : eq32 s s.cmp.ip.toNat (BitVec.ofNat 32 (adjacentCand s)).toNat with
    | true =>
      rw [adjacent_eq_of_match hlt hmatches, hrecord]
      exact .inr (.inl ⟨hlt, rfl, slot, cand, rfl⟩)
    | false =>
      obtain ⟨ip, hip, hround⟩ := adjacent_eq_of_no_match hlt hmatches
      rw [hround, hrecord]
      exact .inr (.inr ⟨hlt, rfl, slot, cand, ip, 32#32, rfl, hip⟩)
  · rw [adjacent_of_ge hge]
    exact .inl ⟨hge, rfl, rfl⟩

/-- Settles O37: each stage of a search by where it goes. -/
theorem scanAdvances : Obligations.ScanAdvances := by
  unfold Obligations.ScanAdvances
  intro s t hinv h hphase
  rcases hphase with hphase | hphase | hphase | hphase <;>
    obtain rfl := Host.Outcome.next.inj ((engineStep_cmp hphase).symm.trans h)
  · obtain ⟨hsearch, -, hpast, -⟩ := (compressInv_probe hphase).1 hinv
    rcases probe_cases hinv hphase with ⟨-, hnext, hcmp⟩ | ⟨hle, hnext, slot, cand, hcmp⟩ |
      ⟨hle, hnext, slot, cand, ip, skip, hcmp, hlt, hstep⟩
    · simpa [compressStep, hphase, hnext, hcmp] using hpast
    · simpa [compressStep, hphase, hnext, hcmp, hle] using hpast
    · simp [compressStep, hphase, hnext, hcmp]
      omega
  · obtain ⟨⟨hsearch, hlimit, -⟩, -⟩ := (compressInv_accept hphase).1 hinv
    have hend := hsearch.ipLimit_le_be
    simp [compressStep, acceptMatch_eq, hphase]
    omega
  · obtain ⟨hmatch, -⟩ := (compressInv_extend hphase).1 hinv
    obtain ⟨m, -, hmin, -, hip, hend, -⟩ := extendIsMaximal s hmatch
    simp [compressStep, extendAndEmit_eq, hphase]
    omega
  · obtain ⟨hsearch, -, -, hend⟩ := (compressInv_adjacent hphase).1 hinv
    have hlimit := hsearch.ipLimit_le_be
    rcases adjacent_cases s with ⟨-, hnext, hcmp⟩ | ⟨hlt, hnext, slot, cand, hcmp⟩ |
      ⟨hlt, hnext, slot, cand, ip, skip, hcmp, hip⟩
    · simpa [compressStep, hphase, hnext, hcmp] using hend
    · simp [compressStep, hphase, hnext, hcmp]
      omega
    · simp [compressStep, hphase, hnext, hcmp]
      omega

end Sys2Proof.Machine
end

section
/-! SUPPORT. The output cursor of COMPRESS (43_block_compressor.md R97): every stage emits a list of bytes at `op`,
within the bound, and what an engine step writes to OUT stays below OUT_CAP (20_memory.md R38). -/

namespace Sys2Proof.Machine

/-! ## A literal as a list of bytes -/

/-- `n` bytes read in ascending order from an address. -/
def readBytes (read : Nat → Byte) (a n : Nat) : List Byte := (List.range n).map fun i => read (a + i)

@[simp] theorem readBytes_length (read : Nat → Byte) (a n : Nat) : (readBytes read a n).length = n := by
  simp [readBytes]

theorem byteAt_readBytes (read : Nat → Byte) (a : Nat) {n j : Nat} (hj : j < n) :
    byteAt (readBytes read a n) j = read (a + j) := by
  simp [byteAt, readBytes, hj]

theorem readBytes_succ (read : Nat → Byte) (a n : Nat) :
    readBytes read a (n + 1) = read a :: readBytes read (a + 1) n := by
  rw [readBytes, List.range_succ_eq_map, List.map_cons, List.map_map, Nat.add_zero, readBytes]
  congr 2
  funext i
  exact congrArg read (by omega)

/-- Moving bytes is emitting the list of them, short of the cursor's wrap-around (R11, R90). -/
theorem moveBytes_eq_emitBytes (read : Nat → Byte) (n : Nat) :
    ∀ (src : Nat) (s : State), s.cmp.op.toNat + n < 2 ^ 32 →
      moveBytes read src s.cmp.op.toNat n s.outMem = (emitBytes (readBytes read src n) s).outMem := by
  induction n with
  | zero => exact fun _ _ _ => rfl
  | succ n ih =>
    intro src s h
    have hop : (emit (read src) s).cmp.op.toNat = s.cmp.op.toNat + 1 := emit_op_toNat _ (by omega)
    rw [readBytes_succ, emitBytes, ← ih (src + 1) _ (by omega), hop]
    rfl

/-- The bytes EMIT_LITERAL writes (R90): the header, then the payload from IN. -/
def literalBytes (s : State) (src len : Nat) : List Byte := literalHeader len ++ readBytes (inByte s) src len

theorem emitBytes_append (l k : List Byte) : ∀ s : State, emitBytes (l ++ k) s = emitBytes k (emitBytes l s) := by
  induction l with
  | nil => exact fun _ => rfl
  | cons b l ih => exact fun s => ih (emit b s)

@[simp] theorem literalBytes_length (s : State) (src len : Nat) :
    (literalBytes s src len).length = (literalHeader len).length + len := by
  simp [literalBytes]

/-- A literal's emission is the emission of its bytes, short of the cursor's wrap-around (R90). -/
theorem emitLiteral_eq_emitBytes {s : State} {src len : Nat}
    (h : s.cmp.op.toNat + (literalBytes s src len).length < 2 ^ 32) :
    (emitLiteral src len s).outMem = (emitBytes (literalBytes s src len) s).outMem ∧
    (emitLiteral src len s).cmp.op = (emitBytes (literalBytes s src len) s).cmp.op := by
  rw [literalBytes_length] at h
  have hread : inByte (emitBytes (literalHeader len) s) = inByte s := funext fun x => inByte_emitBytes _ s x
  have hop := emitBytes_op_toNat (bytes := literalHeader len) (s := s) (by omega)
  constructor
  · rw [literalBytes, emitBytes_append, ← moveBytes_eq_emitBytes _ _ _ _ (by omega), ← hread]
    rfl
  · rw [emitLiteral_frame, emitBytes_frame, literalBytes_length, BitVec.ofNat_add, BitVec.add_assoc]

/-! ## What each stage emits -/

/-- The bytes a stage of COMPRESS emits (R80, R82, R85, R95). -/
def stageBytes (stage : CmpStage) (s : State) : List Byte :=
  match stage with
  | .header => varintBytes s.cmp.N.toNat
  | .accept => literalBytes s s.cmp.nextEmit.toNat (s.cmp.ip.toNat - s.cmp.nextEmit.toNat)
  | .extend => copyBytes (s.cmp.ip.toNat - s.cmp.cand.toNat) (extendMatch s).cmp.matched.toNat
  | .tail =>
    if s.cmp.nextEmit.toNat < s.cmp.be.toNat then
      literalBytes s s.cmp.nextEmit.toNat (s.cmp.be.toNat - s.cmp.nextEmit.toNat)
    else []
  | .startChecks | .nextBlock | .probe | .adjacent => []

theorem beginBlock_emits_nothing (size : Nat) (s : State) :
    (beginBlock size s).outMem = s.outMem ∧ (beginBlock size s).cmp.op = s.cmp.op := by
  unfold beginBlock
  dsimp only
  split_ifs <;> exact ⟨rfl, rfl⟩

theorem probe_emits_nothing (s : State) : (probe s).outMem = s.outMem ∧ (probe s).cmp.op = s.cmp.op := by
  rcases Nat.lt_or_ge s.cmp.ipLimit.toNat s.cmp.ip.toNat with hgt | hle
  · rw [probe_of_gt hgt]
    exact ⟨rfl, rfl⟩
  · obtain ⟨slot, cand, -, -, hrecord⟩ := lookupAndRecord_eq s
    cases hmatches : eq32 s s.cmp.ip.toNat (BitVec.ofNat 32 (probeCand s)).toNat with
    | true =>
      rw [probe_of_match hle hmatches, hrecord]
      exact ⟨rfl, rfl⟩
    | false =>
      obtain ⟨ip, skip, -, -, hprobe⟩ := probe_of_no_match hle hmatches
      rw [hprobe, hrecord]
      exact ⟨rfl, rfl⟩

theorem adjacent_emits_nothing (s : State) : (adjacent s).outMem = s.outMem ∧ (adjacent s).cmp.op = s.cmp.op := by
  rcases Nat.lt_or_ge s.cmp.ip.toNat s.cmp.ipLimit.toNat with hlt | hge
  · obtain ⟨slot, cand, -, -, hrecord⟩ := lookupAndRecord_eq (recordPrevious s)
    cases hmatches : eq32 s s.cmp.ip.toNat (BitVec.ofNat 32 (adjacentCand s)).toNat with
    | true =>
      rw [adjacent_eq_of_match hlt hmatches, hrecord]
      exact ⟨rfl, rfl⟩
    | false =>
      obtain ⟨ip, -, hround⟩ := adjacent_eq_of_no_match hlt hmatches
      rw [hround, hrecord]
      exact ⟨rfl, rfl⟩
  · rw [adjacent_of_ge hge]
    exact ⟨rfl, rfl⟩

/-- A stage past the start checks leaves in OUT what the emission of its bytes leaves, and goes on with the cursor past
them (R11, R95). -/
theorem compressStep_emits {s : State} {stage : CmpStage} (hstage : stage ≠ .startChecks)
    (hfits : s.cmp.op.toNat + (stageBytes stage s).length < 2 ^ 32) :
    (compressStep stage s).outMem = (emitBytes (stageBytes stage s) s).outMem ∧
    ((compressStep stage s).phase ≠ .idle →
      (compressStep stage s).cmp.op.toNat = s.cmp.op.toNat + (stageBytes stage s).length) := by
  have hop := emitBytes_op_toNat hfits
  cases stage with
  | startChecks => exact absurd rfl hstage
  | header =>
    rw [compressStep, writeHeader_eq]
    exact ⟨rfl, fun _ => hop⟩
  | nextBlock =>
    rw [compressStep, nextBlock]
    split_ifs
    · obtain ⟨hmem, hcursor⟩ := beginBlock_emits_nothing (min BLOCK_SIZE (s.cmp.N.toNat - s.cmp.bs.toNat)) s
      exact ⟨hmem, fun _ => congrArg BitVec.toNat hcursor⟩
    · exact ⟨rfl, fun hrun => absurd rfl hrun⟩
  | probe =>
    obtain ⟨hmem, hcursor⟩ := probe_emits_nothing s
    exact ⟨hmem, fun _ => congrArg BitVec.toNat hcursor⟩
  | accept =>
    obtain ⟨hmem, hcursor⟩ := emitLiteral_eq_emitBytes hfits
    rw [compressStep, acceptMatch_eq]
    exact ⟨hmem, fun _ => (congrArg BitVec.toNat hcursor).trans hop⟩
  | extend =>
    rw [compressStep, extendAndEmit_eq]
    exact ⟨rfl, fun _ => hop⟩
  | adjacent =>
    obtain ⟨hmem, hcursor⟩ := adjacent_emits_nothing s
    exact ⟨hmem, fun _ => congrArg BitVec.toNat hcursor⟩
  | tail =>
    rw [compressStep, blockTail_eq]
    simp only [stageBytes, tailEmission] at hfits hop ⊢
    split_ifs at hfits hop ⊢
    · obtain ⟨hmem, hcursor⟩ := emitLiteral_eq_emitBytes hfits
      exact ⟨hmem, fun _ => (congrArg BitVec.toNat hcursor).trans hop⟩
    · exact ⟨rfl, fun _ => hop⟩

/-! ## The bound -/

theorem outputInv_startChecks {s : State} (h : s.phase = .cmp .startChecks) : OutputInv s := by
  simp only [OutputInv, h]

theorem outputInv_header {s : State} (h : s.phase = .cmp .header) :
    OutputInv s ↔ lengthsFit s ∧ outBound s.inLen.toNat ≤ s.outCap.toNat := by
  simp only [OutputInv, h]

theorem outputInv_extend {s : State} (h : s.phase = .cmp .extend) :
    OutputInv s ↔ lengthsFit s ∧ outBound s.inLen.toNat ≤ s.outCap.toNat ∧
      s.cmp.op.toNat ≤ emittedBound s.cmp.ip.toNat (s.cmp.bs.toNat / 65536) + 1 := by
  simp only [OutputInv, covered, h]

/-- What the bound says in the other stages of a block: the input is covered up to `nextEmit`. -/
theorem outputInv_block {s : State} {stage : CmpStage} (h : s.phase = .cmp stage)
    (hstage : stage = .probe ∨ stage = .accept ∨ stage = .adjacent ∨ stage = .tail) :
    OutputInv s ↔ lengthsFit s ∧ outBound s.inLen.toNat ≤ s.outCap.toNat ∧
      s.cmp.op.toNat ≤ emittedBound s.cmp.nextEmit.toNat (s.cmp.bs.toNat / 65536) := by
  rcases hstage with rfl | rfl | rfl | rfl <;> simp only [OutputInv, covered, h]

/-- Past the start checks the lengths fit and the worst case is granted (R128). -/
theorem OutputInv.granted {s : State} {stage : CmpStage} (h : OutputInv s) (hphase : s.phase = .cmp stage)
    (hstage : stage ≠ .startChecks) : lengthsFit s ∧ outBound s.inLen.toNat ≤ s.outCap.toNat := by
  cases stage with
  | startChecks => exact absurd rfl hstage
  | header => exact (outputInv_header hphase).1 h
  | nextBlock =>
    obtain ⟨hfit, hroom, -⟩ := (outputInv_nextBlock hphase).1 h
    exact ⟨hfit, hroom⟩
  | extend =>
    obtain ⟨hfit, hroom, -⟩ := (outputInv_extend hphase).1 h
    exact ⟨hfit, hroom⟩
  | probe | accept | adjacent | tail =>
    obtain ⟨hfit, hroom, -⟩ := (outputInv_block hphase (by simp)).1 h
    exact ⟨hfit, hroom⟩

/-- A literal of 61 bytes or more pays for its extension bytes (R90, R97). -/
theorem literalHeader_length_le_div (len : Nat) : (literalHeader len).length ≤ 1 + len / 61 := by
  rcases Nat.lt_or_ge 60 len with hlong | hshort
  · rcases Nat.lt_or_ge 255 len with hlonger | hle
    · rw [literalHeader_of_ge_256 hlonger]
      show 3 ≤ _
      omega
    · rw [literalHeader_of_le_255 hlong hle]
      show 2 ≤ _
      omega
  · rw [literalHeader_of_le_60 hshort]
    show 1 ≤ _
    omega

/-- The worst case leaves room for the header, the covered input and a tail literal for each block (R97). -/
theorem emittedBound_lt_outBound {c b n : Nat} (hc : c ≤ n) (hb : b ≤ (n + 65535) / 65536) :
    emittedBound c b < outBound n := by
  unfold emittedBound outBound
  omega

/-- What R97 allows once a stage past the start checks has emitted its bytes. -/
def boundAfter (stage : CmpStage) (s : State) : Nat :=
  match stage with
  | .startChecks | .header => emittedBound 0 0
  | .nextBlock => emittedBound s.cmp.bs.toNat ((s.cmp.bs.toNat + 65535) / 65536)
  | .probe | .adjacent => emittedBound s.cmp.nextEmit.toNat (s.cmp.bs.toNat / 65536)
  | .accept => emittedBound s.cmp.ip.toNat (s.cmp.bs.toNat / 65536) + 1
  | .extend => emittedBound (extendMatch s).cmp.ip.toNat (s.cmp.bs.toNat / 65536)
  | .tail => emittedBound s.cmp.be.toNat (s.cmp.bs.toNat / 65536 + 1)

/-- A stage that the bound of R97 holds before emits within the bound after it: a literal's header is paid by its length
or by the tail's three bytes, and a copy takes fewer bytes than it covers (R90, R93, R97). -/
theorem op_le_boundAfter {s : State} {stage : CmpStage} (hphase : s.phase = .cmp stage) (hstage : stage ≠ .startChecks)
    (hinv : CompressInv s) (hout : OutputInv s) :
    s.cmp.op.toNat + (stageBytes stage s).length ≤ boundAfter stage s := by
  cases stage with
  | startChecks => exact absurd rfl hstage
  | header =>
    obtain ⟨-, hop⟩ := (compressInv_header hphase).1 hinv
    have := varintBytes_length_le s.cmp.N.toNat
    simp only [stageBytes, boundAfter, emittedBound, hop]
    simpa using this
  | nextBlock =>
    obtain ⟨-, -, hop⟩ := (outputInv_nextBlock hphase).1 hout
    exact hop
  | probe | adjacent =>
    obtain ⟨-, -, hop⟩ := (outputInv_block hphase (by simp)).1 hout
    exact hop
  | accept =>
    obtain ⟨-, -, hop⟩ := (outputInv_block hphase (by simp)).1 hout
    obtain ⟨-, hemit⟩ := (compressInv_accept hphase).1 hinv
    have hheader := literalHeader_length_le_div (s.cmp.ip.toNat - s.cmp.nextEmit.toNat)
    simp only [stageBytes, boundAfter, literalBytes_length, emittedBound] at hop ⊢
    omega
  | extend =>
    obtain ⟨-, -, hop⟩ := (outputInv_extend hphase).1 hout
    obtain ⟨hmatch, -⟩ := (compressInv_extend hphase).1 hinv
    obtain ⟨m, hm, hmin, -, hip, -⟩ := extendIsMaximal s hmatch
    have hcopy := copyBytes_length_lt (s.cmp.ip.toNat - s.cmp.cand.toNat) hmin
    simp only [stageBytes, boundAfter, emittedBound, hm, hip] at hop ⊢
    omega
  | tail =>
    obtain ⟨-, -, hop⟩ := (outputInv_block hphase (by simp)).1 hout
    obtain ⟨-, hend⟩ := ((compressInv_tail hphase).1 hinv).nextEmit_bounds
    simp only [stageBytes, boundAfter, emittedBound] at hop ⊢
    split_ifs with hrest
    · have hheader := literalHeader_length_le (s.cmp.be.toNat - s.cmp.nextEmit.toNat)
      rw [literalBytes_length]
      omega
    · rw [List.length_nil]
      omega

theorem boundAfter_le_outBound {s : State} {stage : CmpStage} (hphase : s.phase = .cmp stage)
    (hstage : stage ≠ .startChecks) (hinv : CompressInv s) : boundAfter stage s ≤ outBound s.inLen.toNat := by
  have block (hblock : BlockInv s) : s.cmp.be.toNat ≤ s.inLen.toNat ∧
      s.cmp.bs.toNat / 65536 + 1 ≤ (s.inLen.toNat + 65535) / 65536 ∧ s.cmp.nextEmit.toNat ≤ s.inLen.toNat := by
    obtain ⟨hN, hbs, -⟩ := id hblock
    obtain ⟨-, -, hbe⟩ := hblock.bounds
    obtain ⟨-, hend⟩ := hblock.nextEmit_bounds
    rw [hN] at hbs hbe
    omega
  cases stage with
  | startChecks => exact absurd rfl hstage
  | header => exact Nat.le_of_lt (emittedBound_lt_outBound (Nat.zero_le _) (Nat.zero_le _))
  | nextBlock =>
    obtain ⟨hN, hbs, -⟩ := (compressInv_nextBlock hphase).1 hinv
    rw [hN] at hbs
    exact Nat.le_of_lt (emittedBound_lt_outBound hbs (by omega))
  | probe =>
    obtain ⟨hsearch, -⟩ := (compressInv_probe hphase).1 hinv
    obtain ⟨-, hblocks, hemit⟩ := block hsearch.1
    exact Nat.le_of_lt (emittedBound_lt_outBound hemit (by omega))
  | adjacent =>
    obtain ⟨hsearch, -⟩ := (compressInv_adjacent hphase).1 hinv
    obtain ⟨-, hblocks, hemit⟩ := block hsearch.1
    exact Nat.le_of_lt (emittedBound_lt_outBound hemit (by omega))
  | accept =>
    obtain ⟨⟨hsearch, hlimit, -⟩, -⟩ := (compressInv_accept hphase).1 hinv
    have := hsearch.ipLimit_le_be
    obtain ⟨hbe, hblocks, -⟩ := block hsearch.1
    exact emittedBound_lt_outBound (by omega) (by omega)
  | extend =>
    obtain ⟨hmatch, -⟩ := (compressInv_extend hphase).1 hinv
    obtain ⟨m, -, -, -, hip, hend, -⟩ := extendIsMaximal s hmatch
    obtain ⟨hbe, hblocks, -⟩ := block hmatch.1.1
    exact Nat.le_of_lt (emittedBound_lt_outBound (by omega) (by omega))
  | tail =>
    obtain ⟨hbe, hblocks, -⟩ := block ((compressInv_tail hphase).1 hinv)
    exact Nat.le_of_lt (emittedBound_lt_outBound hbe hblocks)

/-- A stage of COMPRESS emits within OUT_CAP (R38, R97). -/
theorem emission_fits {s : State} {stage : CmpStage} (hphase : s.phase = .cmp stage) (hstage : stage ≠ .startChecks)
    (hinv : CompressInv s) (hout : OutputInv s) :
    s.cmp.op.toNat + (stageBytes stage s).length ≤ s.outCap.toNat :=
  (op_le_boundAfter hphase hstage hinv hout).trans
    ((boundAfter_le_outBound hphase hstage hinv).trans (hout.granted hphase hstage).2)

/-! ## The bound is kept -/

theorem outputInv_beginBlock {s : State} (hphase : s.phase = .cmp .nextBlock) (hinv : CompressInv s)
    (hout : OutputInv s) (hbs : s.cmp.bs.toNat < s.cmp.N.toNat) : OutputInv (nextBlock s) := by
  obtain ⟨hfit, hroom, hop⟩ := (outputInv_nextBlock hphase).1 hout
  obtain ⟨-, -, haligned⟩ := (compressInv_nextBlock hphase).1 hinv
  have hblocks : (s.cmp.bs.toNat + 65535) / 65536 = s.cmp.bs.toNat / 65536 := by
    have hzero : s.cmp.bs.toNat % 65536 = 0 := haligned.resolve_right fun heq => by rw [heq] at hbs; omega
    omega
  rw [hblocks] at hop
  rw [nextBlock_of_lt hbs]
  rcases Nat.lt_or_ge (nextSize s) 15 with hshort | hmargin
  · rw [beginBlock_of_short hshort]
    exact (outputInv_block (stage := .tail) rfl (by simp)).2 ⟨hfit, hroom, hop⟩
  · rw [beginBlock_of_margin hmargin]
    exact (outputInv_block (stage := .probe) rfl (by simp)).2 ⟨hfit, hroom, hop⟩

/-- A step past the start checks that goes on leaves what the invariant asks of every stage: the lengths and the room
granted, and the output cursor within the bound for what is covered now. -/
theorem compressStep_op_le {s : State} {stage : CmpStage} (hphase : s.phase = .cmp stage)
    (hstage : stage ≠ .startChecks) (hinv : CompressInv s) (hout : OutputInv s) (hrun : (compressStep stage s).phase ≠ .idle) :
    lengthsFit (compressStep stage s) ∧
    outBound (compressStep stage s).inLen.toNat ≤ (compressStep stage s).outCap.toNat ∧
    (compressStep stage s).cmp.op.toNat ≤ boundAfter stage s := by
  have hfits := (emission_fits hphase hstage hinv hout).trans_lt s.outCap.isLt
  have hop := ((compressStep_emits hstage hfits).2 hrun).trans_le (op_le_boundAfter hphase hstage hinv hout)
  rw [← and_assoc]
  refine ⟨?_, hop⟩
  rw [engineStep_frame (engineStep_cmp hphase)]
  exact hout.granted hphase hstage

theorem outputInv_startCompress (s : State) : OutputInv (startCompress s) := by
  rcases startCompress_cases s with ⟨e, d, -, hfail⟩ | ⟨hfit, hroom, hstart⟩
  · rw [hfail]
    exact outputInv_idle rfl
  · rw [hstart]
    exact (outputInv_header rfl).2 ⟨hfit, hroom⟩

theorem outputInv_header_step {s : State} (hphase : s.phase = .cmp .header) (hinv : CompressInv s)
    (hout : OutputInv s) : OutputInv (compressStep .header s) := by
  have hnext : (compressStep .header s).phase = .cmp .nextBlock ∧ (compressStep .header s).cmp.bs = 0 := by
    rw [compressStep, writeHeader_eq]
    exact ⟨rfl, rfl⟩
  obtain ⟨hnext, hbs⟩ := hnext
  rw [outputInv_nextBlock hnext, hbs]
  exact compressStep_op_le hphase (by decide) hinv hout (by simp [hnext])

theorem outputInv_probe_step {s : State} (hphase : s.phase = .cmp .probe) (hinv : CompressInv s)
    (hout : OutputInv s) : OutputInv (probe s) := by
  have hle := compressStep_op_le hphase (by decide) hinv hout
  simp only [compressStep, boundAfter] at hle
  rcases probe_cases hinv hphase with ⟨-, hnext, hcmp⟩ | ⟨-, hnext, slot, cand, hcmp⟩ |
    ⟨-, hnext, slot, cand, ip, skip, hcmp, -⟩ <;>
  · have hbound := hle (by simp [hnext])
    rw [outputInv_block hnext (by simp)]
    simpa only [hcmp] using hbound

theorem outputInv_accept_step {s : State} (hphase : s.phase = .cmp .accept) (hinv : CompressInv s)
    (hout : OutputInv s) : OutputInv (compressStep .accept s) := by
  have hnext : (compressStep .accept s).phase = .cmp .extend ∧ (compressStep .accept s).cmp.ip = s.cmp.ip ∧
      (compressStep .accept s).cmp.bs = s.cmp.bs := by
    rw [compressStep, acceptMatch_eq]
    exact ⟨rfl, rfl, rfl⟩
  obtain ⟨hnext, hip, hbs⟩ := hnext
  rw [outputInv_extend hnext, hip, hbs]
  exact compressStep_op_le hphase (by decide) hinv hout (by simp [hnext])

theorem outputInv_extend_step {s : State} (hphase : s.phase = .cmp .extend) (hinv : CompressInv s)
    (hout : OutputInv s) : OutputInv (compressStep .extend s) := by
  have hnext : (compressStep .extend s).phase = .cmp .adjacent ∧
      (compressStep .extend s).cmp.nextEmit = (extendMatch s).cmp.ip ∧
      (compressStep .extend s).cmp.bs = s.cmp.bs := by
    rw [compressStep, extendAndEmit_eq]
    exact ⟨rfl, rfl, rfl⟩
  obtain ⟨hnext, hemit, hbs⟩ := hnext
  rw [outputInv_block hnext (by simp), hemit, hbs]
  exact compressStep_op_le hphase (by decide) hinv hout (by simp [hnext])

/-- From ADJACENT, where the input is covered up to `ip`, a match at `ip` is extended or the search goes on. -/
theorem outputInv_adjacent_step {s : State} (hphase : s.phase = .cmp .adjacent) (hinv : CompressInv s)
    (hout : OutputInv s) : OutputInv (adjacent s) := by
  obtain ⟨-, hemit, -⟩ := (compressInv_adjacent hphase).1 hinv
  have hle := compressStep_op_le hphase (by decide) hinv hout
  simp only [compressStep, boundAfter] at hle
  rcases adjacent_cases s with ⟨-, hnext, hcmp⟩ | ⟨-, hnext, slot, cand, hcmp⟩ |
    ⟨-, hnext, slot, cand, ip, skip, hcmp, -⟩
  · have hbound := hle (by simp [hnext])
    rw [outputInv_block hnext (by simp)]
    simpa only [hcmp] using hbound
  · obtain ⟨hfit, hroom, hop⟩ := hle (by simp [hnext])
    rw [outputInv_extend hnext]
    simp only [hcmp, hemit] at hop ⊢
    exact ⟨hfit, hroom, Nat.le_succ_of_le hop⟩
  · have hbound := hle (by simp [hnext])
    rw [outputInv_block hnext (by simp)]
    simpa only [hcmp] using hbound

/-- TAIL covers the block, whose tail literal is counted (R85, R97). -/
theorem outputInv_tail_step {s : State} (hphase : s.phase = .cmp .tail) (hinv : CompressInv s)
    (hout : OutputInv s) : OutputInv (compressStep .tail s) := by
  have hblock := (compressInv_tail hphase).1 hinv
  have hstart := hblock.next_start_toNat
  obtain ⟨-, hlow, haligned, hsize, hbe, -⟩ := hblock
  have hnext : (compressStep .tail s).phase = .cmp .nextBlock ∧
      (compressStep .tail s).cmp.bs.toNat = s.cmp.be.toNat := by
    rw [compressStep, blockTail_eq]
    exact ⟨rfl, hstart⟩
  obtain ⟨hnext, hbs⟩ := hnext
  obtain ⟨hfit, hroom, hop⟩ := compressStep_op_le hphase (by decide) hinv hout (by simp [hnext])
  refine (outputInv_nextBlock hnext).2 ⟨hfit, hroom, hop.trans ?_⟩
  rw [hbs]
  simp only [boundAfter, emittedBound]
  omega

theorem outputInv_compressStep {s : State} {stage : CmpStage} (hphase : s.phase = .cmp stage) (hinv : CompressInv s)
    (hout : OutputInv s) : OutputInv (compressStep stage s) := by
  cases stage with
  | startChecks => exact outputInv_startCompress s
  | header => exact outputInv_header_step hphase hinv hout
  | nextBlock =>
    rcases Nat.lt_or_ge s.cmp.bs.toNat s.cmp.N.toNat with hbs | hend
    · exact outputInv_beginBlock hphase hinv hout hbs
    · rw [compressStep, nextBlock, if_neg (Nat.not_lt.2 hend)]
      exact outputInv_idle rfl
  | probe => exact outputInv_probe_step hphase hinv hout
  | accept => exact outputInv_accept_step hphase hinv hout
  | extend => exact outputInv_extend_step hphase hinv hout
  | adjacent => exact outputInv_adjacent_step hphase hinv hout
  | tail => exact outputInv_tail_step hphase hinv hout

/-! ## What a step writes to OUT and to HT -/

theorem lookup_emitBytes_other (bytes : List Byte) : ∀ {s : State} {a : Nat},
    s.cmp.op.toNat + bytes.length < 2 ^ 32 → (a < s.cmp.op.toNat ∨ s.cmp.op.toNat + bytes.length ≤ a) →
      Table.lookup (emitBytes bytes s).outMem a = Table.lookup s.outMem a := by
  induction bytes with
  | nil => exact fun _ _ => rfl
  | cons b bytes ih =>
    intro s a hfits ha
    rw [List.length_cons] at hfits ha
    have hop : (emit b s).cmp.op.toNat = s.cmp.op.toNat + 1 := emit_op_toNat b (by omega)
    rw [emitBytes, ih (by omega) (by omega), emit_outMem, Table.lookup_write_other _ _ (by omega)]

/-- OUT may have changed below OUT_CAP alone, and only once the lengths are known to fit the memories (R38). -/
def WritesBelowOutCap (s t : State) : Prop :=
  t.outMem = s.outMem ∨
  (lengthsFit s ∧ ∀ a, s.outCap.toNat ≤ a → Table.lookup t.outMem a = Table.lookup s.outMem a)

/-- A failure of DecodeLoop sets bytes of OUT below `L` (R120). -/
theorem FailsWithL.writesBelowOutCap {s t : State} (h : FailsWithL s t) (hfit : lengthsFit s)
    (hL : s.dec.L.toNat ≤ s.outCap.toNat) : WritesBelowOutCap s t := by
  obtain ⟨e, d, hd, rfl⟩ := h
  refine .inr ⟨hfit, fun a ha => ?_⟩
  rw [raise_outMem, outAfterFailure]
  split_ifs
  · rw [Table.lookup_fill, if_neg (by simp only [hd]; omega)]
  · rfl

theorem FailsBeforeWrite.outMem {s t : State} (h : FailsBeforeWrite s t) : t.outMem = s.outMem := by
  obtain ⟨e, d, he, rfl⟩ := h
  rw [raise_outMem, outAfterFailure, he]
  rfl

theorem engineStep_writesBelowOutCap {s t : State} (hparser : ParserInv s) (hinv : CompressInv s) (hout : OutputInv s)
    (h : engineStep s = .next t) : WritesBelowOutCap s t := by
  cases hphase : s.phase with
  | idle =>
    obtain rfl : s = t := Host.Outcome.next.inj ((engineStep_idle hphase).symm.trans h)
    exact .inl rfl
  | cmp stage =>
    by_cases hstage : stage = .startChecks
    · subst hstage
      obtain rfl := Host.Outcome.next.inj ((engineStep_cmp hphase).symm.trans h)
      left
      rcases startCompress_cases s with hfail | ⟨-, -, hstart⟩
      · exact hfail.outMem
      · rw [compressStep, hstart]
    · obtain rfl := Host.Outcome.next.inj ((engineStep_cmp hphase).symm.trans h)
      have hroom := emission_fits hphase hstage hinv hout
      have hfits := hroom.trans_lt s.outCap.isLt
      refine .inr ⟨(hout.granted hphase hstage).1, fun a ha => ?_⟩
      rw [(compressStep_emits hstage hfits).1, lookup_emitBytes_other _ hfits (.inr (hroom.trans ha))]
  | dcmp stage =>
    cases stage with
    | startChecks =>
      obtain rfl := Host.Outcome.next.inj ((engineStep_startDecompress hphase).symm.trans h)
      left
      rcases startDecompress_cases s with hfail | ⟨-, hstart⟩
      · exact hfail.outMem
      · rw [hstart]
    | readHeader =>
      left
      rcases readHeader_cases hphase h with hfail | ⟨g, -, -, -, rfl | ⟨-, rfl⟩⟩
      · exact hfail.outMem
      · rfl
      · rfl
    | decodeLoop =>
      obtain ⟨hfit, -, -, hL⟩ := (parserInv_decodeLoop hphase).1 hparser
      rcases decodeLoop_cases hphase h with ⟨-, rfl⟩ | hfail | ⟨-, -, -, -, -, -, hkept⟩
      · exact .inl rfl
      · exact hfail.writesBelowOutCap hfit hL
      · exact .inr ⟨hfit, fun a ha => hkept a (hL.trans ha)⟩

/-- Settles O55: what lies at OUT_CAP or above reads the same entry in the same epoch. -/
theorem engineWritesBelowOutCap : Obligations.EngineWritesBelowOutCap := by
  unfold Obligations.EngineWritesBelowOutCap
  rintro s t ⟨-, hparser, hinv, hout, -⟩ h a ha
  have hepoch : t.epoch = s.epoch := by rw [engineStep_frame h]
  have hentry : Table.lookup t.outMem a = Table.lookup s.outMem a := by
    rcases engineStep_writesBelowOutCap hparser hinv hout h with hkept | ⟨-, hkept⟩
    · rw [hkept]
    · exact hkept a ha
  rw [outByte, outByte, outByteOf, outByteOf, hentry, hepoch]

/-- Nothing is listed at `n` or above exactly when every lookup there finds nothing. -/
theorem Table.below_iff {α : Type} (m : Table α) (n : Nat) :
    Table.below m n ↔ ∀ a, n ≤ a → Table.lookup m a = none := by
  unfold Table.below
  induction m with
  | nil => simp
  | cons c m ih =>
    obtain ⟨b, w⟩ := c
    rw [List.forall_mem_cons, ih]
    constructor
    · intro ⟨hb, hm⟩ a ha
      rw [Table.lookup_cons, if_neg (by omega)]
      exact hm a ha
    · intro h
      have hb : b < n := by
        by_contra hge
        have := h b (Nat.not_lt.1 hge)
        rw [Table.lookup_cons, if_pos rfl] at this
        cases this
      refine ⟨hb, fun a ha => ?_⟩
      have := h a ha
      rwa [Table.lookup_cons, if_neg (by omega)] at this

theorem below_engineStep_outMem {s t : State} (h : RunInv s) (hstep : engineStep s = .next t) :
    Table.below t.outMem s.platform.outSize.toNat := by
  obtain ⟨-, hparser, hinv, hout, hbelow, -⟩ := h
  rcases engineStep_writesBelowOutCap hparser hinv hout hstep with hkept | ⟨⟨-, hfit⟩, hkept⟩
  · rwa [hkept]
  · rw [Table.below_iff] at hbelow ⊢
    exact fun a ha => (hkept a (hfit.trans ha)).trans (hbelow a ha)

theorem below_lookupAndRecord {bound : Nat} {s : State} (h : SearchInv bound s) (hbelow : Table.below s.ht 16384) :
    Table.below (lookupAndRecord s).ht 16384 := by
  rw [lookupAndRecord_ht]
  exact Table.below_write hbelow (h.fingerprint_fits _) _

theorem probe_ht (s : State) : (probe s).ht = s.ht ∨ (probe s).ht = (lookupAndRecord s).ht := by
  unfold probe
  dsimp only
  split_ifs
  · exact .inl rfl
  · exact .inr rfl
  · exact .inr rfl

theorem adjacent_ht (s : State) :
    (adjacent s).ht = s.ht ∨ (adjacent s).ht = (lookupAndRecord (recordPrevious s)).ht := by
  unfold adjacent
  dsimp only
  split_ifs
  · exact .inl rfl
  · exact .inr rfl
  · exact .inr rfl

theorem below_clearedHt {s : State} {size : Nat} (hsize : 1 ≤ size) (hbelow : Table.below s.ht 16384) :
    Table.below (clearedHt size s) 16384 := by
  have hpow : 2 ^ tableBits size ≤ 2 ^ 14 := Nat.pow_le_pow_right (by decide) (tableBits_le hsize)
  rw [Table.below_iff] at hbelow ⊢
  intro a ha
  rw [lookup_clearedHt, if_neg (by omega)]
  exact hbelow a ha

theorem below_compressStep_ht {s : State} {stage : CmpStage} (hphase : s.phase = .cmp stage) (hinv : CompressInv s)
    (hbelow : Table.below s.ht 16384) : Table.below (compressStep stage s).ht 16384 := by
  cases stage with
  | startChecks =>
    rcases startCompress_cases s with ⟨e, d, -, hfail⟩ | ⟨-, -, hstart⟩
    · rwa [compressStep, hfail]
    · rwa [compressStep, hstart]
  | header => rwa [compressStep, writeHeader_eq]
  | nextBlock =>
    rcases Nat.lt_or_ge s.cmp.bs.toNat s.cmp.N.toNat with hbs | hend
    · have hsize : 1 ≤ nextSize s := by
        unfold nextSize
        omega
      rw [compressStep, nextBlock_of_lt hbs]
      rcases Nat.lt_or_ge (nextSize s) 15 with hshort | hmargin
      · rw [beginBlock_of_short hshort]
        exact below_clearedHt hsize hbelow
      · rw [beginBlock_of_margin hmargin]
        exact below_clearedHt hsize hbelow
    · rwa [compressStep, nextBlock, if_neg (Nat.not_lt.2 hend)]
  | probe =>
    obtain ⟨hsearch, -⟩ := (compressInv_probe hphase).1 hinv
    rw [compressStep]
    rcases probe_ht s with hht | hht <;> rw [hht]
    · exact hbelow
    · exact below_lookupAndRecord hsearch hbelow
  | accept => rwa [compressStep, acceptMatch_eq]
  | extend => rwa [compressStep, extendAndEmit_eq]
  | adjacent =>
    obtain ⟨hsearch, -⟩ := (compressInv_adjacent hphase).1 hinv
    rw [compressStep]
    rcases adjacent_ht s with hht | hht <;> rw [hht]
    · exact hbelow
    · rw [lookupAndRecord_ht]
      exact Table.below_write (Table.below_write hbelow (hsearch.fingerprint_fits _) _) (hsearch.fingerprint_fits _) _
  | tail => rwa [compressStep, blockTail_eq]

/-! ## The whole invariant -/

theorem runInv_engineStep {s t : State} (h : RunInv s) (hstep : engineStep s = .next t) : RunInv t := by
  have hplatform : t.platform = s.platform := by rw [engineStep_frame hstep]
  have hbelow := below_engineStep_outMem h hstep
  obtain ⟨hwf, hparser, hinv, hout, -, hht⟩ := h
  refine ⟨wf_engineStep hwf hstep, parserInv_engineStep hparser hstep, compressInv_engineStep hinv hstep, ?_,
    by rwa [hplatform], ?_⟩
  · cases hphase : s.phase with
    | idle =>
      obtain rfl : s = t := Host.Outcome.next.inj ((engineStep_idle hphase).symm.trans hstep)
      exact hout
    | cmp stage =>
      obtain rfl := Host.Outcome.next.inj ((engineStep_cmp hphase).symm.trans hstep)
      exact outputInv_compressStep hphase hinv hout
    | dcmp stage =>
      rcases decompress_cases hphase hstep with ⟨e, d, rfl⟩ | rfl | ⟨⟨next, hnext⟩, -⟩
      · exact outputInv_idle rfl
      · exact outputInv_idle rfl
      · exact outputInv_dcmp hnext
  · cases hphase : s.phase with
    | idle =>
      obtain rfl : s = t := Host.Outcome.next.inj ((engineStep_idle hphase).symm.trans hstep)
      exact hht
    | cmp stage =>
      obtain rfl := Host.Outcome.next.inj ((engineStep_cmp hphase).symm.trans hstep)
      exact below_compressStep_ht hphase hinv hht
    | dcmp stage =>
      obtain ⟨hkept, -⟩ := unitsStayApart
      rwa [hkept s t stage hphase hstep]

/-- In IDLE the invariant is the legal state and the capacities of OUT and HT. -/
theorem runInv_of_idle {s : State} (hwf : Wf s) (hidle : s.phase = .idle)
    (hout : Table.below s.outMem s.platform.outSize.toNat) (hht : Table.below s.ht 16384) : RunInv s :=
  ⟨hwf, parserInv_idle hidle, compressInv_idle hidle, outputInv_idle hidle, hout, hht⟩

theorem runInv_acceptStart {s : State} (h : RunInv s) (op : Bool) : RunInv (acceptStart op s) := by
  obtain ⟨hwf, -, -, -, hout, hht⟩ := h
  refine ⟨wf_acceptStart hwf op, ?_, compressInv_acceptStart op s, ?_, hout, hht⟩
  · cases op
    · exact parserInv_cmp rfl
    · exact parserInv_startChecks rfl
  · cases op
    · exact outputInv_startChecks rfl
    · exact outputInv_dcmp rfl

theorem runInv_hostWrote {s t : State} (h : RunInv s) (hidle : s.status.busy = false) (hwrote : HostWrote s t) :
    RunInv t := by
  obtain ⟨hwf, -, -, -, hout, hht⟩ := h
  refine runInv_of_idle (wf_hostWrote hwf hwrote) (hwrote.idle (hwf.idle_of_not_busy hidle)) ?_ ?_
  · obtain ⟨hframe, -, hout'⟩ := hwrote
    have hplatform : t.platform = s.platform := by rw [hframe]
    rw [hplatform]
    rcases hout' with hkept | ⟨x, v, hx, hwritten⟩
    · rwa [hkept]
    · rw [hwritten]
      exact Table.below_write hout hx v
  · rw [hwrote.1]
    exact hht

/-- Settles O53: nothing is listed, and no operation is under way. -/
theorem runInvAtReset : Obligations.RunInvAtReset := by
  unfold Obligations.RunInvAtReset
  refine runInv_of_idle ⟨by simp [statusLegal, State.reset], by simp [busyMatchesPhase, State.reset], ?_, Table.wf_nil,
    Table.wf_nil, Table.wf_nil, by simp [Table.below, State.reset]⟩ rfl (by simp [Table.below, State.reset])
    (by simp [Table.below, State.reset])
  simp [platformLegal, State.reset, resetPlatform]

/-- Settles O52: the engine, a start, a write of the idle host and reset each keep the whole invariant. -/
theorem runInvKept : Obligations.RunInvKept := by
  unfold Obligations.RunInvKept
  intro s t hs h
  exact step_keeps (P := RunInv) (fun _ _ _ _ _ hu => hu) (fun _ _ hu hstep => runInv_engineStep hu hstep)
    (fun _ op hu _ => runInv_acceptStart hu op) (fun _ _ hu hidle hwrote => runInv_hostWrote hu hidle hwrote)
    (fun _ ⟨hwf, _⟩ => runInv_of_idle (wf_resetNow hwf) rfl (fun _ hc => by cases hc) (fun _ hc => by cases hc)) hs h

/-- A COMPRESS step that ends in Done ends with `OUT_LEN = op`, all of the input covered (R95, R97). -/
theorem compress_end_within_outBound {s t : State} {stage : CmpStage} (hinv : CompressInv s) (hout : OutputInv s)
    (hphase : s.phase = .cmp stage) (h : engineStep s = .next t) (hidle : t.phase = .idle)
    (hok : t.status.err = false) : stage = .nextBlock ∧ t = endDone { s with outLen := s.cmp.op } ∧
      s.cmp.op.toNat ≤ outBound s.inLen.toNat := by
  rcases compress_cases hphase h with ⟨-, e, d, -, rfl⟩ | ⟨rfl, -, rfl⟩ | ⟨⟨next, hnext⟩, -⟩
  · cases hok
  · exact ⟨rfl, rfl, (op_le_boundAfter hphase (by simp) hinv hout).trans
      (boundAfter_le_outBound hphase (by simp) hinv)⟩
  · rw [hnext] at hidle
    cases hidle

/-- Settles O54: Done is legal with ERR = 0 and BUSY = 0 alone, so the step is the end of the block loop. -/
theorem compressedSizeBound : Obligations.CompressedSizeBound := by
  unfold Obligations.CompressedSizeBound
  intro s t stage ⟨hwf, _, hinv, hout, _⟩ hphase h hdone
  obtain ⟨⟨hbusy, hexclusive, -⟩, hmatch, -⟩ := wf_engineStep hwf h
  have hidle : t.phase = .idle := by
    by_contra hrun
    rw [hmatch.2 hrun, hdone] at hbusy
    simp at hbusy
  rw [hdone] at hexclusive
  obtain ⟨-, rfl, hbound⟩ := compress_end_within_outBound hinv hout hphase h hidle (by simpa using hexclusive)
  exact hbound

end Sys2Proof.Machine
end

section
/-! SUPPORT. That an operation ends (45_host_commands.md R132): a measure of the steps left, which every engine step of
a running operation lowers, and runs up to IDLE. -/

namespace Sys2Proof.Machine

/-! ## The steps left -/

/-- A bound on the steps of COMPRESS from the head of the block loop at `b` to the end: four for each byte left. -/
def blockSteps (s : State) (b : Nat) : Nat := 4 * (s.inLen.toNat - b) + 1

/-- A bound on the engine steps to IDLE, by how far the operation has come (R132; log entry 11). -/
def stepsLeft (s : State) : Nat :=
  match s.phase with
  | .idle => 0
  | .dcmp .startChecks => s.inLen.toNat + 2
  | .dcmp .readHeader | .dcmp .decodeLoop => s.inLen.toNat - s.dec.pos.toNat + 1
  | .cmp .startChecks => 4 * s.inLen.toNat + 3
  | .cmp .header => 4 * s.inLen.toNat + 2
  | .cmp .nextBlock => blockSteps s s.cmp.bs.toNat
  | .cmp .probe | .cmp .adjacent => blockSteps s s.cmp.be.toNat + 2 * (s.cmp.be.toNat - s.cmp.ip.toNat) + 2
  | .cmp .accept => blockSteps s s.cmp.be.toNat + 2 * (s.cmp.be.toNat - s.cmp.ip.toNat) + 1
  | .cmp .extend => blockSteps s s.cmp.be.toNat + 2 * (s.cmp.be.toNat - s.cmp.ip.toNat)
  | .cmp .tail => blockSteps s s.cmp.be.toNat + 1

theorem stepsLeft_idle {s : State} (h : s.phase = .idle) : stepsLeft s = 0 := by simp only [stepsLeft, h]

theorem BlockInv.in_input {s : State} (h : BlockInv s) :
    s.cmp.bs.toNat < s.inLen.toNat ∧ s.cmp.bs.toNat < s.cmp.be.toNat ∧ s.cmp.be.toNat ≤ s.inLen.toNat := by
  obtain ⟨-, -, hbe⟩ := h.bounds
  obtain ⟨hN, hbs, -, hS, hend, -⟩ := h
  rw [hN] at hbs hbe hS
  omega

theorem stepsLeft_le {s : State} (h : CompressInv s) : stepsLeft s ≤ 4 * s.inLen.toNat + 4 := by
  cases hphase : s.phase with
  | idle => rw [stepsLeft_idle hphase]; omega
  | dcmp stage => cases stage <;> simp only [stepsLeft, hphase] <;> omega
  | cmp stage =>
    cases stage <;> simp only [stepsLeft, hphase, blockSteps]
    case startChecks | header | nextBlock | tail => omega
    case probe =>
      obtain ⟨hsearch, hemit, -⟩ := (compressInv_probe hphase).1 h
      have := hsearch.1.in_input
      have := hsearch.1.nextEmit_bounds
      omega
    case accept =>
      obtain ⟨⟨hsearch, -, hlow, hcand, -⟩, -⟩ := (compressInv_accept hphase).1 h
      have := hsearch.1.in_input
      omega
    case extend =>
      obtain ⟨⟨hsearch, -, hlow, hcand, -⟩, -⟩ := (compressInv_extend hphase).1 h
      have := hsearch.1.in_input
      omega
    case adjacent =>
      obtain ⟨hsearch, -, hlow, -⟩ := (compressInv_adjacent hphase).1 h
      have := hsearch.1.in_input
      omega

theorem stepsLeft_nextBlock_lt {s : State} (hphase : s.phase = .cmp .nextBlock) (h : CompressInv s) :
    stepsLeft (nextBlock s) < stepsLeft s := by
  obtain ⟨hN, -⟩ := (compressInv_nextBlock hphase).1 h
  have hleft : stepsLeft s = blockSteps s s.cmp.bs.toNat := by simp only [stepsLeft, hphase]
  rcases Nat.lt_or_ge s.cmp.bs.toNat s.cmp.N.toNat with hbs | hend
  · obtain ⟨-, hbe, -⟩ := blockRegs_toNat hbs
    have hsize : s.cmp.bs.toNat + nextSize s ≤ s.inLen.toNat ∧ 1 ≤ nextSize s := by
      rw [hN] at hbs
      rw [nextSize, hN]
      omega
    rw [nextBlock_of_lt hbs, hleft]
    rcases Nat.lt_or_ge (nextSize s) 15 with hshort | hmargin
    · rw [beginBlock_of_short hshort]
      simp only [stepsLeft, blockSteps, hbe]
      omega
    · obtain ⟨hip, -⟩ := searchRegs_toNat hbs
      have hbe' : (searchRegs (nextSize s) s).be.toNat = s.cmp.bs.toNat + nextSize s := hbe
      rw [beginBlock_of_margin hmargin]
      simp only [stepsLeft, blockSteps, hbe', hip]
      omega
  · rw [nextBlock, if_neg (Nat.not_lt.2 hend), stepsLeft_idle rfl, hleft]
    exact Nat.succ_pos _

theorem stepsLeft_compressStep_lt {s : State} {stage : CmpStage} (hphase : s.phase = .cmp stage) (h : CompressInv s) :
    stepsLeft (compressStep stage s) < stepsLeft s := by
  have hin : (compressStep stage s).inLen = s.inLen := by rw [engineStep_frame (engineStep_cmp hphase)]
  cases stage with
  | startChecks =>
    rcases startCompress_cases s with ⟨e, d, -, hfail⟩ | ⟨-, -, hstart⟩
    · rw [compressStep, hfail, stepsLeft_idle rfl]
      simp only [stepsLeft, hphase]
      omega
    · rw [compressStep, hstart]
      simp only [stepsLeft, hphase]
      omega
  | header =>
    rw [compressStep, writeHeader_eq]
    simp only [stepsLeft, hphase, blockSteps]
    omega
  | nextBlock => exact stepsLeft_nextBlock_lt hphase h
  | probe =>
    obtain ⟨hsearch, -⟩ := (compressInv_probe hphase).1 h
    have hlimit := hsearch.ipLimit_lt_be
    rw [compressStep] at hin ⊢
    rcases probe_cases h hphase with ⟨-, hnext, hcmp⟩ | ⟨-, hnext, slot, cand, hcmp⟩ |
      ⟨hle, hnext, slot, cand, ip, skip, hcmp, hlt, -⟩ <;>
    · simp only [stepsLeft, hphase, hnext, blockSteps, hin, hcmp]
      omega
  | accept =>
    rw [compressStep, acceptMatch_eq]
    simp only [stepsLeft, hphase, blockSteps]
    omega
  | extend =>
    obtain ⟨hmatch, -⟩ := (compressInv_extend hphase).1 h
    obtain ⟨m, -, hmin, -, hip, hend, -⟩ := extendIsMaximal s hmatch
    have hbe : (extendMatch s).cmp.be = s.cmp.be := rfl
    rw [compressStep, extendAndEmit_eq]
    simp only [stepsLeft, hphase, blockSteps, hip, hbe]
    omega
  | adjacent =>
    obtain ⟨hsearch, -, -, hend⟩ := (compressInv_adjacent hphase).1 h
    have hlimit := hsearch.ipLimit_lt_be
    rw [compressStep] at hin ⊢
    rcases adjacent_cases s with ⟨-, hnext, hcmp⟩ | ⟨-, hnext, slot, cand, hcmp⟩ |
      ⟨hlt, hnext, slot, cand, ip, skip, hcmp, hip⟩ <;>
    · simp only [stepsLeft, hphase, hnext, blockSteps, hin, hcmp]
      omega
  | tail =>
    have hbs := ((compressInv_tail hphase).1 h).next_start_toNat
    rw [compressStep, blockTail_eq]
    simp only [stepsLeft, hphase, blockSteps, hbs]
    omega

/-- An engine step of a running operation leaves fewer steps (R132). -/
theorem stepsLeft_engineStep_lt {s t : State} (h : CompressInv s) (hrun : s.phase ≠ .idle)
    (hstep : engineStep s = .next t) : stepsLeft t < stepsLeft s := by
  cases hphase : s.phase with
  | idle => exact absurd hphase hrun
  | cmp stage =>
    obtain rfl := Host.Outcome.next.inj ((engineStep_cmp hphase).symm.trans hstep)
    exact stepsLeft_compressStep_lt hphase h
  | dcmp stage =>
    have hpos : 0 < stepsLeft s := by cases stage <;> simp only [stepsLeft, hphase] <;> omega
    cases stage with
    | startChecks =>
      obtain rfl := Host.Outcome.next.inj ((engineStep_startDecompress hphase).symm.trans hstep)
      rcases startDecompress_cases s with ⟨e, d, -, hfail⟩ | ⟨-, hstart⟩
      · rw [hfail, stepsLeft_idle rfl]
        exact hpos
      · rw [hstart]
        simp only [stepsLeft, hphase]
        omega
    | readHeader =>
      rcases readHeader_cases hphase hstep with ⟨e, d, -, rfl⟩ | ⟨g, hlt, -, -, rfl | ⟨-, rfl⟩⟩
      · rw [stepsLeft_idle rfl]
        exact hpos
      · have hnext : (continueRegs g s).pos.toNat = _ := groupRegs_pos_toNat g hlt
        simp only [stepsLeft, hphase, hnext]
        omega
      · have hnext : (decodeLoopRegs g s).pos.toNat = _ := groupRegs_pos_toNat g hlt
        simp only [stepsLeft, hphase, hnext]
        omega
    | decodeLoop =>
      rcases decodeLoop_cases hphase hstep with ⟨-, rfl⟩ | ⟨e, d, -, rfl⟩ | ⟨hframe, hlt, hle, -⟩
      · rw [stepsLeft_idle rfl]
        exact hpos
      · rw [stepsLeft_idle rfl]
        exact hpos
      · rw [hframe]
        simp only [stepsLeft, hphase]
        omega

/-- The engine never stops: it neither faults nor is refused. -/
theorem engineStep_total (s : State) : ∃ t, engineStep s = .next t := by
  cases hphase : s.phase with
  | idle => exact ⟨s, engineStep_idle hphase⟩
  | cmp stage => exact ⟨_, engineStep_cmp hphase⟩
  | dcmp stage =>
    cases stage with
    | startChecks => exact ⟨_, engineStep_startDecompress hphase⟩
    | readHeader =>
      rcases Nat.lt_or_ge s.dec.pos.toNat s.inLen.toNat with hpos | hend
      · obtain ⟨t, ht, -⟩ := exec_decodeHeader_cases (inByte s s.dec.pos.toNat) s
        exact ⟨t, (engineStep_header hphase hpos).trans ht⟩
      · exact ⟨_, engineStep_headerExhausted hphase hend⟩
    | decodeLoop =>
      rcases Nat.lt_or_ge s.dec.pos.toNat s.inLen.toNat with hpos | hend
      · obtain ⟨t, ht, -⟩ := exec_element_cases (decodeElement_context (byteAt (fetchWindow s))) s
        exact ⟨t, (engineStep_element hphase hpos).trans ht⟩
      · exact ⟨_, engineStep_endOfStream hphase hend⟩

/-! ## Runs of the engine -/

theorem engineStep_host {s t : State} (h : engineStep s = .next t) : t.host = s.host := by
  rw [engineStep_frame h]

/-- With nothing pending, a predicate the engine keeps holds at the end of every run. -/
theorem runs_keeps {P : State → Prop} (hP : ∀ u v, P u → engineStep u = .next v → P v) {t : State} :
    ∀ {n : Nat} {s : State}, P s → s.host = [] → Host.Core.run Sys2Proof.core n s = .next t → P t := by
  intro n
  induction n with
  | zero =>
    intro s hs _ hrun
    obtain rfl : s = t := Host.Outcome.next.inj hrun
    exact hs
  | succ n ih =>
    intro s hs hhost hrun
    obtain ⟨u, hu⟩ := engineStep_total s
    rw [core_run_succ ((step_of_host_nil hhost).trans hu)] at hrun
    exact ih (hP s u hs hu) ((engineStep_host hu).trans hhost) hrun

/-- With nothing pending, a state that keeps the compressor's invariant comes to IDLE within the steps left (R132). -/
theorem run_to_idle (m : Nat) : ∀ {s : State}, CompressInv s → s.host = [] → stepsLeft s ≤ m →
    ∃ n t, n ≤ m ∧ Host.Core.run Sys2Proof.core n s = .next t ∧ t.phase = .idle := by
  induction m with
  | zero =>
    intro s hs hhost hleft
    refine ⟨0, s, Nat.le_refl _, rfl, ?_⟩
    by_contra hrun
    obtain ⟨u, hu⟩ := engineStep_total s
    have := stepsLeft_engineStep_lt hs hrun hu
    omega
  | succ m ih =>
    intro s hs hhost hleft
    by_cases hidle : s.phase = .idle
    · exact ⟨0, s, Nat.zero_le _, rfl, hidle⟩
    · obtain ⟨u, hu⟩ := engineStep_total s
      have hlt := stepsLeft_engineStep_lt hs hidle hu
      obtain ⟨n, t, hn, hrun, ht⟩ :=
        ih (compressInv_engineStep hs hu) ((engineStep_host hu).trans hhost) (by omega)
      exact ⟨n + 1, t, Nat.succ_le_succ hn, (core_run_succ ((step_of_host_nil hhost).trans hu) n).trans hrun, ht⟩

/-- Settles O58: the steps left are at most `4 IN_LEN + 4`, and every step lowers them. -/
theorem operationsEnd : Obligations.OperationsEnd := by
  unfold Obligations.OperationsEnd
  rintro s ⟨-, -, hinv, -⟩ hhost -
  exact run_to_idle _ hinv hhost (stepsLeft_le hinv)

end Sys2Proof.Machine
end

section
/-! SUPPORT. What an engine step depends on (20_memory.md R38, 41_match_finder.md R89): a state and the same state with
other bytes at IN_LEN and above, or with other entries of HT outside the used part, take the same step. -/

namespace Sys2Proof.Machine

/-! ## The same state with other memories -/

/-- A state with another IN and another HT. -/
def withMem (m : Memory) (h : HashTable) (s : State) : State := { s with inMem := m, ht := h }

@[simp] theorem withMem_cmp (m : Memory) (h : HashTable) (s : State) : (withMem m h s).cmp = s.cmp := rfl

@[simp] theorem withMem_dec (m : Memory) (h : HashTable) (s : State) : (withMem m h s).dec = s.dec := rfl

@[simp] theorem withMem_inLen (m : Memory) (h : HashTable) (s : State) : (withMem m h s).inLen = s.inLen := rfl

/-- The other IN holds the same bytes below IN_LEN. -/
def ReadsAgree (m : Memory) (s : State) : Prop :=
  ∀ (h : HashTable) (a : Nat), a < s.inLen.toNat → inByte (withMem m h s) a = inByte s a

/-- The other HT holds the same entries in the part the block uses. -/
def EntriesAgree (h : HashTable) (s : State) : Prop :=
  ∀ i, i < 2 ^ s.cmp.bits.toNat → htEntry { s with ht := h } i = htEntry s i

/-- The state with the other HT differs at most in stale entries: in a search the entries agree, and outside one nothing
is asked of HT (R89). -/
def UsedAgree (h : HashTable) (s : State) : Prop := SameButStaleHt s { s with ht := h }

/-- The other state's step leads to `v`, which is `t` but for IN and HT: the same HT if it was the same before, and one
that agrees in the used part in any case. -/
def Alike (m : Memory) (h : HashTable) (s t v : State) : Prop :=
  ∃ h', v = withMem m h' t ∧ (h = s.ht → h' = t.ht) ∧ UsedAgree h' t

theorem EntriesAgree.congr {h : HashTable} {s t : State} (hs : EntriesAgree h s) (hht : t.ht = s.ht)
    (hepoch : t.epoch = s.epoch) (hbits : t.cmp.bits = s.cmp.bits) : EntriesAgree h t := by
  intro i hi
  rw [hbits] at hi
  rw [htEntry_congr (s := { s with ht := h }) (t := { t with ht := h }) rfl hepoch, htEntry_congr hht hepoch]
  exact hs i hi

theorem EntriesAgree.usedAgree {h : HashTable} {s : State} (hs : EntriesAgree h s) : UsedAgree h s := by
  refine ⟨rfl, ?_⟩
  split <;> trivial

theorem UsedAgree.entriesAgree {h : HashTable} {s : State} {stage : CmpStage} (hs : UsedAgree h s)
    (hphase : s.phase = .cmp stage)
    (hsearch : stage = .probe ∨ stage = .accept ∨ stage = .extend ∨ stage = .adjacent) : EntriesAgree h s := by
  obtain ⟨-, hs⟩ := hs
  rcases hsearch with rfl | rfl | rfl | rfl <;>
  · simp only [hphase] at hs
    exact hs

theorem usedAgree_of_not_search {h : HashTable} {s : State}
    (hphase : s.phase = .idle ∨ s.phase = .cmp .header ∨ s.phase = .cmp .nextBlock ∨ s.phase = .cmp .tail) :
    UsedAgree h s := by
  refine ⟨rfl, ?_⟩
  rcases hphase with hphase | hphase | hphase | hphase <;> simp only [hphase]

theorem sameButStaleHt_iff (s u : State) : SameButStaleHt s u ↔ u = withMem s.inMem u.ht s ∧ UsedAgree u.ht s := by
  constructor
  · intro hs
    have hframe : u = { s with ht := u.ht } := hs.1
    exact ⟨hframe, by rwa [UsedAgree, ← hframe]⟩
  · intro ⟨hframe, hs⟩
    have hframe : u = { s with ht := u.ht } := hframe
    rwa [UsedAgree, ← hframe] at hs

/-! ## Reads below IN_LEN -/

theorem load32_withMem {m : Memory} (h : HashTable) {s : State} (hreads : ReadsAgree m s) {a : Nat}
    (ha : a + 3 < s.inLen.toNat) : load32 (withMem m h s) a = load32 s a := by
  rw [load32, load32, hreads h _ ha, hreads h _ (by omega), hreads h _ (by omega), hreads h _ (by omega)]

theorem eq32_withMem {m : Memory} (h : HashTable) {s : State} (hreads : ReadsAgree m s) {a b : Nat}
    (ha : a + 3 < s.inLen.toNat) (hb : b + 3 < s.inLen.toNat) : eq32 (withMem m h s) a b = eq32 s a b := by
  have read (i : Nat) (hi : i < s.inLen.toNat) := hreads h i hi
  rw [eq32, eq32, read a (by omega), read b (by omega), read (a + 1) (by omega), read (b + 1) (by omega),
    read (a + 2) (by omega), read (b + 2) (by omega), read (a + 3) ha, read (b + 3) hb]

theorem fingerprint_withMem {m : Memory} (h : HashTable) {s : State} (hreads : ReadsAgree m s) {a : Nat}
    (ha : a + 3 < s.inLen.toNat) : fingerprint (withMem m h s) a = fingerprint s a := by
  rw [fingerprint, load32_withMem h hreads ha, withMem_cmp, fingerprint]

theorem moveBytes_congr {read read' : Nat → Byte} (n : Nat) : ∀ (src dst : Nat) (m : Memory),
    (∀ i, i < n → read (src + i) = read' (src + i)) → moveBytes read src dst n m = moveBytes read' src dst n m := by
  induction n with
  | zero => exact fun _ _ _ _ => rfl
  | succ n ih =>
    intro src dst m h
    have hfirst := h 0 (Nat.succ_pos n)
    rw [Nat.add_zero] at hfirst
    rw [moveBytes, moveBytes, hfirst]
    refine ih _ _ _ fun i hi => ?_
    rw [Nat.add_right_comm]
    exact h (i + 1) (Nat.succ_lt_succ hi)

theorem agreeing_congr {read read' : Nat → Byte} (n : Nat) : ∀ (a b : Nat),
    (∀ i, i < n → read (a + i) = read' (a + i) ∧ read (b + i) = read' (b + i)) →
      agreeing read n a b = agreeing read' n a b := by
  induction n with
  | zero => exact fun _ _ _ => rfl
  | succ n ih =>
    intro a b h
    obtain ⟨ha, hb⟩ := h 0 (Nat.succ_pos n)
    rw [Nat.add_zero] at ha hb
    rw [agreeing, agreeing, ha, hb, ih (a + 1) (b + 1)]
    intro i hi
    rw [Nat.add_right_comm a, Nat.add_right_comm b]
    exact h (i + 1) (Nat.succ_lt_succ hi)

/-! ## Emission -/

theorem emitBytes_withMem (m : Memory) (h : HashTable) (bytes : List Byte) :
    ∀ s : State, emitBytes bytes (withMem m h s) = withMem m h (emitBytes bytes s) := by
  induction bytes with
  | nil => exact fun _ => rfl
  | cons b bytes ih => exact fun s => ih (emit b s)

theorem emitLiteral_withMem {m : Memory} (h : HashTable) {s : State} (hreads : ReadsAgree m s) {src len : Nat}
    (hin : src + len ≤ s.inLen.toNat) :
    emitLiteral src len (withMem m h s) = withMem m h (emitLiteral src len s) := by
  have hread : ∀ i, i < len →
      inByte (withMem m h (emitBytes (literalHeader len) s)) (src + i) =
        inByte (emitBytes (literalHeader len) s) (src + i) := by
    intro i hi
    rw [← emitBytes_withMem, inByte_emitBytes, inByte_emitBytes]
    exact hreads h _ (by omega)
  rw [emitLiteral, emitBytes_withMem, emitLiteral]
  dsimp only
  rw [moveBytes_congr len _ _ _ hread]
  rfl

/-! ## Records in HT -/

theorem EntriesAgree.write {h : HashTable} {s : State} (hs : EntriesAgree h s) (slot v : Nat) :
    EntriesAgree (Table.write h slot (BitVec.ofNat 16 v)) (writeHt s slot v) := by
  intro i hi
  have hother : htEntry { writeHt s slot v with ht := Table.write h slot (BitVec.ofNat 16 v) } i =
      htEntry (writeHt { s with ht := h } slot v) i := rfl
  rw [hother, htEntry_writeHt, htEntry_writeHt]
  split_ifs
  · rfl
  · exact hs i hi

/-- The record of a lookup, its slot named (R78, R83). -/
def recordAt (slot : Nat) (s : State) : State :=
  { writeHt s slot (s.cmp.ip.toNat - s.cmp.bs.toNat) with
    cmp := { s.cmp with
      h := BitVec.ofNat 14 slot
      cand := BitVec.ofNat 32 (s.cmp.bs.toNat + (htEntry s slot).toNat) } }

theorem lookupAndRecord_eq_recordAt (s : State) :
    lookupAndRecord s = recordAt (fingerprint s s.cmp.ip.toNat) s := rfl

theorem recordAt_withMem (m : Memory) {h : HashTable} {s : State} {slot : Nat} (hslot : slot < 2 ^ s.cmp.bits.toNat)
    (hs : EntriesAgree h s) :
    recordAt slot (withMem m h s) =
      withMem m (Table.write h slot (BitVec.ofNat 16 (s.cmp.ip.toNat - s.cmp.bs.toNat))) (recordAt slot s) := by
  have hentry : htEntry (withMem m h s) slot = htEntry s slot := hs slot hslot
  rw [recordAt, hentry]
  rfl

theorem recordAt_entriesAgree {h : HashTable} {s : State} (slot : Nat) (hs : EntriesAgree h s) :
    EntriesAgree (Table.write h slot (BitVec.ofNat 16 (s.cmp.ip.toNat - s.cmp.bs.toNat))) (recordAt slot s) :=
  (hs.write slot _).congr rfl rfl rfl

/-- A lookup in the other state finds the same candidate and makes the same record (R78, R83). -/
theorem lookupAndRecord_withMem {m : Memory} {h : HashTable} {s : State} (hreads : ReadsAgree m s)
    (hs : EntriesAgree h s) (hin : s.cmp.ip.toNat + 3 < s.inLen.toNat) :
    ∃ h', lookupAndRecord (withMem m h s) = withMem m h' (lookupAndRecord s) ∧
      (h = s.ht → h' = (lookupAndRecord s).ht) ∧ EntriesAgree h' (lookupAndRecord s) := by
  have hslot := fingerprint_lt s s.cmp.ip.toNat
  rw [lookupAndRecord_eq_recordAt, lookupAndRecord_eq_recordAt, withMem_cmp, fingerprint_withMem h hreads hin]
  generalize fingerprint s s.cmp.ip.toNat = slot at hslot ⊢
  refine ⟨_, recordAt_withMem m hslot hs, ?_, recordAt_entriesAgree slot hs⟩
  rintro rfl
  rfl

/-- The first record of ADJACENT in the other state is the same (R83). -/
theorem recordPrevious_withMem {m : Memory} {h : HashTable} {s : State} (hreads : ReadsAgree m s)
    (hs : EntriesAgree h s) (hin : s.cmp.ip.toNat + 3 < s.inLen.toNat) :
    ∃ h', recordPrevious (withMem m h s) = withMem m h' (recordPrevious s) ∧
      (h = s.ht → h' = (recordPrevious s).ht) ∧ EntriesAgree h' (recordPrevious s) := by
  rw [recordPrevious, recordPrevious, withMem_cmp, fingerprint_withMem h hreads (by omega)]
  generalize fingerprint s (s.cmp.ip.toNat - 1) = slot
  refine ⟨_, rfl, ?_, hs.write slot _⟩
  rintro rfl
  rfl

/-! ## The stages of COMPRESS -/

/-- What a probe within its limit does once the lookup is made (R78). -/
def probeAfter (t : State) : State :=
  if candidateMatches t then { t with phase := .cmp .accept }
  else { t with cmp := { t.cmp with ip := satWord (scanStep t), skip := t.cmp.skip + 1 } }

/-- What ADJACENT short of its limit does once the lookup is made (R83, R84). -/
def adjacentAfter (t : State) : State :=
  if candidateMatches t then { t with phase := .cmp .extend }
  else { t with cmp := { t.cmp with ip := t.cmp.ip + 1, skip := BitVec.ofNat 32 SKIP_INIT }, phase := .cmp .probe }

theorem probe_of_le {s : State} (h : s.cmp.ip.toNat ≤ s.cmp.ipLimit.toNat) :
    probe s = probeAfter (lookupAndRecord s) :=
  if_neg (Nat.not_lt.2 h)

theorem adjacent_eq_adjacentAfter {s : State} (h : s.cmp.ip.toNat < s.cmp.ipLimit.toNat) :
    adjacent s = adjacentAfter (lookupAndRecord (recordPrevious s)) :=
  adjacent_of_lt h

theorem probeAfter_withMem {m : Memory} {h : HashTable} {t : State}
    (hmatches : candidateMatches (withMem m h t) = candidateMatches t) :
    probeAfter (withMem m h t) = withMem m h (probeAfter t) := by
  rw [probeAfter, probeAfter, hmatches]
  split_ifs <;> rfl

theorem adjacentAfter_withMem {m : Memory} {h : HashTable} {t : State}
    (hmatches : candidateMatches (withMem m h t) = candidateMatches t) :
    adjacentAfter (withMem m h t) = withMem m h (adjacentAfter t) := by
  rw [adjacentAfter, adjacentAfter, hmatches]
  split_ifs <;> rfl

theorem probeAfter_ht (t : State) : (probeAfter t).ht = t.ht ∧ (probeAfter t).epoch = t.epoch ∧
    (probeAfter t).cmp.bits = t.cmp.bits := by
  unfold probeAfter
  split_ifs <;> exact ⟨rfl, rfl, rfl⟩

theorem adjacentAfter_ht (t : State) : (adjacentAfter t).ht = t.ht ∧ (adjacentAfter t).epoch = t.epoch ∧
    (adjacentAfter t).cmp.bits = t.cmp.bits := by
  unfold adjacentAfter
  split_ifs <;> exact ⟨rfl, rfl, rfl⟩

/-- A lookup's candidate below `ip` is tested on bytes of the block alone. -/
theorem candidateMatches_lookupAndRecord_withMem {m : Memory} (h : HashTable) {s : State} (hreads : ReadsAgree m s)
    (hin : s.cmp.ip.toNat + 3 < s.inLen.toNat) (hcand : probeCand s < s.cmp.ip.toNat) :
    candidateMatches (withMem m h (lookupAndRecord s)) = candidateMatches (lookupAndRecord s) := by
  obtain ⟨slot, cand, -, hcandWord, hrecord⟩ := lookupAndRecord_eq s
  have hcandNat : cand.toNat = probeCand s := by
    have := s.cmp.ip.isLt
    rw [hcandWord]
    exact toNat_ofNat_of_lt (by omega)
  have hreads' : ReadsAgree m (lookupAndRecord s) := by
    rw [hrecord]
    exact hreads
  rw [candidateMatches, candidateMatches]
  refine eq32_withMem h hreads' ?_ ?_
  · rw [hrecord]
    exact hin
  · rw [hrecord]
    show cand.toNat + 3 < s.inLen.toNat
    omega

theorem probe_alike {m : Memory} {h : HashTable} {s : State} (hphase : s.phase = .cmp .probe) (hinv : CompressInv s)
    (hreads : ReadsAgree m s) (hs : EntriesAgree h s) : Alike m h s (probe s) (probe (withMem m h s)) := by
  obtain ⟨hsearch, -⟩ := (compressInv_probe hphase).1 hinv
  rcases Nat.lt_or_ge s.cmp.ipLimit.toNat s.cmp.ip.toNat with hgt | hle
  · rw [probe_of_gt hgt, probe_of_gt (s := withMem m h s) hgt]
    exact ⟨h, rfl, id, usedAgree_of_not_search (by simp)⟩
  · obtain ⟨-, hcand, -⟩ := probe_bounds hinv hphase hle
    have hend := hsearch.1.in_input
    obtain ⟨-, hmargin, hlimit, -⟩ := hsearch
    have hin : s.cmp.ip.toNat + 3 < s.inLen.toNat := by omega
    obtain ⟨h', hlookup, hsame, hagree⟩ := lookupAndRecord_withMem hreads hs hin
    obtain ⟨hht, hepoch, hbits⟩ := probeAfter_ht (lookupAndRecord s)
    rw [probe_of_le hle, probe_of_le (s := withMem m h s) hle, hlookup,
      probeAfter_withMem (candidateMatches_lookupAndRecord_withMem h' hreads hin hcand)]
    exact ⟨h', rfl, fun heq => (hsame heq).trans hht.symm, (hagree.congr hht hepoch hbits).usedAgree⟩

theorem adjacent_alike {m : Memory} {h : HashTable} {s : State} (hphase : s.phase = .cmp .adjacent)
    (hinv : CompressInv s) (hreads : ReadsAgree m s) (hs : EntriesAgree h s) :
    Alike m h s (adjacent s) (adjacent (withMem m h s)) := by
  obtain ⟨hsearch, -, hlow, hbe⟩ := (compressInv_adjacent hphase).1 hinv
  rcases Nat.lt_or_ge s.cmp.ip.toNat s.cmp.ipLimit.toNat with hlt | hge
  · have hcand : probeCand (recordPrevious s) < s.cmp.ip.toNat := adjacentCand_lt_ip hsearch hlow hbe
    have hend := hsearch.1.in_input
    obtain ⟨-, hmargin, hlimit, -⟩ := hsearch
    have hin : s.cmp.ip.toNat + 3 < s.inLen.toNat := by omega
    obtain ⟨h₁, hprevious, hsame₁, hagree₁⟩ := recordPrevious_withMem hreads hs hin
    obtain ⟨h₂, hlookup, hsame₂, hagree₂⟩ := lookupAndRecord_withMem (s := recordPrevious s) hreads hagree₁ hin
    obtain ⟨hht, hepoch, hbits⟩ := adjacentAfter_ht (lookupAndRecord (recordPrevious s))
    rw [adjacent_eq_adjacentAfter hlt, adjacent_eq_adjacentAfter (s := withMem m h s) hlt, hprevious, hlookup,
      adjacentAfter_withMem (candidateMatches_lookupAndRecord_withMem (s := recordPrevious s) h₂ hreads hin hcand)]
    exact ⟨h₂, rfl, fun heq => (hsame₂ (hsame₁ heq)).trans hht.symm, (hagree₂.congr hht hepoch hbits).usedAgree⟩
  · rw [adjacent_of_ge hge, adjacent_of_ge (s := withMem m h s) hge]
    exact ⟨h, rfl, id, usedAgree_of_not_search (by simp)⟩

theorem nextBlock_alike (m : Memory) (h : HashTable) (s : State) :
    Alike m h s (nextBlock s) (nextBlock (withMem m h s)) := by
  rcases Nat.lt_or_ge s.cmp.bs.toNat s.cmp.N.toNat with hbs | hend
  · have hother : nextBlock (withMem m h s) = beginBlock (nextSize s) (withMem m h s) :=
      nextBlock_of_lt (s := withMem m h s) hbs
    obtain ⟨-, -, hbits⟩ := blockRegs_toNat hbs
    rw [nextBlock_of_lt hbs, hother]
    rcases Nat.lt_or_ge (nextSize s) 15 with hshort | hmargin
    · rw [beginBlock_of_short hshort, beginBlock_of_short hshort]
      refine ⟨clearedHt (nextSize s) (withMem m h s), rfl, ?_, usedAgree_of_not_search (by simp)⟩
      rintro rfl
      rfl
    · rw [beginBlock_of_margin hmargin, beginBlock_of_margin hmargin]
      refine ⟨clearedHt (nextSize s) (withMem m h s), rfl, ?_, EntriesAgree.usedAgree fun i hi => ?_⟩
      · rintro rfl
        rfl
      · have hused : i < 2 ^ tableBits (nextSize s) := hbits ▸ hi
        have hleft := htEntry_clearedHt (nextSize s) (withMem m h s) i
        have hright := htEntry_clearedHt (nextSize s) s i
        rw [if_pos hused] at hleft hright
        exact hleft.trans hright.symm
  · rw [nextBlock, nextBlock, if_neg (Nat.not_lt.2 hend), if_neg (by exact Nat.not_lt.2 hend)]
    exact ⟨h, rfl, id, usedAgree_of_not_search (by simp)⟩

theorem acceptMatch_alike {m : Memory} {h : HashTable} {s : State} (hphase : s.phase = .cmp .accept)
    (hinv : CompressInv s) (hreads : ReadsAgree m s) (hs : EntriesAgree h s) :
    Alike m h s (acceptMatch s) (acceptMatch (withMem m h s)) := by
  obtain ⟨⟨hsearch, hlimit, -⟩, hemit⟩ := (compressInv_accept hphase).1 hinv
  have hend := hsearch.1.in_input
  have hle := hsearch.ipLimit_le_be
  have hliteral := emitLiteral_withMem h hreads (src := s.cmp.nextEmit.toNat)
    (len := s.cmp.ip.toNat - s.cmp.nextEmit.toNat) (by omega)
  refine ⟨h, ?_, fun heq => ?_, EntriesAgree.usedAgree ?_⟩
  · rw [acceptMatch, withMem_cmp, hliteral]
    rfl
  · rw [acceptMatch_eq]
    exact heq
  · rw [acceptMatch_eq]
    exact hs

theorem extendMatch_withMem {m : Memory} (h : HashTable) {s : State} (hmatch : MatchInv s) (hreads : ReadsAgree m s) :
    extendMatch (withMem m h s) = withMem m h (extendMatch s) := by
  obtain ⟨hsearch, -, -, hcand, -⟩ := hmatch
  have hend := hsearch.1.in_input
  have hloop : matchLength (withMem m h s) = matchLength s := by
    rw [matchLength, withMem_cmp, matchLength]
    congr 1
    refine agreeing_congr _ _ _ fun i hi => ⟨hreads h _ ?_, hreads h _ ?_⟩ <;> omega
  rw [extendMatch_eq, extendMatch_eq, hloop]
  rfl

theorem extendAndEmit_alike {m : Memory} {h : HashTable} {s : State} (hphase : s.phase = .cmp .extend)
    (hinv : CompressInv s) (hreads : ReadsAgree m s) (hs : EntriesAgree h s) :
    Alike m h s (extendAndEmit s) (extendAndEmit (withMem m h s)) := by
  obtain ⟨hmatch, -⟩ := (compressInv_extend hphase).1 hinv
  refine ⟨h, ?_, fun heq => ?_, EntriesAgree.usedAgree ?_⟩
  · rw [extendAndEmit, extendMatch_withMem h hmatch hreads]
    dsimp only
    rw [withMem_cmp, emitCopy, emitBytes_withMem]
    rfl
  · rw [extendAndEmit_eq]
    exact heq
  · rw [extendAndEmit_eq]
    exact hs

theorem blockTail_alike {m : Memory} {h : HashTable} {s : State} (hphase : s.phase = .cmp .tail)
    (hinv : CompressInv s) (hreads : ReadsAgree m s) : Alike m h s (blockTail s) (blockTail (withMem m h s)) := by
  have hend := ((compressInv_tail hphase).1 hinv).in_input
  have hliteral (hrest : s.cmp.nextEmit.toNat < s.cmp.be.toNat) := emitLiteral_withMem h hreads
    (src := s.cmp.nextEmit.toNat) (len := s.cmp.be.toNat - s.cmp.nextEmit.toNat) (by omega)
  refine ⟨h, ?_, fun heq => ?_, usedAgree_of_not_search ?_⟩
  · rw [blockTail, blockTail, withMem_cmp]
    split_ifs with hrest
    · rw [hliteral hrest]
      rfl
    · rfl
  · rw [blockTail_eq]
    exact heq
  · rw [blockTail_eq]
    simp

/-- A COMPRESS step depends on no byte of IN at IN_LEN or above and on no entry of HT outside the used part (R38,
R89). -/
theorem compressStep_alike {m : Memory} {h : HashTable} {s : State} {stage : CmpStage} (hphase : s.phase = .cmp stage)
    (hinv : CompressInv s) (hreads : ReadsAgree m s) (hs : UsedAgree h s) :
    Alike m h s (compressStep stage s) (compressStep stage (withMem m h s)) := by
  cases stage with
  | startChecks =>
    have hbad : badConfig (withMem m h s) = badConfig s := rfl
    have hshort : capacityShort (withMem m h s) = capacityShort s := rfl
    rw [compressStep, compressStep, startCompress, startCompress, hbad, hshort]
    split_ifs <;> exact ⟨h, rfl, id, usedAgree_of_not_search (by simp)⟩
  | header =>
    refine ⟨h, ?_, fun heq => ?_, usedAgree_of_not_search ?_⟩
    · rw [compressStep, compressStep, writeHeader, withMem_cmp, emitBytes_withMem]
      rfl
    · rw [compressStep, writeHeader_eq]
      exact heq
    · rw [compressStep, writeHeader_eq]
      simp
  | nextBlock => exact nextBlock_alike m h s
  | probe => exact probe_alike hphase hinv hreads (hs.entriesAgree hphase (by simp))
  | accept => exact acceptMatch_alike hphase hinv hreads (hs.entriesAgree hphase (by simp))
  | extend => exact extendAndEmit_alike hphase hinv hreads (hs.entriesAgree hphase (by simp))
  | adjacent => exact adjacent_alike hphase hinv hreads (hs.entriesAgree hphase (by simp))
  | tail => exact blockTail_alike hphase hinv hreads

/-- Settles O57: the other state has the same IN, so the step is the same but for HT outside the used part. -/
theorem staleHtNeverShows : Obligations.StaleHtNeverShows := by
  unfold Obligations.StaleHtNeverShows
  intro s u t stage hphase hinv hsame hstep
  obtain rfl := Host.Outcome.next.inj ((engineStep_cmp hphase).symm.trans hstep)
  obtain ⟨hframe, hused⟩ := (sameButStaleHt_iff s u).1 hsame
  have hreads : ReadsAgree s.inMem s := fun _ _ _ => rfl
  obtain ⟨h', hother, -, hagree⟩ := compressStep_alike hphase hinv hreads hused
  have hin : (compressStep stage s).inMem = s.inMem := by rw [engineStep_frame (engineStep_cmp hphase)]
  rw [← hframe] at hother
  have hphaseU : u.phase = .cmp stage := by
    rw [hframe]
    exact hphase
  refine ⟨_, engineStep_cmp hphaseU, (sameButStaleHt_iff _ _).2 ?_⟩
  rw [hother]
  exact ⟨by rw [hin]; rfl, hagree⟩

/-! ## DECOMPRESS -/

theorem fetchWindow_withMem {m : Memory} (h : HashTable) {s : State} (hreads : ReadsAgree m s) :
    fetchWindow (withMem m h s) = fetchWindow s := by
  refine List.map_congr_left fun j hj => ?_
  have hj : j < min 5 (s.inLen.toNat - s.dec.pos.toNat) := List.mem_range.1 hj
  have hin : s.dec.pos.toNat + j < s.inLen.toNat := by omega
  exact hreads h _ hin

theorem fetchTag_withMem {m : Memory} (h : HashTable) {s : State} (hreads : ReadsAgree m s)
    (hpos : s.dec.pos.toNat < s.inLen.toNat) : fetchTag (withMem m h s) = withMem m h (fetchTag s) := by
  rw [fetchTag, withMem_dec, hreads h _ hpos]
  rfl

theorem literalPayload_withMem {m : Memory} (h : HashTable) (len : Nat) {s : State} (hreads : ReadsAgree m s) :
    literalPayload len (withMem m h s) = withMem m h (literalPayload len s) := by
  rw [literalPayload, literalPayload, withMem_dec, withMem_inLen]
  split_ifs with hin
  · rfl
  · rfl
  · have hmove := moveBytes_congr (read := inByte (withMem m h s)) (read' := inByte s) len s.dec.pos.toNat
      s.dec.outPos.toNat s.outMem fun i hi => hreads h _ (by omega)
    rw [literalMove, withMem_dec, show (withMem m h s).outMem = s.outMem from rfl, hmove]
    rfl

theorem literalExtended_withMem {m : Memory} (h : HashTable) (k len : Nat) {s : State} (hreads : ReadsAgree m s) :
    literalExtended k len (withMem m h s) = withMem m h (literalExtended k len s) := by
  rw [literalExtended, literalExtended, withMem_dec, withMem_inLen]
  split_ifs
  · rfl
  · exact literalPayload_withMem h len (s := { s with dec := { s.dec with
      k := BitVec.ofNat 3 k, len := BitVec.ofNat 33 len, pos := BitVec.ofNat 32 (s.dec.pos.toNat + k) } }) hreads

theorem copyElement_withMem (m : Memory) (h : HashTable) (k len offset : Nat) (s : State) :
    copyElement k len offset (withMem m h s) = withMem m h (copyElement k len offset s) := by
  rw [copyElement, copyElement, withMem_dec, withMem_inLen]
  split_ifs
  · rfl
  · unfold copyChecked
    dsimp only
    split_ifs <;> rfl

/-- A tag element reads below IN_LEN alone (R38, R105). -/
theorem exec_element_withMem {m : Memory} (h : HashTable) {i : Instr} (hi : i.context = .element) {s t : State}
    (hreads : ReadsAgree m s) (hpos : s.dec.pos.toNat < s.inLen.toNat) (hexec : exec i s = .next t) :
    exec i (withMem m h s) = .next (withMem m h t) := by
  have hfetch := fetchTag_withMem h hreads hpos
  have hreads' : ReadsAgree m (fetchTag s) := hreads
  cases i with
  | copy1 | copy2 | copy4 =>
    obtain rfl := Host.Outcome.next.inj hexec
    exact congrArg _ (hfetch ▸ copyElement_withMem m h _ _ _ (fetchTag s))
  | litX1 | litX2 | litX3 | litX4 =>
    obtain rfl := Host.Outcome.next.inj hexec
    exact congrArg _ (hfetch ▸ literalExtended_withMem h _ _ hreads')
  | lit f =>
    obtain rfl := Host.Outcome.next.inj hexec
    rw [show exec (.lit f) (withMem m h s) = execLit f (withMem m h s) from rfl, execLit]
    dsimp only
    rw [hfetch]
    exact congrArg _ (literalPayload_withMem h _ (s := { fetchTag s with dec := { (fetchTag s).dec with
      len := BitVec.ofNat 33 (lenMinus1 f) } }) hreads')
  | varintCont g | varintLast g | cmdCompress r | cmdDecompress r | ctrlSetop b r => cases hi

theorem takeGroup_withMem (m : Memory) (h : HashTable) (g : BitVec 7) (s : State) :
    takeGroup g (withMem m h s) = (takeGroup g s).map (withMem m h) := by
  rw [takeGroup, takeGroup, withMem_dec, withMem_inLen]
  split_ifs <;> rfl

theorem enterDecodeLoop_withMem (m : Memory) (h : HashTable) (s : State) :
    enterDecodeLoop (withMem m h s) = withMem m h (enterDecodeLoop s) := by
  have hcap : (withMem m h s).outCap = s.outCap := rfl
  rw [enterDecodeLoop, enterDecodeLoop, withMem_dec, hcap]
  split_ifs <;> rfl

/-- A header byte's meaning reads nothing of IN (R67). -/
theorem exec_decodeHeader_withMem (m : Memory) (h : HashTable) {c : Byte} {s t : State}
    (hexec : exec (decodeHeader c) s = .next t) : exec (decodeHeader c) (withMem m h s) = .next (withMem m h t) := by
  have htake := takeGroup_withMem m h
  rcases decodeHeader_cases c with ⟨g, hg⟩ | ⟨g, hg⟩ <;> rw [hg] at hexec ⊢
  · have hcont (u : State) : exec (.varintCont g) u = execVarintCont g u := rfl
    rw [hcont, execVarintCont] at hexec ⊢
    rw [htake]
    cases hgroup : takeGroup g s with
    | none =>
      rw [hgroup] at hexec
      obtain rfl := Host.Outcome.next.inj hexec
      rfl
    | some u =>
      rw [hgroup] at hexec
      obtain rfl := Host.Outcome.next.inj hexec
      rfl
  · have hlast (u : State) : exec (.varintLast g) u = execVarintLast g u := rfl
    rw [hlast, execVarintLast] at hexec ⊢
    rw [htake]
    cases hgroup : takeGroup g s with
    | none =>
      rw [hgroup] at hexec
      obtain rfl := Host.Outcome.next.inj hexec
      rfl
    | some u =>
      rw [hgroup] at hexec
      obtain rfl := Host.Outcome.next.inj hexec
      exact congrArg _ (enterDecodeLoop_withMem m h u)

theorem engineStep_dcmp_withMem {m : Memory} (h : HashTable) {s t : State} {stage : DcmpStage}
    (hphase : s.phase = .dcmp stage) (hreads : ReadsAgree m s) (hstep : engineStep s = .next t) :
    engineStep (withMem m h s) = .next (withMem m h t) := by
  have hphase' : (withMem m h s).phase = .dcmp stage := hphase
  cases stage with
  | startChecks =>
    obtain rfl := Host.Outcome.next.inj ((engineStep_startDecompress hphase).symm.trans hstep)
    have hbad : badConfig (withMem m h s) = badConfig s := rfl
    rw [engineStep_startDecompress hphase', startDecompress, startDecompress, hbad]
    split_ifs <;> rfl
  | readHeader =>
    rcases Nat.lt_or_ge s.dec.pos.toNat s.inLen.toNat with hpos | hend
    · rw [engineStep_header hphase hpos] at hstep
      rw [engineStep_header hphase' hpos, fetchedHeader, withMem_dec, hreads h _ hpos]
      exact exec_decodeHeader_withMem m h hstep
    · obtain rfl := Host.Outcome.next.inj ((engineStep_headerExhausted hphase hend).symm.trans hstep)
      exact engineStep_headerExhausted hphase' hend
  | decodeLoop =>
    rcases Nat.lt_or_ge s.dec.pos.toNat s.inLen.toNat with hpos | hend
    · rw [engineStep_element hphase hpos] at hstep
      rw [engineStep_element hphase' hpos, fetchedElement, fetchWindow_withMem h hreads]
      exact exec_element_withMem h (decodeElement_context _) hreads hpos hstep
    · obtain rfl := Host.Outcome.next.inj ((engineStep_endOfStream hphase hend).symm.trans hstep)
      rw [engineStep_endOfStream hphase' hend, endOfStream, endOfStream, withMem_dec]
      split_ifs <;> rfl

/-- Settles O56: with the same HT the step is the same but for IN. -/
theorem engineReadsBelowInLen : Obligations.EngineReadsBelowInLen := by
  unfold Obligations.EngineReadsBelowInLen
  rintro s t other ⟨-, -, hinv, -⟩ hagree hstep
  have hreads : ReadsAgree other s := fun _ a ha => hagree a ha
  show engineStep (withMem other s.ht s) = .next (withMem other t.ht t)
  cases hphase : s.phase with
  | idle =>
    obtain rfl := Host.Outcome.next.inj ((engineStep_idle hphase).symm.trans hstep)
    exact engineStep_idle hphase
  | cmp stage =>
    obtain rfl := Host.Outcome.next.inj ((engineStep_cmp hphase).symm.trans hstep)
    have hused : UsedAgree s.ht s := EntriesAgree.usedAgree fun _ _ => rfl
    obtain ⟨h', hother, hsame, -⟩ := compressStep_alike hphase hinv hreads hused
    rw [engineStep_cmp (s := withMem other s.ht s) hphase, hother, hsame rfl]
  | dcmp stage =>
    obtain ⟨hht, -⟩ := unitsStayApart
    rw [hht s t stage hphase hstep]
    exact engineStep_dcmp_withMem s.ht hphase hreads hstep

end Sys2Proof.Machine
end

section
/-! SUPPORT. What COMPRESS leaves in OUT (43_block_compressor.md R95, R97, R100): the varint of the length and elements
that spell the input out, at every stage the part that is covered; and COMPRESS from its start to Done. -/

namespace Sys2Proof.Machine

/-! ## Elements that spell a string of bytes -/

/-- The bytes of elements that spell out the first `q` bytes of a source: each literal carries the next bytes of the
source, and each copy element points back at bytes equal to them (R86 (d), R90, R92). -/
inductive Covers (src : Nat → Byte) : Nat → List Byte → Prop
  | nil : Covers src 0 []
  | literal {q : Nat} {bytes : List Byte} {len : Nat} : Covers src q bytes → 1 ≤ len → len ≤ 65536 →
      Covers src (q + len) (bytes ++ (literalHeader len ++ readBytes src q len))
  | copy {q : Nat} {bytes : List Byte} {offset len : Nat} : Covers src q bytes → 4 ≤ len → len ≤ 64 → 1 ≤ offset →
      offset ≤ q → offset ≤ 65521 → (∀ i, i < len → src (q + i) = src (q + i - offset)) →
      Covers src (q + len) (bytes ++ copyElementBytes offset len)

/-- The elements of a copy spell out the bytes it covers: every chunk has the copy's offset (R91). -/
theorem covers_copyBytes {src : Nat → Byte} {offset : Nat} (hoffset : 1 ≤ offset) (hmax : offset ≤ 65521) {len : Nat}
    (hlen : 4 ≤ len) : ∀ {q : Nat} {bytes : List Byte}, Covers src q bytes → offset ≤ q →
      (∀ i, i < len → src (q + i) = src (q + i - offset)) → Covers src (q + len) (bytes ++ copyBytes offset len) := by
  refine copyChunks_induction (P := fun len chunks => ∀ {q : Nat} {bytes : List Byte}, Covers src q bytes →
    offset ≤ q → (∀ i, i < len → src (q + i) = src (q + i - offset)) →
      Covers src (q + len) (bytes ++ chunks.flatMap (copyElementBytes offset)))
    (fun len hmin hle q bytes hq hback heq => ?_) (fun len hgt hlt q bytes hq hback heq => ?_)
    (fun len hge ih q bytes hq hback heq => ?_) hlen
  · rw [List.flatMap_singleton]
    exact hq.copy hmin hle hoffset hback hmax heq
  · have first := hq.copy (len := 60) (by decide) (by decide) hoffset hback hmax fun i hi => heq i (by omega)
    have second := first.copy (len := len - 60) (by omega) (by omega) hoffset (by omega) hmax fun i hi => by
      rw [Nat.add_assoc]
      exact heq (60 + i) (by omega)
    rw [List.flatMap_cons, List.flatMap_singleton, ← List.append_assoc]
    rwa [show q + 60 + (len - 60) = q + len by omega] at second
  · have first := hq.copy (len := 64) (by decide) (by decide) hoffset hback hmax fun i hi => heq i (by omega)
    have rest := ih first (by omega) fun i hi => by
      rw [Nat.add_assoc]
      exact heq (64 + i) (by omega)
    rw [List.flatMap_cons, ← List.append_assoc]
    rwa [show q + 64 + (len - 64) = q + len by omega] at rest

/-! ## What a stage covers -/

/-- How much of the input the elements cover once a stage has emitted its bytes. -/
def coveredAfter (stage : CmpStage) (s : State) : Nat :=
  match stage with
  | .startChecks | .header => 0
  | .nextBlock => s.cmp.bs.toNat
  | .probe | .adjacent => s.cmp.nextEmit.toNat
  | .accept => s.cmp.ip.toNat
  | .extend => (extendMatch s).cmp.ip.toNat
  | .tail => s.cmp.be.toNat

/-- A stage past the header covers the input it emits (R80, R82, R85). -/
theorem covers_stageBytes {s : State} {stage : CmpStage} (hphase : s.phase = .cmp stage) (hinv : CompressInv s)
    (hstart : stage ≠ .startChecks) (hheader : stage ≠ .header) {elements : List Byte}
    (h : Covers (inByte s) (covered s) elements) :
    Covers (inByte s) (coveredAfter stage s) (elements ++ stageBytes stage s) := by
  cases stage with
  | startChecks => exact absurd rfl hstart
  | header => exact absurd rfl hheader
  | nextBlock | probe | adjacent =>
    simpa only [covered, hphase, coveredAfter, stageBytes, List.append_nil] using h
  | accept =>
    obtain ⟨⟨hsearch, hlimit, -⟩, hemit⟩ := (compressInv_accept hphase).1 hinv
    have := hsearch.ipLimit_le_be
    have := hsearch.1.bounds
    have := hsearch.1.nextEmit_bounds
    simp only [covered, hphase] at h
    have hnext := h.literal (len := s.cmp.ip.toNat - s.cmp.nextEmit.toNat) (by omega) (by omega)
    rwa [Nat.add_sub_of_le (Nat.le_of_lt hemit)] at hnext
  | extend =>
    obtain ⟨hmatch, -⟩ := (compressInv_extend hphase).1 hinv
    obtain ⟨m, hm, hmin, -, hip, hend, hagree, -⟩ := extendIsMaximal s hmatch
    obtain ⟨⟨hblock, -, hmargin, -⟩, hlimit, hlow, hcand, -⟩ := hmatch
    have := hblock.bounds
    simp only [covered, hphase] at h
    rw [coveredAfter, stageBytes, hm, hip]
    refine covers_copyBytes (by omega) (by omega) hmin h (by omega) fun i hi => ?_
    rw [hagree i hi]
    exact congrArg (inByte s) (by omega)
  | tail =>
    have hblock := (compressInv_tail hphase).1 hinv
    have := hblock.bounds
    have := hblock.nextEmit_bounds
    simp only [covered, hphase] at h
    rw [coveredAfter, stageBytes]
    split_ifs with hrest
    · have hnext := h.literal (len := s.cmp.be.toNat - s.cmp.nextEmit.toNat) (by omega) (by omega)
      rwa [Nat.add_sub_of_le (Nat.le_of_lt hrest)] at hnext
    · rw [List.append_nil, show s.cmp.be.toNat = s.cmp.nextEmit.toNat by omega]
      exact h

/-- A stage past the start checks ends COMPRESS or goes on to one past the header, with what it has covered (R95). -/
theorem compressStep_covers {s : State} {stage : CmpStage} (hphase : s.phase = .cmp stage) (hinv : CompressInv s)
    (hstart : stage ≠ .startChecks) :
    (stage = .nextBlock ∧ s.cmp.N.toNat ≤ s.cmp.bs.toNat ∧
      compressStep stage s = endDone { s with outLen := s.cmp.op }) ∨
    ∃ next, (compressStep stage s).phase = .cmp next ∧ next ≠ .startChecks ∧ next ≠ .header ∧
      covered (compressStep stage s) = coveredAfter stage s := by
  cases stage with
  | startChecks => exact absurd rfl hstart
  | header =>
    rw [compressStep, writeHeader_eq]
    exact .inr ⟨.nextBlock, rfl, by decide, by decide, rfl⟩
  | nextBlock =>
    rcases Nat.lt_or_ge s.cmp.bs.toNat s.cmp.N.toNat with hbs | hend
    · rw [compressStep, nextBlock_of_lt hbs]
      rcases Nat.lt_or_ge (nextSize s) 15 with hshort | hmargin
      · rw [beginBlock_of_short hshort]
        exact .inr ⟨.tail, rfl, by decide, by decide, rfl⟩
      · rw [beginBlock_of_margin hmargin]
        exact .inr ⟨.probe, rfl, by decide, by decide, rfl⟩
    · exact .inl ⟨rfl, hend, by rw [compressStep, nextBlock, if_neg (Nat.not_lt.2 hend)]⟩
  | probe =>
    rw [compressStep]
    rcases probe_cases hinv hphase with ⟨-, hnext, hcmp⟩ | ⟨-, hnext, slot, cand, hcmp⟩ |
      ⟨-, hnext, slot, cand, ip, skip, hcmp, -⟩ <;>
    exact .inr ⟨_, hnext, by decide, by decide, by simp only [covered, hnext, hcmp, coveredAfter]⟩
  | accept =>
    rw [compressStep, acceptMatch_eq]
    exact .inr ⟨.extend, rfl, by decide, by decide, rfl⟩
  | extend =>
    rw [compressStep, extendAndEmit_eq]
    exact .inr ⟨.adjacent, rfl, by decide, by decide, rfl⟩
  | adjacent =>
    obtain ⟨-, hemit, -⟩ := (compressInv_adjacent hphase).1 hinv
    rw [compressStep]
    rcases adjacent_cases s with ⟨-, hnext, hcmp⟩ | ⟨-, hnext, slot, cand, hcmp⟩ |
      ⟨-, hnext, slot, cand, ip, skip, hcmp, -⟩ <;>
    exact .inr ⟨_, hnext, by decide, by decide, by simp only [covered, hnext, hcmp, coveredAfter, hemit]⟩
  | tail =>
    have hbs := ((compressInv_tail hphase).1 hinv).next_start_toNat
    rw [compressStep, blockTail_eq]
    exact .inr ⟨.nextBlock, rfl, by decide, by decide, hbs⟩

/-! ## What stands in OUT -/

/-- Bytes stand in a memory from an address on. -/
def StandsAt (read : Nat → Byte) (a : Nat) (bytes : List Byte) : Prop :=
  ∀ j, j < bytes.length → read (a + j) = byteAt bytes j

theorem byteAt_append_left {l k : List Byte} {j : Nat} (h : j < l.length) : byteAt (l ++ k) j = byteAt l j := by
  simp [byteAt, List.getElem?_append_left h]

theorem byteAt_append_right (l k : List Byte) (j : Nat) : byteAt (l ++ k) (l.length + j) = byteAt k j := by
  simp [byteAt, List.getElem?_append_right]

theorem standsAt_append {read : Nat → Byte} {a : Nat} {l k : List Byte} :
    StandsAt read a (l ++ k) ↔ StandsAt read a l ∧ StandsAt read (a + l.length) k := by
  unfold StandsAt
  rw [List.length_append]
  constructor
  · intro h
    refine ⟨fun j hj => (h j (by omega)).trans (byteAt_append_left hj), fun j hj => ?_⟩
    rw [Nat.add_assoc, h _ (by omega), byteAt_append_right]
  · intro ⟨hl, hk⟩ j hj
    rcases Nat.lt_or_ge j l.length with hlt | hge
    · rw [hl j hlt, byteAt_append_left hlt]
    · obtain ⟨i, rfl⟩ := Nat.exists_eq_add_of_le hge
      rw [← Nat.add_assoc, hk i (by omega), byteAt_append_right]

/-- In `u` the first `n` bytes of OUT are the varint of the length and elements that cover the first `q` bytes of the
input of `s`, and the others are those of `s` (R95, R99). -/
def Produced (s u : State) (q n : Nat) : Prop :=
  ∃ elements, Covers (inByte s) q elements ∧
    n = (varintBytes s.inLen.toNat ++ elements).length ∧
    StandsAt (outByte u) 0 (varintBytes s.inLen.toNat ++ elements) ∧
    ∀ a, n ≤ a → outByte u a = outByte s a

/-- A stage past the start checks changes the bytes of OUT that its emission changes. -/
theorem outByte_compressStep {s : State} {stage : CmpStage} (hphase : s.phase = .cmp stage)
    (hstart : stage ≠ .startChecks) (hfits : s.cmp.op.toNat + (stageBytes stage s).length < 2 ^ 32) (a : Nat) :
    outByte (compressStep stage s) a = outByte (emitBytes (stageBytes stage s) s) a := by
  have hepoch : (compressStep stage s).epoch = s.epoch := by rw [engineStep_frame (engineStep_cmp hphase)]
  have hepoch' : (emitBytes (stageBytes stage s) s).epoch = s.epoch := by rw [emitBytes_frame]
  rw [outByte, outByte, (compressStep_emits hstart hfits).1, hepoch, hepoch']

/-- Bytes emitted at the end of what is produced extend it. -/
theorem Produced.emit {s u v : State} {q q' : Nat} {bytes : List Byte} (h : Produced s u q u.cmp.op.toNat)
    (hfits : u.cmp.op.toNat + bytes.length < 2 ^ 32)
    (hout : ∀ a, outByte v a = outByte (emitBytes bytes u) a)
    (hcovers : ∀ elements, Covers (inByte s) q elements → Covers (inByte s) q' (elements ++ bytes)) :
    Produced s v q' (u.cmp.op.toNat + bytes.length) := by
  obtain ⟨elements, helements, hn, hstands, habove⟩ := h
  refine ⟨elements ++ bytes, hcovers elements helements, ?_, ?_, fun a ha => ?_⟩
  · rw [hn, ← List.append_assoc, List.length_append (bs := bytes)]
  · rw [← List.append_assoc, standsAt_append, Nat.zero_add, ← hn]
    refine ⟨fun j hj => ?_, fun j hj => ?_⟩
    · rw [hout, outByte_emitBytes_other hfits (by omega)]
      exact hstands j hj
    · rw [hout, outByte_emitBytes_range hfits hj]
  · rw [hout, outByte_emitBytes_other hfits (by omega)]
    exact habove a (by omega)

/-! ## COMPRESS from its start to Done -/

/-- The fields a run of the engine reads and leaves as they are. -/
def SameInput (s u : State) : Prop :=
  u.inLen = s.inLen ∧ u.outCap = s.outCap ∧ u.platform = s.platform ∧ u.inMem = s.inMem ∧ u.epoch = s.epoch

theorem SameInput.inByte {s u : State} (h : SameInput s u) : inByte u = inByte s := by
  obtain ⟨-, -, -, hin, hepoch⟩ := h
  funext a
  rw [Machine.inByte, hin, hepoch, Machine.inByte]

theorem SameInput.engineStep {s u v : State} (h : SameInput s u) (hstep : engineStep u = .next v) : SameInput s v := by
  rw [engineStep_frame hstep]
  exact h

/-- What holds in a COMPRESS that `s` has started and whose start checks pass: up to Done, the input so far covered is
produced. -/
def CompressRun (s u : State) : Prop :=
  SameInput s u ∧
  match u.phase with
  | .cmp .startChecks | .cmp .header => ∀ a, outByte u a = outByte s a
  | .cmp _ => Produced s u (covered u) u.cmp.op.toNat
  | .idle => u.status = statusDone ∧ u.outLen.toNat ≤ outBound s.inLen.toNat ∧
      Produced s u s.inLen.toNat u.outLen.toNat
  | .dcmp _ => False

theorem compressRun_stage {s u : State} {stage : CmpStage} (h : u.phase = .cmp stage) (hstart : stage ≠ .startChecks)
    (hheader : stage ≠ .header) :
    CompressRun s u ↔ SameInput s u ∧ Produced s u (covered u) u.cmp.op.toNat := by
  cases stage <;> simp_all [CompressRun]

theorem compressRun_start {s u : State} (h : u.phase = .cmp .startChecks ∨ u.phase = .cmp .header) :
    CompressRun s u ↔ SameInput s u ∧ ∀ a, outByte u a = outByte s a := by
  rcases h with h | h <;> simp only [CompressRun, h]

theorem compressRun_idle {s u : State} (h : u.phase = .idle) :
    CompressRun s u ↔ SameInput s u ∧ u.status = statusDone ∧ u.outLen.toNat ≤ outBound s.inLen.toNat ∧
      Produced s u s.inLen.toNat u.outLen.toNat := by
  simp only [CompressRun, h]

/-- The lengths of `s` pass the start checks of COMPRESS (R128). -/
def PassesChecks (s : State) : Prop := lengthsFit s ∧ outBound s.inLen.toNat ≤ s.outCap.toNat

theorem startCompress_of_passes {s u : State} (hpass : PassesChecks s) (h : SameInput s u) :
    startCompress u = { u with cmp := { u.cmp with N := u.inLen, op := 0 }, phase := .cmp .header } := by
  obtain ⟨⟨hin, hout⟩, hroom⟩ := hpass
  obtain ⟨hlen, hcap, hplatform, -⟩ := h
  have hbad : badConfig u ≠ true := by
    rw [Ne, badConfig_iff, hlen, hcap, hplatform]
    omega
  have hshort : capacityShort u ≠ true := by
    rw [Ne, capacityShort_iff, hlen, hcap]
    omega
  rw [startCompress, if_neg hbad, if_neg hshort]

theorem compressRun_header_step {s u : State} (hphase : u.phase = .cmp .header) (hinv : CompressInv u)
    (hrun : CompressRun s u) : CompressRun s (compressStep .header u) := by
  obtain ⟨hsame, hout⟩ := (compressRun_start (.inr hphase)).1 hrun
  obtain ⟨hN, hop⟩ := (compressInv_header hphase).1 hinv
  have hlength : (stageBytes .header u).length ≤ 5 := varintBytes_length_le _
  have hopNat : u.cmp.op.toNat = 0 := by rw [hop]; rfl
  have hfits : u.cmp.op.toNat + (stageBytes .header u).length < 2 ^ 32 := by omega
  have hbytes : stageBytes .header u = varintBytes s.inLen.toNat := by rw [stageBytes, hN, hsame.1]
  obtain ⟨next, hnext, hstart, hheader, hcovered⟩ :=
    (compressStep_covers hphase hinv (by decide)).resolve_left fun h => by simp at h
  rw [compressRun_stage hnext hstart hheader, hcovered,
    (compressStep_emits (by decide) hfits).2 (by simp [hnext]), hopNat, Nat.zero_add]
  refine ⟨hsame.engineStep (engineStep_cmp hphase), [], .nil, by rw [hbytes, List.append_nil], ?_, fun a ha => ?_⟩
  · intro j hj
    rw [List.append_nil, ← hbytes] at hj ⊢
    rw [outByte_compressStep hphase (by decide) hfits, ← outByte_emitBytes_range hfits hj, hopNat]
  · rw [outByte_compressStep hphase (by decide) hfits, outByte_emitBytes_other hfits (by omega), hout]

theorem compressRun_compressStep {s u : State} {stage : CmpStage} (hpass : PassesChecks s)
    (hphase : u.phase = .cmp stage) (hinv : CompressInv u) (hout : OutputInv u) (hrun : CompressRun s u) :
    CompressRun s (compressStep stage u) := by
  have hsame := hrun.1.engineStep (engineStep_cmp hphase)
  by_cases hstart : stage = .startChecks
  · subst hstart
    obtain ⟨hsame', hkept⟩ := (compressRun_start (.inl hphase)).1 hrun
    rw [compressStep, startCompress_of_passes hpass hsame'] at hsame ⊢
    exact (compressRun_start (.inr rfl)).2 ⟨hsame, hkept⟩
  by_cases hheader : stage = .header
  · subst hheader
    exact compressRun_header_step hphase hinv hrun
  obtain ⟨hsame', hproduced⟩ := (compressRun_stage hphase hstart hheader).1 hrun
  rcases compressStep_covers hphase hinv hstart with ⟨rfl, hend, hdone⟩ | ⟨next, hnext, hstart', hheader', hcovered⟩
  · obtain ⟨hN, hbs, -⟩ := (compressInv_nextBlock hphase).1 hinv
    have hbound := (op_le_boundAfter hphase hstart hinv hout).trans (boundAfter_le_outBound hphase hstart hinv)
    rw [hdone] at hsame ⊢
    refine (compressRun_idle rfl).2 ⟨hsame, rfl, ?_, ?_⟩
    · rw [← hsame'.1]
      exact hbound
    · have hall : covered u = s.inLen.toNat := by
        simp only [covered, hphase]
        rw [← hsame'.1, ← hN]
        omega
      rw [hall] at hproduced
      exact hproduced
  · have hfits := (emission_fits hphase hstart hinv hout).trans_lt u.outCap.isLt
    rw [compressRun_stage hnext hstart' hheader', hcovered,
      (compressStep_emits hstart hfits).2 (by simp [hnext])]
    refine ⟨hsame, hproduced.emit hfits (outByte_compressStep hphase hstart hfits) fun elements helements => ?_⟩
    rw [← hsame'.inByte] at helements ⊢
    exact covers_stageBytes hphase hinv hstart hheader helements

/-- What a run of COMPRESS keeps. -/
def CompressRunInv (s u : State) : Prop := CompressInv u ∧ OutputInv u ∧ CompressRun s u

theorem compressRunInv_engineStep {s u v : State} (hpass : PassesChecks s) (h : CompressRunInv s u)
    (hstep : engineStep u = .next v) : CompressRunInv s v := by
  obtain ⟨hinv, hout, hrun⟩ := h
  cases hphase : u.phase with
  | idle =>
    obtain rfl : u = v := Host.Outcome.next.inj ((engineStep_idle hphase).symm.trans hstep)
    exact ⟨hinv, hout, hrun⟩
  | cmp stage =>
    obtain rfl := Host.Outcome.next.inj ((engineStep_cmp hphase).symm.trans hstep)
    exact ⟨compressInv_compressStep hphase hinv, outputInv_compressStep hphase hinv hout,
      compressRun_compressStep hpass hphase hinv hout hrun⟩
  | dcmp stage =>
    obtain ⟨-, hrun⟩ := hrun
    simp only [hphase] at hrun

theorem compressRunInv_acceptStart (s : State) : CompressRunInv s (acceptStart false s) :=
  ⟨compressInv_acceptStart false s, outputInv_startChecks rfl,
    (compressRun_start (.inl rfl)).2 ⟨⟨rfl, rfl, rfl, rfl, rfl⟩, fun _ => rfl⟩⟩

theorem exec_cmdCompress_of_idle {s : State} (hidle : s.status.busy = false) (r : BitVec 30) :
    exec (.cmdCompress r) s = .next (acceptStart false s) :=
  congrArg Host.Outcome.next (if_neg (by simp [hidle]))

/-- Settles O59: the run ends, and at its end the invariant of a run of COMPRESS says Done, the bound and the frame. -/
theorem compressIsTotal : Obligations.CompressIsTotal := by
  unfold Obligations.CompressIsTotal
  rintro s r - ⟨-, hidle, hhost⟩ hin hcap hroom
  have hstart := compressRunInv_acceptStart s
  obtain ⟨n, d, -, hrun, hend⟩ := run_to_idle (stepsLeft (acceptStart false s)) hstart.1 hhost (Nat.le_refl _)
  obtain ⟨-, -, hfinal⟩ := runs_keeps (P := CompressRunInv s)
    (fun _ _ hu hstep => compressRunInv_engineStep ⟨⟨hin, hcap⟩, hroom⟩ hu hstep) hstart hhost hrun
  obtain ⟨-, hdone, hbound, -, -, -, -, habove⟩ := (compressRun_idle hend).1 hfinal
  exact ⟨_, d, exec_cmdCompress_of_idle hidle r, ⟨n, hrun⟩, hend, hdone, hbound, habove⟩

end Sys2Proof.Machine
end

section
/-! SUPPORT. DECOMPRESS of what COMPRESS produced (43_block_compressor.md R100): the parser reads each element of a
cover back as the bytes it covers. -/

namespace Sys2Proof.Machine

/-! ## Runs in sequence -/

theorem core_run_add {t : State} (m : Nat) : ∀ {n : Nat} {s : State}, Host.Core.run Sys2Proof.core n s = .next t →
    Host.Core.run Sys2Proof.core (n + m) s = Host.Core.run Sys2Proof.core m t := by
  intro n
  induction n with
  | zero =>
    intro s h
    obtain rfl : s = t := Host.Outcome.next.inj h
    rw [Nat.zero_add]
  | succ n ih =>
    intro s h
    cases hstep : step s with
    | next u =>
      rw [core_run_succ hstep] at h
      rw [Nat.add_right_comm, core_run_succ hstep, ih h]
    | fault r =>
      have hstep' : Sys2Proof.core.step s = .fault r := hstep
      simp only [Host.Core.run, hstep', reduceCtorEq] at h
    | refused r =>
      have hstep' : Sys2Proof.core.step s = .refused r := hstep
      simp only [Host.Core.run, hstep', reduceCtorEq] at h

theorem Runs.trans {s t u : State} (hst : Runs s t) (htu : Runs t u) : Runs s u := by
  obtain ⟨n, hn⟩ := hst
  obtain ⟨m, hm⟩ := htu
  exact ⟨n + m, (core_run_add m hn).trans hm⟩

theorem Runs.of_step {s t : State} (h : step s = .next t) : Runs s t := ⟨1, core_run_succ h 0⟩

/-! ## One element of a cover -/

/-- Bytes that stand at `pos`, within IN_LEN, begin the fetch window (R103). -/
theorem fetchWindow_of_standsAt {s : State} {l : List Byte} (h : StandsAt (inByte s) s.dec.pos.toNat l)
    (hmax : l.length ≤ 5) (hin : s.dec.pos.toNat + l.length ≤ s.inLen.toNat) :
    fetchWindow s = l ++ (fetchWindow s).drop l.length := by
  have hle : l.length ≤ (fetchWindow s).length := by
    rw [fetchWindow_length]
    omega
  have hprefix : (fetchWindow s).take l.length = l := by
    rw [← map_byteAt_range hle]
    calc (List.range l.length).map (byteAt (fetchWindow s))
        = (List.range l.length).map (byteAt l) := by
          refine List.map_congr_left fun j hj => ?_
          have hj : j < l.length := List.mem_range.1 hj
          rw [byteAt_fetchWindow (Nat.lt_of_lt_of_le hj hle), h j hj]
      _ = l := by rw [map_byteAt_range (Nat.le_refl _), List.take_length]
  calc fetchWindow s = (fetchWindow s).take l.length ++ (fetchWindow s).drop l.length :=
        (List.take_append_drop _ _).symm
    _ = l ++ (fetchWindow s).drop l.length := by rw [hprefix]

/-- A literal's header at `pos` is executed, its payload after it (R94, R106). -/
theorem step_literal {s : State} {len : Nat} (hphase : s.phase = .dcmp .decodeLoop) (hhost : s.host = [])
    (hmin : 1 ≤ len) (hmax : len ≤ 65536) (hbytes : StandsAt (inByte s) s.dec.pos.toNat (literalHeader len))
    (hin : s.dec.pos.toNat + (literalHeader len).length + len ≤ s.inLen.toNat)
    (hout : s.dec.outPos.toNat + len ≤ s.dec.L.toNat) :
    ∃ k t, (literalHeader len).length = 1 + k ∧ step s = .next t ∧ LiteralDone k len s t := by
  have hlength := literalHeader_length_le len
  have hdecode := decode_literalHeader hmin hmax ((fetchWindow s).drop (literalHeader len).length)
  rw [← fetchWindow_of_standsAt hbytes (by omega) (by omega)] at hdecode
  obtain ⟨runsElement, -⟩ := stepRunsDecoded
  have hstep := runsElement s _ _ hhost hphase hdecode
  have hpos : s.dec.pos.toNat < s.inLen.toNat := by omega
  obtain ⟨lit, litX1, litX2, -⟩ := literalFormsComplete s hpos
  rcases expandLiteral_cases hmin hmax with ⟨hle, f, hi, rfl⟩ | ⟨hlo, hhi, f, hi, rfl⟩ | ⟨hge, f, hi, rfl⟩
  · have hheader : (literalHeader (f.toNat + 1)).length = 1 + 0 := by rw [literalHeader_of_le_60 hle]; rfl
    obtain ⟨t, ht, hdone⟩ := lit f (literalVerdict_eq_none_iff.2 (by omega))
    exact ⟨0, t, hheader, by rw [hstep, hi, ht], hdone⟩
  · have hheader : (literalHeader (f.toNat + 1)).length = 1 + 1 := by
      rw [literalHeader_of_le_255 hlo (by omega)]; rfl
    obtain ⟨t, ht, hdone⟩ := litX1 f (literalVerdict_eq_none_iff.2 (by omega))
    exact ⟨1, t, hheader, by rw [hstep, hi, ht], hdone⟩
  · have hheader : (literalHeader (f.toNat + 1)).length = 1 + 2 := by rw [literalHeader_of_ge_256 hge]; rfl
    obtain ⟨t, ht, hdone⟩ := litX2 f (literalVerdict_eq_none_iff.2 (by omega))
    exact ⟨2, t, hheader, by rw [hstep, hi, ht], hdone⟩

theorem copyElementBytes_length_eq (offset len : Nat) :
    (copyElementBytes offset len).length = if len < 12 ∧ offset < 2048 then 2 else 3 := by
  unfold copyElementBytes
  rw [apply_ite List.length]
  rfl

/-- A copy element at `pos` is executed (R94, R115). -/
theorem step_copyElement {s : State} {offset len : Nat} (hphase : s.phase = .dcmp .decodeLoop) (hhost : s.host = [])
    (hmin : 4 ≤ len) (hmax : len ≤ 64) (hoffset : 1 ≤ offset) (hback : offset ≤ s.dec.outPos.toNat)
    (hfar : offset ≤ 65521) (hbytes : StandsAt (inByte s) s.dec.pos.toNat (copyElementBytes offset len))
    (hin : s.dec.pos.toNat + (copyElementBytes offset len).length ≤ s.inLen.toNat)
    (hout : s.dec.outPos.toNat + len ≤ s.dec.L.toNat) :
    ∃ k t, (copyElementBytes offset len).length = 1 + k ∧ step s = .next t ∧ CopyDone k len offset s t := by
  have hlength := copyElementBytes_length offset len
  have hfits : offset < 65536 := by omega
  have hdecode := decode_copyElementBytes hfits hmin hmax ((fetchWindow s).drop (copyElementBytes offset len).length)
  rw [← fetchWindow_of_standsAt hbytes (by omega) (by omega)] at hdecode
  obtain ⟨runsElement, -⟩ := stepRunsDecoded
  have hstep := runsElement s _ _ hhost hphase hdecode
  have hpos : s.dec.pos.toNat < s.inLen.toNat := by omega
  obtain ⟨copy1, copy2, -⟩ := copyFormsComplete s hpos
  have hbytesLength := copyElementBytes_length_eq offset len
  rcases expandCopyElement_cases hfits hmin hmax with ⟨hshort, hnear, f, o, hi, rfl, rfl⟩ | ⟨hlong, f, o, hi, rfl, rfl⟩
  · rw [if_pos ⟨hshort, hnear⟩] at hbytesLength
    obtain ⟨t, ht, hdone⟩ := copy1 f o (copyVerdict_eq_none_iff.2 (by omega))
    exact ⟨1, t, hbytesLength, by rw [hstep, hi, ht], hdone⟩
  · rw [if_neg hlong] at hbytesLength
    obtain ⟨t, ht, hdone⟩ := copy2 f o (copyVerdict_eq_none_iff.2 (by omega))
    exact ⟨2, t, hbytesLength, by rw [hstep, hi, ht], hdone⟩

/-! ## All elements of a cover -/

/-- From `s`, at the start of DecodeLoop, DecodeLoop has read `used` bytes and restored the first `q` bytes of the
source. -/
def Restored (src : Nat → Byte) (s t : State) (q used : Nat) : Prop :=
  t = { s with outMem := t.outMem, dec := t.dec } ∧ t.dec.L = s.dec.L ∧
  t.dec.pos.toNat = s.dec.pos.toNat + used ∧ t.dec.outPos.toNat = q ∧ ∀ a, a < q → outByte t a = src a

theorem Restored.sameStream {src : Nat → Byte} {s t : State} {q used : Nat} (h : Restored src s t q used) :
    inByte t = inByte s ∧ t.inLen = s.inLen ∧ t.phase = s.phase ∧ t.host = s.host := by
  rw [h.1]
  exact ⟨rfl, rfl, rfl, rfl⟩

theorem Restored.literal {src : Nat → Byte} {s t v : State} {q used k len : Nat} (h : Restored src s t q used)
    (hdone : LiteralDone k len t v)
    (hpayload : StandsAt (inByte t) (t.dec.pos.toNat + (1 + k)) (readBytes src q len)) :
    Restored src s v (q + len) (used + (1 + k + len)) := by
  obtain ⟨hframe, hL, hpos, hq, hrestored⟩ := h
  obtain ⟨hmoved, hkept, hpos', hq', -, -, -, hL', -, -, -, hframe'⟩ := hdone
  refine ⟨by rw [hframe', hframe], hL'.trans hL, by omega, by omega, fun a ha => ?_⟩
  rcases Nat.lt_or_ge a q with hlt | hge
  · rw [hkept a (by omega), hrestored a hlt]
  · obtain ⟨i, rfl⟩ := Nat.exists_eq_add_of_le hge
    have hi : i < len := by omega
    have hbyte := hpayload i (by rwa [readBytes_length])
    rw [byteAt_readBytes _ _ hi] at hbyte
    rw [← hbyte, ← hq, hmoved i hi]
    exact congrArg (inByte t) (by omega)

/-- Bytes that repeat at a distance repeat with it as a period. -/
theorem periodic_of_repeats {src : Nat → Byte} {q offset len : Nat} (hoffset : 1 ≤ offset) (hback : offset ≤ q)
    (h : ∀ i, i < len → src (q + i) = src (q + i - offset)) :
    ∀ i, i < len → src (q + i) = src (q - offset + i % offset) := by
  intro i
  induction i using Nat.strong_induction_on with
  | _ i ih =>
    intro hi
    rcases Nat.lt_or_ge i offset with hlt | hge
    · rw [h i hi, Nat.mod_eq_of_lt hlt]
      exact congrArg src (by omega)
    · rw [h i hi, show q + i - offset = q + (i - offset) by omega, ih (i - offset) (by omega) (by omega),
        Nat.mod_eq_sub_mod hge]

theorem Restored.copy {src : Nat → Byte} {s t v : State} {q used k len offset : Nat} (h : Restored src s t q used)
    (hoffset : 1 ≤ offset) (hback : offset ≤ q) (hdone : CopyDone k len offset t v)
    (hrepeats : ∀ i, i < len → src (q + i) = src (q + i - offset)) :
    Restored src s v (q + len) (used + (1 + k)) := by
  obtain ⟨hframe, hL, hpos, hq, hrestored⟩ := h
  obtain ⟨hmoved, hkept, hpos', hq', -, -, -, -, hL', -, -, hframe'⟩ := hdone
  refine ⟨by rw [hframe', hframe], hL'.trans hL, by omega, by omega, fun a ha => ?_⟩
  rcases Nat.lt_or_ge a q with hlt | hge
  · rw [hkept a (by omega), hrestored a hlt]
  · obtain ⟨i, rfl⟩ := Nat.exists_eq_add_of_le hge
    have hi : i < len := by omega
    have hmod := Nat.mod_lt i hoffset
    rw [periodic_of_repeats hoffset hback hrepeats i hi, ← hrestored _ (by omega), ← hq, hmoved i hi]

/-- DecodeLoop restores what a cover covers (R100). -/
theorem runs_restored {src : Nat → Byte} {s : State} {q : Nat} {elements : List Byte} (h : Covers src q elements)
    (hphase : s.phase = .dcmp .decodeLoop) (hhost : s.host = []) (hstart : s.dec.outPos.toNat = 0)
    (hbytes : StandsAt (inByte s) s.dec.pos.toNat elements)
    (hin : s.dec.pos.toNat + elements.length ≤ s.inLen.toNat) (hL : q ≤ s.dec.L.toNat) :
    ∃ t, Runs s t ∧ Restored src s t q elements.length := by
  induction h with
  | nil => exact ⟨s, ⟨0, rfl⟩, rfl, rfl, rfl, hstart, fun a ha => absurd ha (Nat.not_lt_zero a)⟩
  | @literal q bytes len _ hmin hmax ih =>
    obtain ⟨hread, helement⟩ := standsAt_append.1 hbytes
    obtain ⟨hheader, hpayload⟩ := standsAt_append.1 helement
    simp only [List.length_append, readBytes_length] at hin
    obtain ⟨t, hruns, hrestored⟩ := ih hread (by omega) (by omega)
    obtain ⟨hinByte, hinLen, hphase', hhost'⟩ := hrestored.sameStream
    obtain ⟨-, hL', hpos, hq, -⟩ := id hrestored
    rw [← hpos, ← hinByte] at hheader hpayload
    obtain ⟨k, v, hk, hstep, hdone⟩ := step_literal (hphase'.trans hphase) (hhost'.trans hhost) hmin hmax hheader
      (by rw [hinLen]; omega) (by rw [hL']; omega)
    rw [hk] at hpayload
    refine ⟨v, hruns.trans (.of_step hstep), ?_⟩
    simp only [List.length_append, readBytes_length, hk]
    exact hrestored.literal hdone hpayload
  | @copy q bytes offset len _ hmin hmax hoffset hback hfar hrepeats ih =>
    obtain ⟨hread, helement⟩ := standsAt_append.1 hbytes
    simp only [List.length_append] at hin
    obtain ⟨t, hruns, hrestored⟩ := ih hread (by omega) (by omega)
    obtain ⟨hinByte, hinLen, hphase', hhost'⟩ := hrestored.sameStream
    obtain ⟨-, hL', hpos, hq, -⟩ := id hrestored
    rw [← hpos, ← hinByte] at helement
    obtain ⟨k, v, hk, hstep, hdone⟩ := step_copyElement (hphase'.trans hphase) (hhost'.trans hhost) hmin hmax hoffset
      (by omega) hfar helement (by rw [hinLen]; omega) (by rw [hL']; omega)
    refine ⟨v, hruns.trans (.of_step hstep), ?_⟩
    simp only [List.length_append, hk]
    exact hrestored.copy hoffset hback hdone hrepeats

/-! ## DECOMPRESS from its start to Done -/

/-- The state of DECOMPRESS before the header's first byte (R101). -/
def headerStart (u : State) : State :=
  { acceptStart true u with dec := { u.dec with pos := 0, vres := 0, vshift := 0 }, phase := .dcmp .readHeader }

theorem runs_headerStart {u : State} (hhost : u.host = []) (hfit : lengthsFit u) :
    Runs (acceptStart true u) (headerStart u) := by
  obtain ⟨hin, hcap⟩ := hfit
  have hok : badConfig (acceptStart true u) ≠ true := by
    rw [Ne, badConfig_iff]
    simp only [acceptStart_inLen, acceptStart_outCap, acceptStart_platform]
    omega
  refine .of_step ((step_of_host_nil (s := acceptStart true u) hhost).trans
    ((engineStep_startDecompress (s := acceptStart true u) rfl).trans ?_))
  rw [startDecompress, if_neg hok]
  rfl

theorem exec_cmdDecompress_of_idle {s : State} (hidle : s.status.busy = false) (q : BitVec 30) :
    exec (.cmdDecompress q) s = .next (acceptStart true s) :=
  congrArg Host.Outcome.next (if_neg (by simp [hidle]))

/-- DECOMPRESS of a varint and a cover of that many bytes ends in Done with the bytes restored (R100, R119, R131). -/
theorem decompress_restores {u : State} {src : Nat → Byte} {N : Word} {elements : List Byte} (hhost : u.host = [])
    (hfit : lengthsFit u) (hroom : N.toNat ≤ u.outCap.toNat) (hcovers : Covers src N.toNat elements)
    (hlength : u.inLen.toNat = (varintBytes N.toNat ++ elements).length)
    (hbytes : StandsAt (inByte u) 0 (varintBytes N.toNat ++ elements)) :
    ∃ w, Runs (acceptStart true u) w ∧ w.status = statusDone ∧ w.outLen = N ∧
      ∀ a, a < N.toNat → outByte w a = src a := by
  obtain ⟨hvarint, helements⟩ := standsAt_append.1 hbytes
  rw [List.length_append] at hlength
  have hlengthHeader : (varintBytes N.toNat).length ≤ (headerStart u).inLen.toNat := by
    show _ ≤ u.inLen.toNat
    omega
  obtain ⟨t, hrun, hfits, -⟩ := varintRoundTrip (headerStart u) N.toNat N.isLt rfl hhost rfl rfl rfl hlengthHeader
    fun j hj => by
      rw [← hvarint j hj, Nat.zero_add]
      rfl
  obtain ⟨hphase, hL, hpos, hout, hframe⟩ := hfits hroom
  have hinput : inByte t = inByte u ∧ t.inLen = u.inLen ∧ t.host = u.host := by
    rw [hframe]
    exact ⟨rfl, rfl, rfl⟩
  obtain ⟨hinByte, hinLen, hhost'⟩ := hinput
  rw [Nat.zero_add, ← hpos, ← hinByte] at helements
  obtain ⟨v, hruns, hrestoredV⟩ := runs_restored hcovers hphase (hhost'.trans hhost)
    (by rw [hout]; rfl) helements (by rw [hinLen]; omega) (by omega)
  obtain ⟨-, hinLenV, hphaseV, hhostV⟩ := hrestoredV.sameStream
  obtain ⟨-, hL', hpos', hq, hrestored⟩ := hrestoredV
  have hLN : v.dec.L = N := BitVec.eq_of_toNat_eq (by rw [hL', hL])
  obtain ⟨hdone, -⟩ := endOfStreamEnds v (hhostV.trans (hhost'.trans hhost)) (hphaseV.trans hphase)
    (BitVec.eq_of_toNat_eq (by rw [hinLenV, hinLen]; omega))
  obtain ⟨w, hstep, hstatus, houtLen, -, hframeW⟩ := hdone (BitVec.eq_of_toNat_eq (by rw [hLN]; omega))
  refine ⟨w, (runs_headerStart hhost hfit).trans (Runs.trans ⟨_, hrun⟩ (hruns.trans (.of_step hstep))), hstatus,
    houtLen.trans hLN, fun a ha => ?_⟩
  rw [← hrestored a ha, hframeW]
  rfl

/-- Settles O60: at its end COMPRESS has produced the varint of N and a cover of the input, and DECOMPRESS restores what
is covered. -/
theorem roundTrip : Obligations.RoundTrip := by
  unfold Obligations.RoundTrip
  rintro s c d u r q - ⟨-, hidle, hhost⟩ hin hcap hroom hc ⟨n, hrun⟩ hend - ⟨-, hidleU, hhostU⟩ hinLen hinU hcapU
    hroomU hcopied
  obtain rfl := Host.Outcome.next.inj ((exec_cmdCompress_of_idle hidle r).symm.trans hc)
  obtain ⟨-, -, hfinal⟩ := runs_keeps (P := CompressRunInv s)
    (fun _ _ hu hstep => compressRunInv_engineStep ⟨⟨hin, hcap⟩, hroom⟩ hu hstep)
    (compressRunInv_acceptStart s) hhost hrun
  obtain ⟨-, -, -, elements, hcovers, hlength, hstands, -⟩ := (compressRun_idle hend).1 hfinal
  have hbytes : StandsAt (inByte u) 0 (varintBytes s.inLen.toNat ++ elements) := fun j hj => by
    rw [hcopied (0 + j) (by omega)]
    exact hstands j hj
  obtain ⟨w, hruns, hdone, houtLen, hrestored⟩ :=
    decompress_restores hhostU ⟨hinU, hcapU⟩ hroomU hcovers (by rw [hinLen]; exact hlength) hbytes
  exact ⟨_, w, exec_cmdDecompress_of_idle hidleU q, hruns, hdone, houtLen, hrestored⟩

end Sys2Proof.Machine
end
